-- ==== Sys2Proof/Word.lean ====
section
/-! DEFINITION. Word.lean: the bus word and the two narrow fields the spec cuts from it. -/

namespace Sys2Proof

/-- The bus word and every register slot: XLEN = 32 bits (00_scope.md R6). -/
abbrev Word := BitVec 32

/-- The word index on the `addr` port, byte offset bits [7:2] (20_memory.md R61). -/
abbrev BusAddr := BitVec 6

/-- A bus transaction written as one number (30_encoding.md R81). -/
abbrev TxnBits := BitVec 39

end Sys2Proof
end

