-- ==== Sys2Proof/Config.lean ====
section
/-! DEFINITION. Config.lean: what an implementation fixes (00_scope.md R6). The spec leaves no instruction's
value open, so there is no free value here (DEDUCED, log entry 7). -/

namespace Sys2Proof

/-- The two parameters of an implementation (00_scope.md R6, 10_state.md R22): `w` is W, the number of implemented
bits of a coordinate-class register, and `psDepth` is PS_DEPTH, the entries of the point-set memory.
State carries a Config and no step changes it (DESIGN CHOICE, log entry 1), so every statement holds for every implementation. -/
structure Config where
  w       : Nat
  psDepth : Nat
  deriving DecidableEq, Repr

/-- The defaults of 00_scope.md R6: W = 16 and PS_DEPTH = 2^(W+1). -/
def Config.default : Config := { w := 16, psDepth := 2 ^ (16 + 1) }

end Sys2Proof
end

