-- ==== Sys2Proof/Syntax.lean ====
section
/-! DEFINITION. Syntax.lean: the ten commands, and the two levels below them: the bus transaction (30_encoding.md
R81) with what else the host can present, and the script notation (R96, R97). -/

namespace Sys2Proof

/-- The ten commands (30_encoding.md R83). A command has no register field, no immediate and no mode bit: it takes its
operands from fixed registers and leaves its results in fixed registers (R82). -/
inductive Instr where
  | modinv | enum | padd | pdbl | smul | encode | dhss | egenc | pneg | egdec
  deriving DecidableEq, Repr

/-- The two fields of a command word (30_encoding.md R82). -/
structure CommandWord where
  rsvd   : BitVec 24
  opcode : BitVec 8
  deriving DecidableEq, Repr

/-- One bus transaction: the port values of 20_memory.md R61. `wdata` is ignored for a read (30_encoding.md R81). -/
structure BusTxn where
  wr    : Bool
  addr  : BusAddr
  wdata : Word
  deriving DecidableEq, Repr

/-- What the host can present to the block, between two of the block's states. -/
inductive HostInput where
  /-- A transaction that runs to its completing edge (20_memory.md R62). -/
  | txn (t : BusTxn)
  /-- `rst_n` = 0 at a rising edge (70_reset_and_hazards.md R210). -/
  | reset
  /-- The host breaks the protocol of 20_memory.md R62: two transactions at once, or one changed before `ready`
  (93_implementation_defined.md U19). -/
  | protocolBreach
  deriving DecidableEq, Repr

/-- The register names of 10_state.md R47, in the order of their offsets. -/
inductive RegName where
  | id | capw | capd | cmd | status | esticky
  | p | a | b
  | p1x | p1y | p1t | p2x | p2y | p2t
  | k1 | k2 | msg | opa
  | r1x | r1y | r1t | r2x | r2y | r2t | r3x | r3y | r3t
  | rm | rh | rj | rs
  | pscount | psaddr | psx | psy
  deriving DecidableEq, Repr

/-- The register classes of 10_state.md R23. -/
inductive RegClass where
  | coordinate | tag | word | command | sticky | readOnly
  deriving DecidableEq, Repr

/-- One line of the script notation (30_encoding.md R96). -/
inductive ScriptLine where
  /-- `WR NAME, value` -/
  | wr (name : RegName) (value : Word)
  /-- `RD NAME` -/
  | rd (name : RegName)
  /-- `CMD MNEMONIC` -/
  | cmd (i : Instr)
  /-- `CMD number` -/
  | cmdWord (number : Word)
  deriving DecidableEq, Repr

/-- The three result points that `RDR n` names (30_encoding.md R97). -/
inductive ResultPoint where
  | r1 | r2 | r3
  deriving DecidableEq, Repr

/-- The pseudo-instructions of 30_encoding.md R97. -/
inductive PseudoInstr where
  | curve (a b p : Word)
  | ldp1 (x y : Word)
  | ldp1Inf
  | ldp2 (x y : Word)
  | ldp2Inf
  | keys (dA dB : Word)
  | rdr (n : ResultPoint)
  | clrerr
  deriving DecidableEq, Repr

end Sys2Proof
end

