-- ==== Sys2Proof/WellFormed.lean ====
section
/-! DEFINITION. WellFormed.lean: which command words and which configurations the spec admits. A command itself has no
operand, so every `Instr` is well formed; a bus transaction is legal at every value of its 39 bits (30_encoding.md R81). -/

namespace Sys2Proof

/-- The reserved field of a command word must be 0 (30_encoding.md R82, R84). -/
def CommandWord.rsvdOk (c : CommandWord) : Bool := c.rsvd == 0#24

/-- The opcodes run from 0x01 to 0x0A (30_encoding.md R83, R84). -/
def CommandWord.opcodeOk (c : CommandWord) : Bool := decide (1 ≤ c.opcode.toNat ∧ c.opcode.toNat ≤ 10)

/-- A legal command word: the complement of 30_encoding.md R84's illegal words. -/
def CommandWord.wf (c : CommandWord) : Bool := c.rsvdOk && c.opcodeOk

/-- Every command is well formed: it has no operand to check (30_encoding.md R82). -/
def Instr.wf (_ : Instr) : Bool := true

/-- 2 ≤ W ≤ 32 (00_scope.md R6). -/
def Config.wOk (c : Config) : Bool := decide (2 ≤ c.w ∧ c.w ≤ 32)

/-- 1 ≤ PS_DEPTH ≤ 2^32 − 1 (00_scope.md R6). -/
def Config.depthOk (c : Config) : Bool := decide (1 ≤ c.psDepth ∧ c.psDepth < 2 ^ 32)

/-- The parameters an implementation may have (00_scope.md R6). -/
def Config.wf (c : Config) : Bool := c.wOk && c.depthOk

end Sys2Proof
end

