-- ==== Sys2Proof/Decode.lean ====
section
/-! DEFINITION. Decode.lean: the command decoder and encoder (30_encoding.md R82 to R85), the register map's word indexes
(10_state.md R47, 20_memory.md R70), and the 39-bit form of a bus transaction (30_encoding.md R81). -/

namespace Sys2Proof

/-- Why a word is no command (30_encoding.md R84), one name for each of the three cases. -/
inductive DecodeError where
  /-- `w[31:8] ≠ 0` -/
  | reservedNonzero
  /-- `w[7:0] = 0x00` -/
  | opcodeZero
  /-- `w[7:0] ≥ 0x0B` -/
  | opcodeUnassigned
  deriving DecidableEq, Repr

/-- The fields of a command word (30_encoding.md R82). -/
def commandFields (w : Word) : CommandWord :=
  { rsvd := w.extractLsb' 8 24, opcode := w.extractLsb' 0 8 }

/-- The opcode map (30_encoding.md R83), and the two ways an opcode is unassigned (R84). -/
def decodeOpcode (op : BitVec 8) : Except DecodeError Instr :=
  match op.toNat with
  | 0x00 => .error .opcodeZero
  | 0x01 => .ok .modinv
  | 0x02 => .ok .enum
  | 0x03 => .ok .padd
  | 0x04 => .ok .pdbl
  | 0x05 => .ok .smul
  | 0x06 => .ok .encode
  | 0x07 => .ok .dhss
  | 0x08 => .ok .egenc
  | 0x09 => .ok .pneg
  | 0x0A => .ok .egdec
  | _ => .error .opcodeUnassigned

/-- The decoder: it reads nothing but the word (30_encoding.md R92), and matches the whole word (R83). -/
def decodeCommand (w : Word) : Except DecodeError Instr :=
  if (commandFields w).rsvd = 0#24 then decodeOpcode (commandFields w).opcode
  else .error .reservedNonzero

/-- The opcode of a command (30_encoding.md R83). -/
def Instr.opcode : Instr → BitVec 8
  | .modinv => 0x01#8
  | .enum   => 0x02#8
  | .padd   => 0x03#8
  | .pdbl   => 0x04#8
  | .smul   => 0x05#8
  | .encode => 0x06#8
  | .dhss   => 0x07#8
  | .egenc  => 0x08#8
  | .pneg   => 0x09#8
  | .egdec  => 0x0A#8

/-- The command word of a command: `{rsvd = 0, opcode}` (30_encoding.md R82). -/
def encodeCommand (i : Instr) : Word := 0#24 ++ i.opcode

/-- The decoder on a word of the opcode table: the table's rows have 32 bits, a whole command word. -/
def decodeTableWord (nbits w : Nat) : Option Instr :=
  if w % 2 ^ nbits < 2 ^ 32 then
    match decodeCommand (BitVec.ofNat 32 (w % 2 ^ nbits)) with
    | .ok i => some i
    | .error _ => none
  else none

/-- The word index of a register, its byte offset divided by 4 (10_state.md R47). -/
def RegName.index : RegName → BusAddr
  | .id => 0x00#6 | .capw => 0x01#6 | .capd => 0x02#6
  | .cmd => 0x03#6 | .status => 0x04#6 | .esticky => 0x05#6
  | .p => 0x08#6 | .a => 0x09#6 | .b => 0x0A#6
  | .p1x => 0x0C#6 | .p1y => 0x0D#6 | .p1t => 0x0E#6
  | .p2x => 0x10#6 | .p2y => 0x11#6 | .p2t => 0x12#6
  | .k1 => 0x14#6 | .k2 => 0x15#6 | .msg => 0x16#6 | .opa => 0x17#6
  | .r1x => 0x18#6 | .r1y => 0x19#6 | .r1t => 0x1A#6
  | .r2x => 0x1C#6 | .r2y => 0x1D#6 | .r2t => 0x1E#6
  | .r3x => 0x20#6 | .r3y => 0x21#6 | .r3t => 0x22#6
  | .rm => 0x24#6 | .rh => 0x25#6 | .rj => 0x26#6 | .rs => 0x27#6
  | .pscount => 0x28#6 | .psaddr => 0x29#6 | .psx => 0x2A#6 | .psy => 0x2B#6

/-- The byte offset of a register (10_state.md R47): four times its word index (20_memory.md R61). -/
def RegName.offset (r : RegName) : Nat := 4 * r.index.toNat

/-- The register at a word index, none where the slot is unmapped (10_state.md R47, 20_memory.md R70). -/
def regAt (addr : BusAddr) : Option RegName :=
  match addr.toNat with
  | 0x00 => some .id | 0x01 => some .capw | 0x02 => some .capd
  | 0x03 => some .cmd | 0x04 => some .status | 0x05 => some .esticky
  | 0x08 => some .p | 0x09 => some .a | 0x0A => some .b
  | 0x0C => some .p1x | 0x0D => some .p1y | 0x0E => some .p1t
  | 0x10 => some .p2x | 0x11 => some .p2y | 0x12 => some .p2t
  | 0x14 => some .k1 | 0x15 => some .k2 | 0x16 => some .msg | 0x17 => some .opa
  | 0x18 => some .r1x | 0x19 => some .r1y | 0x1A => some .r1t
  | 0x1C => some .r2x | 0x1D => some .r2y | 0x1E => some .r2t
  | 0x20 => some .r3x | 0x21 => some .r3y | 0x22 => some .r3t
  | 0x24 => some .rm | 0x25 => some .rh | 0x26 => some .rj | 0x27 => some .rs
  | 0x28 => some .pscount | 0x29 => some .psaddr | 0x2A => some .psx | 0x2B => some .psy
  | _ => none

/-- A transaction as one number, `{wr, addr, wdata}` (30_encoding.md R81). -/
def encodeTxn (t : BusTxn) : TxnBits := BitVec.ofBool t.wr ++ t.addr ++ t.wdata

/-- The transaction that a 39-bit number stands for; every value is legal (30_encoding.md R81). -/
def decodeTxn (n : TxnBits) : BusTxn :=
  { wr := n.getLsbD 38, addr := n.extractLsb' 32 6, wdata := n.extractLsb' 0 32 }

end Sys2Proof
end

