-- ==== Sys2Proof/Machine/State.lean ====
section
/-! DEFINITION. Machine/State.lean: the architectural state (10_state.md R21), the reasons a step can stop, the error kinds
and the Point type, and the state after reset (10_state.md R47). -/

namespace Sys2Proof.Machine

/-- The error kinds (60_exceptions.md R185). An error is no stop of the machine: it is recorded in STATUS and ESTICKY. -/
inductive ErrKind where
  | notInvertible | invalidCurve | pointNotOnCurve | messageTooLarge | messageNotEncodable
  /-- Allocated and raised by no command (60_exceptions.md R190). -/
  | invalidScalar
  | illegalCommand | setOverflow | secretMismatch
  deriving DecidableEq, Repr

/-- The type `Point` (00_scope.md R12): the identity, or an affine point. `aff 0 0` and `inf` are different values. -/
inductive Point where
  | inf
  | aff (x y : Nat)
  deriving DecidableEq, Repr

/-- A point in registers: the words `X`, `Y` and the implemented bit of `T` (00_scope.md R12, 10_state.md R33, R38). -/
structure PointReg where
  x : Word
  y : Word
  t : Bool
  deriving DecidableEq, Repr

/-- The three words of a point register at 0 (10_state.md R47; 30_encoding.md R91). -/
def PointReg.zero : PointReg := { x := 0#32, y := 0#32, t := false }

/-- An entry of the point-set memory, a pair `(x, y)` (10_state.md R43). -/
structure PsEntry where
  x : Word
  y : Word
  deriving DecidableEq, Repr

/-- The point-set memory `PS` (10_state.md R43): the entries that have been written, by index, indexes strictly rising.
An index that is not listed holds no value the model knows (DESIGN CHOICE, log entry 2). -/
abbrev PsMem := List (Nat × PsEntry)

/-- The fields of STATUS (10_state.md R29); its reserved bits read 0 and have no field. -/
structure Status where
  done    : Bool
  err     : Bool
  errCode : BitVec 4
  psValid : Bool
  agree   : Bool
  deriving DecidableEq, Repr

/-- STATUS after reset (10_state.md R29). -/
def Status.reset : Status := { done := false, err := false, errCode := 0#4, psValid := false, agree := false }

/-- The state of the block (10_state.md R21, R47), with the model's own three fields: `cfg`, the parameters of the
implementation (read through CAPW and CAPD, never changed: DESIGN CHOICE, log entry 1), and `inbox` and `rdata`, the
host's inputs still to come and the word that the input taken last returned (DESIGN CHOICE, log entry 3). -/
structure State where
  cfg     : Config
  cmd     : Word
  status  : Status
  esticky : Word
  p       : Word
  a       : Word
  b       : Word
  p1      : PointReg
  p2      : PointReg
  k1      : Word
  k2      : Word
  msg     : Word
  opa     : Word
  r1      : PointReg
  r2      : PointReg
  r3      : PointReg
  rm      : Word
  rh      : Word
  rj      : Word
  rs      : Word
  psCount : Word
  psAddr  : Word
  ps      : PsMem
  inbox   : List HostInput
  rdata   : Option Word
  deriving DecidableEq, Repr

/-- Why the machine stops. No command and no transaction raises one. -/
inductive Fault where
  /-- Raised by `takeInput` when the host breaks the bus protocol of 20_memory.md R62 (two transactions at once, or one
  changed before `ready`: 93_implementation_defined.md U19). Safe: the spec gives no effect, and the machine stops. -/
  | busProtocolBreach
  deriving DecidableEq, Repr

/-- Why an instruction has no meaning. -/
inductive Refusal where
  /-- Raised by an arm of `exec` whose instruction has no meaning yet; no arm is left in that state. Safe: the machine
  stops. -/
  | notModelled (mnemonic : String)
  deriving DecidableEq, Repr

/-- The state after reset of an implementation with parameters `c`: every register at the value of 10_state.md R47. PS has
nothing listed (DESIGN CHOICE, log entry 2), no input is pending and no read has completed (DESIGN CHOICE, log entry 3). -/
def State.resetOf (c : Config) : State :=
  { cfg := c, cmd := 0#32, status := Status.reset, esticky := 0#32,
    p := 0#32, a := 0#32, b := 0#32,
    p1 := PointReg.zero, p2 := PointReg.zero,
    k1 := 0#32, k2 := 0#32, msg := 0#32, opa := 0#32,
    r1 := PointReg.zero, r2 := PointReg.zero, r3 := PointReg.zero,
    rm := 0#32, rh := 0#32, rj := 0#32, rs := 0#32,
    psCount := 0#32, psAddr := 0#32, ps := [],
    inbox := [], rdata := none }

/-- The state after reset of the default implementation (00_scope.md R6, 10_state.md R47). -/
def State.reset : State := State.resetOf Config.default

end Sys2Proof.Machine
end

