-- ==== Sys2Proof/Machine/Flags.lean ====
section
/-! DEFINITION. Machine/Flags.lean: the error codes, the assembled STATUS word, what a command does to the flags, and
the sticky error log (10_state.md R29 to R31, 60_exceptions.md R185, R192). -/

namespace Sys2Proof.Machine

/-- The code of an error kind (60_exceptions.md R185). -/
def ErrKind.code : ErrKind → Nat
  | .notInvertible       => 1
  | .invalidCurve        => 2
  | .pointNotOnCurve     => 3
  | .messageTooLarge     => 4
  | .messageNotEncodable => 5
  | .invalidScalar       => 6
  | .illegalCommand      => 8
  | .setOverflow         => 9
  | .secretMismatch      => 10

/-- The word a read of STATUS returns: bit 0 DONE, bit 1 ERR, 3:2 zero, 7:4 ERRCODE, bit 8 PSVALID, bit 9 AGREE,
31:10 zero (10_state.md R29). -/
def Status.toWord (st : Status) : Word :=
  0#22 ++ BitVec.ofBool st.agree ++ BitVec.ofBool st.psValid ++ st.errCode ++ 0#2 ++ BitVec.ofBool st.err
    ++ BitVec.ofBool st.done

/-- What `Clear` does to STATUS: DONE, ERR, ERRCODE and AGREE to 0, PSVALID untouched (30_encoding.md R91,
10_state.md R30). -/
def Status.clear (st : Status) : Status :=
  { st with done := false, err := false, errCode := 0#4, agree := false }

/-- What `raise` does to STATUS: ERR to 1, ERRCODE to the code (60_exceptions.md R192). -/
def Status.raise (e : ErrKind) (st : Status) : Status :=
  { st with err := true, errCode := BitVec.ofNat 4 e.code }

/-- What `Complete` does to STATUS: DONE to 1, and AGREE to what the body says (30_encoding.md R95). -/
def Status.complete (agree : Bool) (st : Status) : Status :=
  { st with done := true, agree := agree }

/-- The implemented bits of ESTICKY, 1 to 6 and 8 to 10 (10_state.md R31). -/
def stickyMask : Word := 0x0000077E#32

/-- The bit of ESTICKY that an error kind sets (60_exceptions.md R192). -/
def ErrKind.stickyBit (e : ErrKind) : Word := 1#32 <<< e.code

/-- `reg[ESTICKY][c] <- 1` (60_exceptions.md R192). -/
def stickySet (e : ErrKind) (log : Word) : Word := log ||| e.stickyBit

/-- A host write to ESTICKY: each implemented bit `i` with `w[i] = 1` becomes 0, the others stay (10_state.md R31). -/
def stickyWrite (w log : Word) : Word := log &&& ~~~(w &&& stickyMask)

/-- A host read of ESTICKY: the stored bits, the others 0 (10_state.md R23, R31). -/
def stickyRead (log : Word) : Word := log &&& stickyMask

end Sys2Proof.Machine
end

