-- ==== Sys2Proof/Machine/Operands.lean ====
section
/-! DEFINITION. Machine/Operands.lean: how a written word is kept by class, and how points are read from and written to
registers (10_state.md R23, 00_scope.md R9, R12). -/

namespace Sys2Proof.Machine

/-- `w[W−1:0]`, zero-extended: what a coordinate-class register stores (10_state.md R23). -/
def keepLow (w : Nat) (v : Word) : Word := BitVec.ofNat 32 (v.toNat % 2 ^ w)

/-- `w[0]`: what a tag-class register stores (10_state.md R23). -/
def keepTag (v : Word) : Bool := v.getLsbD 0

/-- A stored tag bit, zero-extended to a word (10_state.md R23). -/
def tagWord (t : Bool) : Word := BitVec.zeroExtend 32 (BitVec.ofBool t)

/-- `n mod p`, the floor modulo of 00_scope.md R9, for `p ≥ 1`. -/
def floorMod (n : Int) (p : Nat) : Nat := (n % (p : Int)).toNat

/-- A natural number in a register; every value written fits (00_scope.md R8, 10_state.md R39). -/
def regWord (n : Nat) : Word := BitVec.ofNat 32 n

/-- `rdpoint` (00_scope.md R12): the identity when the tag is 1, else both coordinates reduced modulo `p`. -/
def rdpoint (r : PointReg) (p : Nat) : Point :=
  if r.t then .inf else .aff (r.x.toNat % p) (r.y.toNat % p)

/-- `wrpoint` (00_scope.md R12): the identity is written as (0, 0, 1), an affine point as (x, y, 0). -/
def wrpoint : Point → PointReg
  | .inf     => { x := 0#32, y := 0#32, t := true }
  | .aff x y => { x := regWord x, y := regWord y, t := false }

/-- The class of each register (10_state.md R23, R47). -/
def regClass : RegName → RegClass
  | .p | .a | .b | .p1x | .p1y | .p2x | .p2y => .coordinate
  | .p1t | .p2t => .tag
  | .k1 | .k2 | .msg | .opa | .psaddr => .word
  | .cmd => .command
  | .esticky => .sticky
  | .id | .capw | .capd | .status | .r1x | .r1y | .r1t | .r2x | .r2y | .r2t | .r3x | .r3y | .r3t
  | .rm | .rh | .rj | .rs | .pscount | .psx | .psy => .readOnly

end Sys2Proof.Machine
end

