-- ==== Sys2Proof/Machine/Ops.lean ====
section
/-! DEFINITION. Machine/Ops.lean: the named operations over memory and registers: the point-set memory, bus reads and
writes of registers, and the command frame with `Clear`, `raise` and `Complete`. -/

namespace Sys2Proof.Machine

/-! ### The point-set memory (10_state.md R43) -/

/-- `MemRead(PS, i)` (00_scope.md R8); none where entry `i` has not been written (DESIGN CHOICE, log
entry 2). -/
def psRead : PsMem → Nat → Option PsEntry
  | [], _ => none
  | (j, f) :: rest, i => if i = j then some f else psRead rest i

/-- `MemWrite(PS, i, e)` (00_scope.md R8), keeping the indexes rising. -/
def psWrite : PsMem → Nat → PsEntry → PsMem
  | [], i, e => [(i, e)]
  | (j, f) :: rest, i, e =>
    if i < j then (i, e) :: (j, f) :: rest
    else if i = j then (i, e) :: rest
    else (j, f) :: psWrite rest i e

/-- Every index of the list is at least `lo` and below `depth`, and the indexes rise strictly. -/
def psRising (depth : Nat) : Nat → PsMem → Bool
  | _, [] => true
  | lo, (j, _) :: rest => decide (lo ≤ j ∧ j < depth) && psRising depth (j + 1) rest

/-- The canonical form of the point-set memory: indexes strictly rising, and below PS_DEPTH (10_state.md R43). -/
def psWf (depth : Nat) (m : PsMem) : Bool := psRising depth 0 m

/-! ### Bus reads and writes of the registers -/

/-- The constant of ID, the ASCII bytes "ECDH" (10_state.md R25). -/
def idWord : Word := 0x45434448#32

/-- What the window shows: entry PSADDR while the point set is valid and PSADDR < PSCOUNT, else nothing
(10_state.md R41). -/
def windowEntry (s : State) : Option PsEntry :=
  if s.status.psValid = true ∧ s.psAddr.toNat < s.psCount.toNat then psRead s.ps s.psAddr.toNat else none

/-- The value of a register as a host read returns it (20_memory.md R63, 10_state.md R23). -/
def regRead (s : State) : RegName → Word
  | .id      => idWord
  | .capw    => regWord s.cfg.w
  | .capd    => regWord s.cfg.psDepth
  | .cmd     => s.cmd
  | .status  => s.status.toWord
  | .esticky => stickyRead s.esticky
  | .p       => s.p
  | .a       => s.a
  | .b       => s.b
  | .p1x     => s.p1.x
  | .p1y     => s.p1.y
  | .p1t     => tagWord s.p1.t
  | .p2x     => s.p2.x
  | .p2y     => s.p2.y
  | .p2t     => tagWord s.p2.t
  | .k1      => s.k1
  | .k2      => s.k2
  | .msg     => s.msg
  | .opa     => s.opa
  | .r1x     => s.r1.x
  | .r1y     => s.r1.y
  | .r1t     => tagWord s.r1.t
  | .r2x     => s.r2.x
  | .r2y     => s.r2.y
  | .r2t     => tagWord s.r2.t
  | .r3x     => s.r3.x
  | .r3y     => s.r3.y
  | .r3t     => tagWord s.r3.t
  | .rm      => s.rm
  | .rh      => s.rh
  | .rj      => s.rj
  | .rs      => s.rs
  | .pscount => s.psCount
  | .psaddr  => s.psAddr
  | .psx     => match windowEntry s with
    | some e => e.x
    | none   => 0#32
  | .psy     => match windowEntry s with
    | some e => e.y
    | none   => 0#32

/-- `BusRead(off)` (20_memory.md R63): an unmapped slot reads 0 (R70). -/
def busRead (s : State) (addr : BusAddr) : Word :=
  match regAt addr with
  | some r => regRead s r
  | none   => 0#32

/-- `STATUS.PSVALID <- 0 ; reg[PSCOUNT] <- 0` (10_state.md R32). -/
def dropMemo (s : State) : State :=
  { s with status := { s.status with psValid := false }, psCount := 0#32 }

/-- What a host write does to a register's own bits, by its class, with the memo dropped for P, A and B (20_memory.md R64,
10_state.md R23, R32). A write to a read-only register does nothing. For CMD this is the store alone: the command frame
that follows is run by `commandWrite`. -/
def regWrite (r : RegName) (w : Word) (s : State) : State :=
  match r with
  | .p => dropMemo { s with p := keepLow s.cfg.w w }
  | .a => dropMemo { s with a := keepLow s.cfg.w w }
  | .b => dropMemo { s with b := keepLow s.cfg.w w }
  | .p1x => { s with p1 := { s.p1 with x := keepLow s.cfg.w w } }
  | .p1y => { s with p1 := { s.p1 with y := keepLow s.cfg.w w } }
  | .p1t => { s with p1 := { s.p1 with t := keepTag w } }
  | .p2x => { s with p2 := { s.p2 with x := keepLow s.cfg.w w } }
  | .p2y => { s with p2 := { s.p2 with y := keepLow s.cfg.w w } }
  | .p2t => { s with p2 := { s.p2 with t := keepTag w } }
  | .k1 => { s with k1 := w }
  | .k2 => { s with k2 := w }
  | .msg => { s with msg := w }
  | .opa => { s with opa := w }
  | .psaddr => { s with psAddr := w }
  | .cmd => { s with cmd := w }
  | .esticky => { s with esticky := stickyWrite w s.esticky }
  | .id | .capw | .capd | .status | .r1x | .r1y | .r1t | .r2x | .r2y | .r2t | .r3x | .r3y | .r3t
  | .rm | .rh | .rj | .rs | .pscount | .psx | .psy => s

/-! ### The command frame (30_encoding.md R90) -/

/-- What a body hands to `Complete`: the values of the result registers it names, and AGREE. A register that the body does
not name stays 0, as `Clear` left it (10_state.md R38, R39). -/
structure Results where
  r1    : PointReg := PointReg.zero
  r2    : PointReg := PointReg.zero
  r3    : PointReg := PointReg.zero
  rm    : Word := 0#32
  rh    : Word := 0#32
  rj    : Word := 0#32
  rs    : Word := 0#32
  agree : Bool := false
  deriving DecidableEq, Repr

/-- `Clear()` (30_encoding.md R91). -/
def clear (s : State) : State :=
  { s with
    status := s.status.clear
    r1 := PointReg.zero, r2 := PointReg.zero, r3 := PointReg.zero
    rm := 0#32, rh := 0#32, rj := 0#32, rs := 0#32 }

/-- `raise E` (60_exceptions.md R192): the one way a command takes an error. Nothing is saved and nothing is vectored: the
CMD write completes and the host's next transaction is whatever the host chooses. -/
def raise (e : ErrKind) (s : State) : State :=
  { s with status := s.status.raise e, esticky := stickySet e s.esticky }

/-- `Complete()` (30_encoding.md R95). -/
def complete (r : Results) (s : State) : State :=
  { s with
    status := s.status.complete r.agree
    r1 := r.r1, r2 := r.r2, r3 := r.r3
    rm := r.rm, rh := r.rh, rj := r.rj, rs := r.rs }

/-- The first two lines of the frame: `reg[CMD] <- w ; Clear()` (30_encoding.md R90). -/
def beginCommand (w : Word) (s : State) : State := clear { s with cmd := w }

/-- A command's body: it works on the state that `Clear` left; it may change the point-set memory with PSCOUNT and PSVALID,
and it ends with results or with an error (30_encoding.md R90). -/
abbrev Body := State → State × Except ErrKind Results

/-- The end of the frame: `Complete()` on results, `raise` on an error (30_encoding.md R90). -/
def finishCommand : State × Except ErrKind Results → State
  | (s, .ok r)    => complete r s
  | (s, .error e) => raise e s

/-- The frame of a legal command after its decode step: the modulus test of 30_encoding.md R93, then the body, then the
end (R90). -/
def commandFrame (w : Word) (body : Body) (s : State) : State :=
  if s.p.toNat < 2 then raise .invalidCurve (beginCommand w s)
  else finishCommand (body (beginCommand w s))

/-- A legal command: its whole effect, from the write of its word to CMD to the end of the frame, is one change of the state
(20_memory.md R62). -/
def runCommand (i : Instr) (body : Body) (s : State) : Host.Outcome State Fault Refusal :=
  .next (commandFrame (encodeCommand i) body s)

/-- An illegal word: the frame up to its decode step, which raises `IllegalCommand` even when P < 2
(30_encoding.md R84, R92). -/
def illegalCommand (w : Word) (s : State) : State := raise .illegalCommand (beginCommand w s)

/-- A body that reads operand registers alone and leaves the point-set memory as it is. -/
def pureBody (f : State → Except ErrKind Results) : Body := fun s => (s, f s)

/-- The results of a command that defines R1 alone. -/
def resultPoint (pt : Point) : Results := { r1 := wrpoint pt }

end Sys2Proof.Machine
end

