-- ==== Sys2Proof/Machine/Field.lean ====
section
/-! DEFINITION. Machine/Field.lean: field arithmetic, `MODINV` (40_field_arithmetic.md). -/

namespace Sys2Proof.Machine

/-- The loop of the extended Euclidean algorithm (40_field_arithmetic.md R101), stopped by `r1 = 0`. The first argument only
bounds the recursion: `r1` strictly decreases, so any bound of at least `r1` is enough (70_reset_and_hazards.md R220; DEDUCED,
log entry 9). -/
def euclid : Nat → Nat → Nat → Int → Int → Nat × Int
  | 0, r0, _, t0, _ => (r0, t0)
  | fuel + 1, r0, r1, t0, t1 =>
    if r1 = 0 then (r0, t0)
    else
      let q := r0 / r1
      euclid fuel r1 (r0 - q * r1) t1 (t0 - (q : Int) * t1)

/-- `inv(a, p)` for `p ≥ 2` (40_field_arithmetic.md R100, R101): the operand is reduced first, and the coefficient at the
exit is brought into [0, p) by the floor modulo (R103). -/
def inv (a p : Nat) : Except ErrKind Nat :=
  let (r0, t0) := euclid p p (a % p) 0 1
  if r0 = 1 then .ok (floorMod t0 p) else .error .notInvertible

/-- The body of `MODINV` (40_field_arithmetic.md R102). -/
def modinvBody (s : State) : Except ErrKind Results := do
  let x ← inv s.opa.toNat s.p.toNat
  return { rs := regWord x }

/-- `MODINV` (40_field_arithmetic.md R102). -/
def execModinv (s : State) : Host.Outcome State Fault Refusal :=
  runCommand .modinv (pureBody modinvBody) s

end Sys2Proof.Machine
end

