-- ==== Sys2Proof/Machine/PointSet.lean ====
section
/-! DEFINITION. Machine/PointSet.lean: point enumeration and the point-set memo, `ENUM` (41_point_enumerator.md). -/

namespace Sys2Proof.Machine

/-- The curve residue `f(x) = (x³ + a·x + b) mod p` (41_point_enumerator.md R110). -/
def curveResidue (a b p x : Nat) : Nat := (x * x * x + a * x + b) % p

/-- The test of the scan: `y² mod p = f(x)` (41_point_enumerator.md R110, R111). -/
def onCurveTest (a b p x y : Nat) : Bool := y * y % p == curveResidue a b p x

/-- `enum(a, b, p)` (41_point_enumerator.md R111): x ascending, and for equal x, y ascending. -/
def enumPoints (a b p : Nat) : List (Nat × Nat) :=
  (List.range p).flatMap fun x => ((List.range p).filter fun y => onCurveTest a b p x y).map fun y => (x, y)

/-- An entry holding a pair of coordinates (10_state.md R43). -/
def psEntry (pt : Nat × Nat) : PsEntry := { x := regWord pt.1, y := regWord pt.2 }

/-- The inner step of `enumerate` on the points the scan meets, in order, from counter `n`: `SetOverflow` when the memory is
full, else the entry is written and the counter advances (41_point_enumerator.md R112). It answers the memory and either
the final counter or the error. -/
def storePoints (depth : Nat) : List (Nat × Nat) → Nat → PsMem → PsMem × Except ErrKind Nat
  | [], n, m => (m, .ok n)
  | pt :: rest, n, m =>
    if n = depth then (m, .error .setOverflow)
    else storePoints depth rest (n + 1) (psWrite m n (psEntry pt))

/-- `reg[PSCOUNT] <- n ; STATUS.PSVALID <- 1` (41_point_enumerator.md R112). -/
def validateMemo (n : Nat) (s : State) : State :=
  { s with status := { s.status with psValid := true }, psCount := regWord n }

/-- `enumerate()` (41_point_enumerator.md R112). When it raises, PS keeps what was written before (DEDUCED, log entry 4). -/
def enumerate (s : State) : State × Except ErrKind Unit :=
  let s0 := dropMemo s
  match storePoints s.cfg.psDepth (enumPoints s.a.toNat s.b.toNat s.p.toNat) 0 s.ps with
  | (m, .error e) => ({ s0 with ps := m }, .error e)
  | (m, .ok n) =>
    if n = 0 then ({ s0 with ps := m }, .error .invalidCurve)
    else (validateMemo n { s0 with ps := m }, .ok ())

/-- `ensurePS()` (41_point_enumerator.md R114). -/
def ensurePS (s : State) : State × Except ErrKind Unit :=
  if s.status.psValid then (s, .ok ()) else enumerate s

/-- `inPS(x, y)` (41_point_enumerator.md R115). -/
def inPS (s : State) (x y : Nat) : Bool :=
  (List.range s.psCount.toNat).any fun i =>
    match psRead s.ps i with
    | some e => e.x.toNat == x && e.y.toNat == y
    | none   => false

/-- `firstWithX(x)`: the entry with the least index whose first component is `x` (41_point_enumerator.md R115). -/
def firstWithX (s : State) (x : Nat) : Option PsEntry :=
  (List.range s.psCount.toNat).findSome? fun i =>
    match psRead s.ps i with
    | some e => if e.x.toNat = x then some e else none
    | none   => none

/-- The body of `ENUM` (41_point_enumerator.md R113): `enumerate()`, then `Complete` with no result register. -/
def enumBody : Body := fun s =>
  match enumerate s with
  | (s', .error e) => (s', .error e)
  | (s', .ok _)    => (s', .ok {})

/-- `ENUM` (41_point_enumerator.md R113). -/
def execEnum (s : State) : Host.Outcome State Fault Refusal :=
  runCommand .enum enumBody s

end Sys2Proof.Machine
end

