-- ==== Sys2Proof/Machine/Group.lean ====
section
/-! DEFINITION. Machine/Group.lean: the point group, `PNEG`, `PADD`, `PDBL`, `SMUL` (42_point_group.md). -/

namespace Sys2Proof.Machine

/-- `pneg(P, p)` (42_point_group.md R120). -/
def pneg (P : Point) (p : Nat) : Point :=
  match P with
  | .inf     => .inf
  | .aff x y => .aff x ((p - y) % p)

/-- The result of the slope `λ` (42_point_group.md R123): `x3 = (λ² − x1 − x2) mod p`, `y3 = (λ(x1 − x3) − y1) mod p`. -/
def slopeResult (lam x1 y1 x2 p : Nat) : Point :=
  let x3 := floorMod ((lam : Int) * lam - x1 - x2) p
  .aff x3 (floorMod ((lam : Int) * ((x1 : Int) - x3) - y1) p)

/-- `padd(P, Q, a, p)` (42_point_group.md R122, R123): the first case whose condition holds decides. -/
def padd (P Q : Point) (a p : Nat) : Except ErrKind Point :=
  match P, Q with
  | .inf, Q => .ok Q
  | P, .inf => .ok P
  | .aff x1 y1, .aff x2 y2 =>
    if x1 = x2 ∧ (y1 + y2) % p = 0 then .ok .inf
    else
      let d   := if x1 = x2 ∧ y1 = y2 then 2 * y1 % p else floorMod ((x2 : Int) - x1) p
      let num := if x1 = x2 ∧ y1 = y2 then (3 * x1 * x1 + a) % p else floorMod ((y2 : Int) - y1) p
      do
        let di ← inv d p
        return slopeResult (num * di % p) x1 y1 x2 p

/-- `pdbl(P, a, p)` (42_point_group.md R124), as it unfolds there: a vertical tangent gives the identity. -/
def pdbl (P : Point) (a p : Nat) : Except ErrKind Point :=
  match P with
  | .inf => .ok .inf
  | .aff x1 y1 =>
    if 2 * y1 % p = 0 then .ok .inf
    else do
      let di ← inv (2 * y1 % p) p
      return slopeResult ((3 * x1 * x1 + a) % p * di % p) x1 y1 x1 p

/-- `if n mod 2 = 1 then R <- padd(R, Q, a, p)`, the first line of the loop (42_point_group.md R127). -/
def addIfOdd (n : Nat) (R Q : Point) (a p : Nat) : Except ErrKind Point :=
  if n % 2 = 1 then padd R Q a p else .ok R

/-- The loop of `smul` (42_point_group.md R127) on the remaining scalar `n`, the accumulator `R` and the running multiple
`Q`. The first argument only bounds the recursion: `n` is halved at each turn (DEDUCED, log entry 9). -/
def smulLoop (a p : Nat) : Nat → Nat → Point → Point → Except ErrKind Point
  | 0, _, R, _ => .ok R
  | fuel + 1, n, R, Q => do
    let R ← addIfOdd n R Q a p
    if n / 2 = 0 then return R
    else
      let Q ← pdbl Q a p
      smulLoop a p fuel (n / 2) R Q

/-- `smul(P, k, a, p)` (42_point_group.md R127): double-and-add from the least significant bit, with no doubling after the
last bit. -/
def smul (P : Point) (k a p : Nat) : Except ErrKind Point :=
  if k = 0 ∨ P = .inf then .ok .inf else smulLoop a p k k .inf P

/-- The body of `PNEG` (42_point_group.md R121). -/
def pnegBody (s : State) : Except ErrKind Results :=
  .ok (resultPoint (pneg (rdpoint s.p1 s.p.toNat) s.p.toNat))

/-- The body of `PADD` (42_point_group.md R125). -/
def paddBody (s : State) : Except ErrKind Results := do
  let S ← padd (rdpoint s.p1 s.p.toNat) (rdpoint s.p2 s.p.toNat) s.a.toNat s.p.toNat
  return resultPoint S

/-- The body of `PDBL` (42_point_group.md R126). -/
def pdblBody (s : State) : Except ErrKind Results := do
  let S ← pdbl (rdpoint s.p1 s.p.toNat) s.a.toNat s.p.toNat
  return resultPoint S

/-- The body of `SMUL` (42_point_group.md R128). -/
def smulBody (s : State) : Except ErrKind Results := do
  let S ← smul (rdpoint s.p1 s.p.toNat) s.k1.toNat s.a.toNat s.p.toNat
  return resultPoint S

/-- `PNEG` (42_point_group.md R121). -/
def execPneg (s : State) : Host.Outcome State Fault Refusal := runCommand .pneg (pureBody pnegBody) s

/-- `PADD` (42_point_group.md R125). -/
def execPadd (s : State) : Host.Outcome State Fault Refusal := runCommand .padd (pureBody paddBody) s

/-- `PDBL` (42_point_group.md R126). -/
def execPdbl (s : State) : Host.Outcome State Fault Refusal := runCommand .pdbl (pureBody pdblBody) s

/-- `SMUL` (42_point_group.md R128). -/
def execSmul (s : State) : Host.Outcome State Fault Refusal := runCommand .smul (pureBody smulBody) s

end Sys2Proof.Machine
end

