-- ==== Sys2Proof/Machine/Codec.lean ====
section
/-! DEFINITION. Machine/Codec.lean: the message codec, `ENCODE` (43_message_codec.md). -/

namespace Sys2Proof.Machine

/-- Doubling from `v` until `m` is reached. The first argument only bounds the recursion: `m` doublings of 1 reach
`m` (DEDUCED, log entry 9). -/
def doubleUntil (m : Nat) : Nat → Nat → Nat
  | 0, v => v
  | fuel + 1, v => if m ≤ v then v else doubleUntil m fuel (2 * v)

/-- `npo2(m)`: the least power of two that is at least `m`, and 1 for `m = 0` (43_message_codec.md R150). -/
def npo2 (m : Nat) : Nat := doubleUntil m m 1

/-- The search of 43_message_codec.md R153, `left` candidates from offset `j` on: the first `x = (m·h + j) mod p` that
carries a point wins, with its entry of smallest `y`. -/
def ksearchFrom (s : State) (m h p : Nat) : Nat → Nat → Except ErrKind (PsEntry × Nat)
  | 0, _ => .error .messageNotEncodable
  | left + 1, j =>
    match firstWithX s ((m * h + j) % p) with
    | some e => .ok (e, j)
    | none   => ksearchFrom s m h p left (j + 1)

/-- `ksearch(m, h, p)`: at most `h` candidates (43_message_codec.md R153). -/
def ksearch (s : State) (m h p : Nat) : Except ErrKind (PsEntry × Nat) := ksearchFrom s m h p h 0

/-- An encoded message: the point `Qm` and the integers `M`, `h` and `j` (43_message_codec.md R154). -/
structure Encoded where
  qm  : Point
  cap : Nat
  h   : Nat
  j   : Nat
  deriving DecidableEq, Repr

/-- The encoding that `ENCODE` and `EGENC` share (43_message_codec.md R154, 44_key_agreement_cipher.md R168): the size test
before any enumeration, then `ensurePS`, then the search. -/
def encodeMessage (s : State) : State × Except ErrKind Encoded :=
  let m   := s.msg.toNat
  let p   := s.p.toNat
  let cap := npo2 m
  if p < cap then (s, .error .messageTooLarge)
  else
    let h := p / cap
    match ensurePS s with
    | (s', .error e) => (s', .error e)
    | (s', .ok _) =>
      match ksearch s' m h p with
      | .error e    => (s', .error e)
      | .ok (pt, j) => (s', .ok { qm := .aff pt.x.toNat pt.y.toNat, cap := cap, h := h, j := j })

/-- The results of `ENCODE` (43_message_codec.md R154). -/
def encodeResults (en : Encoded) : Results :=
  { r1 := wrpoint en.qm, rm := regWord en.cap, rh := regWord en.h, rj := regWord en.j }

/-- The body of `ENCODE` (43_message_codec.md R154). -/
def encodeBody : Body := fun s =>
  match encodeMessage s with
  | (s', .error e) => (s', .error e)
  | (s', .ok en)   => (s', .ok (encodeResults en))

/-- `ENCODE` (43_message_codec.md R154). -/
def execEncode (s : State) : Host.Outcome State Fault Refusal := runCommand .encode encodeBody s

end Sys2Proof.Machine
end

