-- ==== Sys2Proof/Machine/Cipher.lean ====
section
/-! DEFINITION. Machine/Cipher.lean: key agreement and cipher, `DHSS`, `EGENC`, `EGDEC` (44_key_agreement_cipher.md). -/

namespace Sys2Proof.Machine

/-- `checkBase(G)` (44_key_agreement_cipher.md R167): the identity, and an affine point that is no entry of the point set,
raise `PointNotOnCurve`. -/
def checkBase (s : State) (G : Point) : Except ErrKind Unit :=
  match G with
  | .inf     => .error .pointNotOnCurve
  | .aff x y => if inPS s x y then .ok () else .error .pointNotOnCurve

/-- What `dh` returns (44_key_agreement_cipher.md R165): both derivations of the secret and both public points. -/
structure Agreement where
  s1  : Point
  s2  : Point
  dAG : Point
  dBG : Point
  deriving DecidableEq, Repr

/-- `dh(G, dA, dB, a, p)`: the four multiplications, in this order (44_key_agreement_cipher.md R165). -/
def dh (G : Point) (dA dB a p : Nat) : Except ErrKind Agreement := do
  let dAG ← smul G dA a p
  let dBG ← smul G dB a p
  let s1  ← smul dBG dA a p
  let s2  ← smul dAG dB a p
  return { s1 := s1, s2 := s2, dAG := dAG, dBG := dBG }

/-- `DHSS` once the point set is valid (44_key_agreement_cipher.md R166). -/
def dhssOnSet (s : State) : Except ErrKind Results := do
  let G := rdpoint s.p1 s.p.toNat
  checkBase s G
  let ag ← dh G s.k1.toNat s.k2.toNat s.a.toNat s.p.toNat
  if ag.s1 = ag.s2 then
    return { r1 := wrpoint ag.s1, r2 := wrpoint ag.dAG, r3 := wrpoint ag.dBG, agree := true }
  else throw .secretMismatch

/-- The body of `DHSS` (44_key_agreement_cipher.md R166). -/
def dhssBody : Body := fun s =>
  match ensurePS s with
  | (s', .error e) => (s', .error e)
  | (s', .ok _)    => (s', dhssOnSet s')

/-- `EGENC` once the message is encoded (44_key_agreement_cipher.md R168). -/
def egencOnSet (s : State) (en : Encoded) : Except ErrKind Results := do
  let a := s.a.toNat
  let p := s.p.toNat
  let G := rdpoint s.p1 p
  checkBase s G
  let dBG    ← smul G s.k2.toNat a p
  let shared ← smul dBG s.k1.toNat a p
  let c1     ← padd en.qm shared a p
  let dAG    ← smul G s.k1.toNat a p
  return { r1 := wrpoint c1, r2 := wrpoint dAG, r3 := wrpoint en.qm,
           rm := regWord en.cap, rh := regWord en.h, rj := regWord en.j }

/-- The body of `EGENC` (44_key_agreement_cipher.md R168). -/
def egencBody : Body := fun s =>
  match encodeMessage s with
  | (s', .error e) => (s', .error e)
  | (s', .ok en)   => (s', egencOnSet s' en)

/-- The body of `EGDEC` (44_key_agreement_cipher.md R169). -/
def egdecBody (s : State) : Except ErrKind Results := do
  let a := s.a.toNat
  let p := s.p.toNat
  let shared ← smul (rdpoint s.p2 p) s.k2.toNat a p
  let qm ← padd (rdpoint s.p1 p) (pneg shared p) a p
  return resultPoint qm

/-- `DHSS` (44_key_agreement_cipher.md R166). -/
def execDhss (s : State) : Host.Outcome State Fault Refusal := runCommand .dhss dhssBody s

/-- `EGENC` (44_key_agreement_cipher.md R168). -/
def execEgenc (s : State) : Host.Outcome State Fault Refusal := runCommand .egenc egencBody s

/-- `EGDEC` (44_key_agreement_cipher.md R169). -/
def execEgdec (s : State) : Host.Outcome State Fault Refusal := runCommand .egdec (pureBody egdecBody) s

end Sys2Proof.Machine
end

