-- ==== Sys2Proof/Machine/Dispatch.lean ====
section
/-! DEFINITION. Machine/Dispatch.lean: the meaning of each command, one arm a command. -/

namespace Sys2Proof.Machine

/-- The whole effect of writing a command's word to CMD (30_encoding.md R90). -/
def exec (i : Instr) (s : State) : Host.Outcome State Fault Refusal :=
  match i with
  | .modinv => Sys2Proof.Machine.execModinv s
  | .enum => Sys2Proof.Machine.execEnum s
  | .padd => Sys2Proof.Machine.execPadd s
  | .pdbl => Sys2Proof.Machine.execPdbl s
  | .smul => Sys2Proof.Machine.execSmul s
  | .encode => Sys2Proof.Machine.execEncode s
  | .dhss => Sys2Proof.Machine.execDhss s
  | .egenc => Sys2Proof.Machine.execEgenc s
  | .pneg => Sys2Proof.Machine.execPneg s
  | .egdec => Sys2Proof.Machine.execEgdec s

end Sys2Proof.Machine
end

