-- ==== Sys2Proof/Machine/Transact.lean ====
section
/-! DEFINITION. Machine/Transact.lean: one input of the host: a bus transaction, or reset (20_memory.md R62 to R64,
70_reset_and_hazards.md R210). -/

namespace Sys2Proof.Machine

/-- A write to CMD: a legal word runs its command, any other word raises `IllegalCommand` (30_encoding.md R84, R90, R92). -/
def commandWrite (w : Word) (s : State) : Host.Outcome State Fault Refusal :=
  match decodeCommand w with
  | .ok i    => exec i s
  | .error _ => .next (illegalCommand w s)

/-- `BusWrite(off, w)` (20_memory.md R64): a write to an unmapped slot completes and is ignored (R70). -/
def busWrite (addr : BusAddr) (w : Word) (s : State) : Host.Outcome State Fault Refusal :=
  match regAt addr with
  | some .cmd => commandWrite w s
  | some r    => .next (regWrite r w s)
  | none      => .next s

/-- Reset (70_reset_and_hazards.md R210, R211): every register at its reset value; the constants and the content of PS are
not reset (10_state.md R27, R43). The host's later inputs are the host's own (DESIGN CHOICE, log entry 5). -/
def applyReset (s : State) : State :=
  { State.resetOf s.cfg with ps := s.ps, inbox := s.inbox }

/-- One transaction on the state (20_memory.md R62): a read returns its word and changes no register (R63); a write returns
no word. -/
def transact (t : BusTxn) (s : State) : Host.Outcome State Fault Refusal :=
  if t.wr then busWrite t.addr t.wdata { s with rdata := none }
  else .next { s with rdata := some (busRead s t.addr) }

/-- One input of the host on the state. A breach of the bus protocol has no effect in the spec: the machine stops (DESIGN
CHOICE, log entry 6). -/
def takeInput (input : HostInput) (s : State) : Host.Outcome State Fault Refusal :=
  match input with
  | .txn t          => transact t s
  | .reset          => .next (applyReset s)
  | .protocolBreach => .fault .busProtocolBreach

/-- The block takes the oldest input that the host presents; with none it is idle and keeps all state
(60_exceptions.md R199, 10_state.md R20). -/
def stepInput (s : State) : Host.Outcome State Fault Refusal :=
  match s.inbox with
  | []            => .next s
  | input :: rest => takeInput input { s with inbox := rest }

/-- The host's transaction that issues a command word: a write to CMD (30_encoding.md R96). -/
def commandTxn (w : Word) : BusTxn := { wr := true, addr := RegName.cmd.index, wdata := w }

/-- The next input of the host is `input`. -/
def presentInput (input : HostInput) (s : State) : State := { s with inbox := input :: s.inbox }

end Sys2Proof.Machine
end

