-- ==== Sys2Proof/Machine/Step.lean ====
section
/-! DEFINITION. Machine/Step.lean: one step of the machine, and how a command word is placed for the next step. -/

namespace Sys2Proof.Machine

/-- One step: the block takes one input of the host (10_state.md R20), a transaction as a whole (DESIGN CHOICE, log
entry 8). -/
def step (s : State) : Host.Outcome State Fault Refusal := stepInput s

/-- `s` with the command word `w` as the host's next transaction, a write to CMD (DESIGN CHOICE, log entry 3: the block
stores no program, and the order of commands is the order of the host's writes, 10_state.md R24). -/
def State.withFetchWord (s : State) (nbits w : Nat) : State :=
  presentInput (.txn (commandTxn (BitVec.ofNat 32 (w % 2 ^ nbits)))) s

end Sys2Proof.Machine
end

