-- ==== Sys2Proof/Machine/Script.lean ====
section
/-! DEFINITION. Machine/Script.lean: the script notation and its pseudo-instructions as lists of bus transactions
(30_encoding.md R96, R97), as data and not as text (DESIGN CHOICE, log entry 10). -/

namespace Sys2Proof.Machine

/-- The transaction of a script line (30_encoding.md R96). -/
def scriptTxn : ScriptLine → BusTxn
  | .wr name value  => { wr := true, addr := name.index, wdata := value }
  | .rd name        => { wr := false, addr := name.index, wdata := 0#32 }
  | .cmd i          => commandTxn (encodeCommand i)
  | .cmdWord number => commandTxn number

/-- The lines a pseudo-instruction expands to (30_encoding.md R97). -/
def expandPseudo : PseudoInstr → List ScriptLine
  | .curve a b p => [.wr .a a, .wr .b b, .wr .p p]
  | .ldp1 x y    => [.wr .p1x x, .wr .p1y y, .wr .p1t 0#32]
  | .ldp1Inf     => [.wr .p1t 1#32]
  | .ldp2 x y    => [.wr .p2x x, .wr .p2y y, .wr .p2t 0#32]
  | .ldp2Inf     => [.wr .p2t 1#32]
  | .keys dA dB  => [.wr .k1 dA, .wr .k2 dB]
  | .rdr .r1     => [.rd .r1x, .rd .r1y, .rd .r1t]
  | .rdr .r2     => [.rd .r2x, .rd .r2y, .rd .r2t]
  | .rdr .r3     => [.rd .r3x, .rd .r3y, .rd .r3t]
  | .clrerr      => [.wr .esticky 0xFFFFFFFF#32]

/-- The lines of a script as the host's inputs, in order: lines execute top to bottom (30_encoding.md R96). -/
def scriptInputs (lines : List ScriptLine) : List HostInput := lines.map fun l => .txn (scriptTxn l)

end Sys2Proof.Machine
end

