-- ==== Sys2Proof/Safety.lean ====
section
/-! DEFINITION. Safety.lean: the terms in which claims are stated: the curve, the on-contract premises (42_point_group.md
R130), the two ends of a command as explicit states, and the invariants of the state. -/

namespace Sys2Proof.Machine

/-! ### The curve and the contract -/

/-- `(x, y)` is on the curve (41_point_enumerator.md R110). -/
def OnCurve (a b p x y : Nat) : Prop :=
  x < p ∧ y < p ∧ y * y % p = (x * x * x + a * x + b) % p

/-- A point that is the identity or on the curve (42_point_group.md R130). -/
def PointOnCurve (a b p : Nat) : Point → Prop
  | .inf     => True
  | .aff x y => OnCurve a b p x y

/-- A point whose coordinates are canonical residues (00_scope.md R12). -/
def PointReduced (p : Nat) : Point → Prop
  | .inf     => True
  | .aff x y => x < p ∧ y < p

/-- `p` is prime and the curve is non-singular (42_point_group.md R130); for `p = 2` no curve of this form is. -/
def CurveOnContract (a b p : Nat) : Prop :=
  p.Prime ∧ p ≠ 2 ∧ (4 * a ^ 3 + 27 * b ^ 2) % p ≠ 0

/-- x ascending, then y ascending: the order of the entries (10_state.md R44). -/
def PointBefore (q r : Nat × Nat) : Prop := q.1 < r.1 ∨ (q.1 = r.1 ∧ q.2 < r.2)

/-- The loop of `smul` as 42_point_group.md R127 writes it, on the remaining scalar `n`, the accumulator `R` and the running
multiple `Q`, with the result it ends in. -/
inductive SmulTrace (a p : Nat) : Nat → Point → Point → Except ErrKind Point → Prop where
  /-- `R <- padd(R, Q, a, p)` on an odd `n`; its error is propagated. -/
  | addFails {n R Q e} : n % 2 = 1 → padd R Q a p = .error e → SmulTrace a p n R Q (.error e)
  /-- The last bit, 1: `n div 2 = 0` after the addition. -/
  | lastOdd {n R Q R'} : n % 2 = 1 → padd R Q a p = .ok R' → n / 2 = 0 → SmulTrace a p n R Q (.ok R')
  /-- An odd `n` with bits left: the error of `Q <- pdbl(Q, a, p)` is propagated. -/
  | oddDoubleFails {n R Q R' e} : n % 2 = 1 → padd R Q a p = .ok R' → n / 2 ≠ 0 → pdbl Q a p = .error e →
      SmulTrace a p n R Q (.error e)
  /-- An odd `n` with bits left: once more round the loop. -/
  | oddNext {n R Q R' Q' res} : n % 2 = 1 → padd R Q a p = .ok R' → n / 2 ≠ 0 → pdbl Q a p = .ok Q' →
      SmulTrace a p (n / 2) R' Q' res → SmulTrace a p n R Q res
  /-- An even `n`: the error of `Q <- pdbl(Q, a, p)` is propagated. -/
  | evenDoubleFails {n R Q e} : n % 2 = 0 → n / 2 ≠ 0 → pdbl Q a p = .error e → SmulTrace a p n R Q (.error e)
  /-- An even `n`: once more round the loop. -/
  | evenNext {n R Q Q' res} : n % 2 = 0 → n / 2 ≠ 0 → pdbl Q a p = .ok Q' →
      SmulTrace a p (n / 2) R Q' res → SmulTrace a p n R Q res

/-- `k` times a point by repeated addition of the point with itself, the meaning of scalar multiplication in the glossary of
00_scope.md R14. -/
def timesPoint (a p : Nat) (P : Point) : Nat → Except ErrKind Point
  | 0 => .ok .inf
  | k + 1 => do
    let Q ← timesPoint a p P k
    padd Q P a p

/-- The least power of two that is at least `m` (43_message_codec.md R150). -/
def IsLeastPowerOfTwo (m v : Nat) : Prop :=
  (∃ e, v = 2 ^ e) ∧ m ≤ v ∧ ∀ e, m ≤ 2 ^ e → v ≤ 2 ^ e

/-! ### The two ends of a command, as explicit states -/

/-- The state after a command that succeeded: CMD is the word written, STATUS says DONE, the result registers hold `r`, and
everything else is as it was (30_encoding.md R90, R91, R95). -/
def State.succeeded (w : Word) (r : Results) (s : State) : State :=
  { s with
    cmd := w
    status := { done := true, err := false, errCode := 0#4, psValid := s.status.psValid, agree := r.agree }
    r1 := r.r1, r2 := r.r2, r3 := r.r3, rm := r.rm, rh := r.rh, rj := r.rj, rs := r.rs }

/-- The state after a command that ended with code `c`: CMD is the word written, STATUS has the code, bit `c` of ESTICKY is
set, every result register is 0, and everything else is as it was (60_exceptions.md R192, R194). -/
def State.failed (w : Word) (c : Nat) (s : State) : State :=
  { s with
    cmd := w
    status := { done := false, err := true, errCode := BitVec.ofNat 4 c, psValid := s.status.psValid, agree := false }
    esticky := s.esticky ||| (1#32 <<< c)
    r1 := { x := 0#32, y := 0#32, t := false }
    r2 := { x := 0#32, y := 0#32, t := false }
    r3 := { x := 0#32, y := 0#32, t := false }
    rm := 0#32, rh := 0#32, rj := 0#32, rs := 0#32 }

/-- The state with the point-set memory `m` holding `n` valid entries (41_point_enumerator.md R112). -/
def State.withMemo (m : PsMem) (n : Nat) (s : State) : State :=
  { s with ps := m, psCount := BitVec.ofNat 32 n, status := { s.status with psValid := true } }

/-! ### The point-set memo -/

/-- The points of the state's curve, in order (41_point_enumerator.md R111). -/
def State.points (s : State) : List (Nat × Nat) := enumPoints s.a.toNat s.b.toNat s.p.toNat

/-- Entries 0 to `n − 1` of the memory `m` are exactly the list `pts` (10_state.md R45). -/
def HoldsPoints (m : PsMem) (n : Nat) (pts : List (Nat × Nat)) : Prop :=
  (List.range n).map (psRead m) = pts.map fun pt => some (psEntry pt)

/-- The invariant of 10_state.md R45. -/
def MemoInv (s : State) : Prop :=
  (s.status.psValid = true →
    1 ≤ s.psCount.toNat ∧ s.psCount.toNat ≤ s.cfg.psDepth ∧ HoldsPoints s.ps s.psCount.toNat s.points) ∧
  (s.status.psValid = false → s.psCount = 0#32)

/-- A command that consults the point set finds one: it is valid already, or `enumerate` will find at least one point and at
most PS_DEPTH of them (41_point_enumerator.md R112, R114). -/
def PointSetAvailable (s : State) : Prop :=
  s.status.psValid = true ∨ (1 ≤ s.points.length ∧ s.points.length ≤ s.cfg.psDepth)

/-- The state after `enumerate` succeeded (41_point_enumerator.md R112): the memo is valid and holds the points in order,
entries behind them are untouched, and nothing else changed. -/
def MemoComputed (s t : State) : Prop :=
  HoldsPoints t.ps s.points.length s.points ∧
  (∀ i, s.points.length ≤ i → psRead t.ps i = psRead s.ps i) ∧
  t = s.withMemo t.ps s.points.length

/-- The state after `ensurePS` returned (41_point_enumerator.md R114): the memo is valid; nothing at all changed when it was
valid before. -/
def MemoEnsured (s t : State) : Prop := MemoComputed s t ∧ (s.status.psValid = true → t = s)

/-! ### The other invariants -/

/-- What STATUS can hold (10_state.md R29, R30, 60_exceptions.md R185, R190): DONE and ERR are never both 1, ERRCODE is 0 when
ERR = 0 and one of the raised codes when ERR = 1, AGREE = 1 only with DONE. -/
def StatusInv (s : State) : Prop :=
  ¬ (s.status.done = true ∧ s.status.err = true) ∧
  (s.status.err = false → s.status.errCode = 0#4) ∧
  (s.status.err = true → s.status.errCode ∈ [1#4, 2#4, 3#4, 4#4, 5#4, 8#4, 9#4, 10#4]) ∧
  (s.status.agree = true → s.status.done = true)

/-- The bits of ESTICKY that can be set: 1 to 5 and 8 to 10; bit 6 is implemented and always reads 0 (10_state.md R31,
60_exceptions.md R190). -/
def StickyInv (s : State) : Prop := s.esticky &&& ~~~0x0000073E#32 = 0#32

/-- The result registers with `DONE = 0` hold 0 (10_state.md R38, 70_reset_and_hazards.md R216). -/
def ResultsInv (s : State) : Prop :=
  s.status.done = false →
    s.r1 = PointReg.zero ∧ s.r2 = PointReg.zero ∧ s.r3 = PointReg.zero ∧
    s.rm = 0#32 ∧ s.rh = 0#32 ∧ s.rj = 0#32 ∧ s.rs = 0#32

/-- A result point as `wrpoint` leaves it (00_scope.md R12): coordinates below 2^W, and both 0 under tag 1. -/
def ResultPointOk (w : Nat) (r : PointReg) : Prop :=
  r.x.toNat < 2 ^ w ∧ r.y.toNat < 2 ^ w ∧ (r.t = true → r.x = 0#32 ∧ r.y = 0#32)

/-- Every value fits the implemented bits of its register or memory (10_state.md R23, R38, R39, R43). -/
def WidthInv (s : State) : Prop :=
  (s.p.toNat < 2 ^ s.cfg.w ∧ s.a.toNat < 2 ^ s.cfg.w ∧ s.b.toNat < 2 ^ s.cfg.w) ∧
  (s.p1.x.toNat < 2 ^ s.cfg.w ∧ s.p1.y.toNat < 2 ^ s.cfg.w ∧ s.p2.x.toNat < 2 ^ s.cfg.w ∧ s.p2.y.toNat < 2 ^ s.cfg.w) ∧
  (ResultPointOk s.cfg.w s.r1 ∧ ResultPointOk s.cfg.w s.r2 ∧ ResultPointOk s.cfg.w s.r3) ∧
  (s.rm.toNat < 2 ^ s.cfg.w ∧ s.rh.toNat < 2 ^ s.cfg.w ∧ s.rj.toNat < 2 ^ s.cfg.w ∧ s.rs.toNat < 2 ^ s.cfg.w) ∧
  (∀ c ∈ s.ps, c.2.x.toNat < 2 ^ s.cfg.w ∧ c.2.y.toNat < 2 ^ s.cfg.w)

/-- Two states that differ only in what no read can show: entries of PS at or beyond PSCOUNT, or any entry while PSVALID = 0
(10_state.md R43, 93_implementation_defined.md U11). -/
def SameButHiddenEntries (s t : State) : Prop :=
  t = { s with ps := t.ps } ∧
  (s.status.psValid = true → ∀ i, i < s.psCount.toNat → psRead t.ps i = psRead s.ps i)

end Sys2Proof.Machine
end

