-- ==== Sys2Proof/Certificates/Slice0/Obligations.lean ====
section
/-! DEFINITION. Certificates/Slice0/Obligations.lean: the statements about the model, from the spec's numbered rules. A state
that a command ends in is written as `State.succeeded` or `State.failed` (Safety.lean), record literals that name every
field a command may change: so each equation below states the frame as well as the result. -/

open Sys2Proof Sys2Proof.Machine

/-! ### Encodings -/

/-- 30_encoding.md R83: the opcode map, and that the decoder matches the whole word. -/
def Obligations.DecoderMatchesTheWholeWord : Prop :=
  (∀ (w : Word) (i : Instr), decodeCommand w = .ok i ↔ w = encodeCommand i) ∧
  encodeCommand .modinv = 0x00000001#32 ∧ encodeCommand .enum = 0x00000002#32 ∧
  encodeCommand .padd = 0x00000003#32 ∧ encodeCommand .pdbl = 0x00000004#32 ∧
  encodeCommand .smul = 0x00000005#32 ∧ encodeCommand .encode = 0x00000006#32 ∧
  encodeCommand .dhss = 0x00000007#32 ∧ encodeCommand .egenc = 0x00000008#32 ∧
  encodeCommand .pneg = 0x00000009#32 ∧ encodeCommand .egdec = 0x0000000A#32

/-- 30_encoding.md R83, R84 on a few words: the first, one in the middle and the last of the map, and one illegal word of each
kind. -/
def Obligations.SampleWordsDecode : Prop :=
  decodeCommand 0x00000001#32 = .ok .modinv ∧ decodeCommand 0x00000005#32 = .ok .smul ∧
  decodeCommand 0x00000009#32 = .ok .pneg ∧ decodeCommand 0x0000000A#32 = .ok .egdec ∧
  decodeCommand 0x00000000#32 = .error .opcodeZero ∧ decodeCommand 0x0000000B#32 = .error .opcodeUnassigned ∧
  decodeCommand 0x00000105#32 = .error .reservedNonzero

/-- 30_encoding.md R84: which words are illegal. -/
def Obligations.IllegalWordsAreRefused : Prop :=
  ∀ w : Word, (∃ e, decodeCommand w = .error e) ↔
    (w.toNat / 256 ≠ 0 ∨ w.toNat % 256 = 0x00 ∨ 0x0B ≤ w.toNat % 256)

/-- 30_encoding.md R81: the 39-bit layout of a transaction, every value of which is legal; the layout and its reading are
inverse to each other. -/
def Obligations.TransactionFormat : Prop :=
  (∀ t : BusTxn, (encodeTxn t).toNat = t.wr.toNat * 2 ^ 38 + t.addr.toNat * 2 ^ 32 + t.wdata.toNat) ∧
  (∀ t : BusTxn, decodeTxn (encodeTxn t) = t) ∧
  (∀ n : TxnBits, encodeTxn (decodeTxn n) = n)

/-- 30_encoding.md R96: the encoding of each line of the script notation. -/
def Obligations.ScriptLinesEncode : Prop :=
  (∀ (r : RegName) (v : Word),
    (encodeTxn (scriptTxn (.wr r v))).toNat = 2 ^ 38 + r.offset / 4 * 2 ^ 32 + v.toNat) ∧
  (∀ r : RegName, (encodeTxn (scriptTxn (.rd r))).toNat = r.offset / 4 * 2 ^ 32) ∧
  (∀ i : Instr, (encodeTxn (scriptTxn (.cmd i))).toNat = 2 ^ 38 + 0x03 * 2 ^ 32 + i.opcode.toNat) ∧
  (∀ n : Word, scriptTxn (.cmdWord n) = scriptTxn (.wr .cmd n))

/-- 10_state.md R47: the register at each offset, and no other. -/
def Obligations.RegisterMap : Prop :=
  (∀ (addr : BusAddr) (r : RegName), regAt addr = some r ↔ r.offset = 4 * addr.toNat) ∧
  [RegName.id, .capw, .capd, .cmd, .status, .esticky].map RegName.offset = [0x00, 0x04, 0x08, 0x0C, 0x10, 0x14] ∧
  [RegName.p, .a, .b, .p1x, .p1y, .p1t, .p2x, .p2y, .p2t].map RegName.offset =
    [0x20, 0x24, 0x28, 0x30, 0x34, 0x38, 0x40, 0x44, 0x48] ∧
  [RegName.k1, .k2, .msg, .opa].map RegName.offset = [0x50, 0x54, 0x58, 0x5C] ∧
  [RegName.r1x, .r1y, .r1t, .r2x, .r2y, .r2t, .r3x, .r3y, .r3t].map RegName.offset =
    [0x60, 0x64, 0x68, 0x70, 0x74, 0x78, 0x80, 0x84, 0x88] ∧
  [RegName.rm, .rh, .rj, .rs].map RegName.offset = [0x90, 0x94, 0x98, 0x9C] ∧
  [RegName.pscount, .psaddr, .psx, .psy].map RegName.offset = [0xA0, 0xA4, 0xA8, 0xAC]

/-! ### The step and the bus -/

/-- A step runs the decoded command: when the host's next input is a write to CMD of a word that decodes to `i`, the step is
`exec i` on the state with that input taken and no read data (10_state.md R28, 30_encoding.md R90). -/
def Obligations.StepRunsTheDecodedCommand : Prop :=
  ∀ (s : State) (w : Word) (i : Instr) (rest : List HostInput),
    s.inbox = .txn { wr := true, addr := 0x03#6, wdata := w } :: rest → decodeCommand w = .ok i →
    step s = exec i { s with inbox := rest, rdata := none }

/-- 30_encoding.md R92, with R84: an illegal word written to CMD raises IllegalCommand whatever P holds. -/
def Obligations.IllegalWordRaisesIllegalCommand : Prop :=
  ∀ (s : State) (w : Word) (rest : List HostInput),
    s.inbox = .txn { wr := true, addr := 0x03#6, wdata := w } :: rest →
    (w.toNat / 256 ≠ 0 ∨ w.toNat % 256 = 0x00 ∨ 0x0B ≤ w.toNat % 256) →
    step s = .next (({ s with inbox := rest, rdata := none } : State).failed w 8)

/-- 20_memory.md R63: what a read of each register returns, and that a read changes no register. PSX and PSY are stated in
`WindowShowsTheEntry`. -/
def Obligations.ReadsReturnTheRegister : Prop :=
  (∀ (s : State) (addr : BusAddr) (wdata : Word) (rest : List HostInput),
    s.inbox = .txn { wr := false, addr := addr, wdata := wdata } :: rest →
    step s = .next { s with inbox := rest, rdata := some (busRead s addr) }) ∧
  (∀ s : State,
    busRead s RegName.id.index = 0x45434448#32 ∧ busRead s RegName.capw.index = BitVec.ofNat 32 s.cfg.w ∧
    busRead s RegName.capd.index = BitVec.ofNat 32 s.cfg.psDepth ∧ busRead s RegName.cmd.index = s.cmd ∧
    busRead s RegName.p.index = s.p ∧ busRead s RegName.a.index = s.a ∧ busRead s RegName.b.index = s.b ∧
    busRead s RegName.p1x.index = s.p1.x ∧ busRead s RegName.p1y.index = s.p1.y ∧
    (busRead s RegName.p1t.index).toNat = s.p1.t.toNat ∧
    busRead s RegName.p2x.index = s.p2.x ∧ busRead s RegName.p2y.index = s.p2.y ∧
    (busRead s RegName.p2t.index).toNat = s.p2.t.toNat ∧
    busRead s RegName.k1.index = s.k1 ∧ busRead s RegName.k2.index = s.k2 ∧ busRead s RegName.msg.index = s.msg ∧
    busRead s RegName.opa.index = s.opa ∧
    busRead s RegName.r1x.index = s.r1.x ∧ busRead s RegName.r1y.index = s.r1.y ∧
    (busRead s RegName.r1t.index).toNat = s.r1.t.toNat ∧
    busRead s RegName.r2x.index = s.r2.x ∧ busRead s RegName.r2y.index = s.r2.y ∧
    (busRead s RegName.r2t.index).toNat = s.r2.t.toNat ∧
    busRead s RegName.r3x.index = s.r3.x ∧ busRead s RegName.r3y.index = s.r3.y ∧
    (busRead s RegName.r3t.index).toNat = s.r3.t.toNat ∧
    busRead s RegName.rm.index = s.rm ∧ busRead s RegName.rh.index = s.rh ∧ busRead s RegName.rj.index = s.rj ∧
    busRead s RegName.rs.index = s.rs ∧ busRead s RegName.pscount.index = s.psCount ∧
    busRead s RegName.psaddr.index = s.psAddr)

/-- 10_state.md R29: the layout of the word that a read of STATUS returns. -/
def Obligations.StatusLayout : Prop :=
  ∀ s : State, (busRead s RegName.status.index).toNat =
    s.status.done.toNat + 2 * s.status.err.toNat + 16 * s.status.errCode.toNat + 256 * s.status.psValid.toNat +
      512 * s.status.agree.toNat

/-- 10_state.md R41: the window shows entry PSADDR of a valid point set, and 0 elsewhere. The first two clauses hold of every
state, the third is what they come to on the invariant of R45. -/
def Obligations.WindowShowsTheEntry : Prop :=
  (∀ (s : State) (e : PsEntry), s.status.psValid = true → s.psAddr.toNat < s.psCount.toNat →
    psRead s.ps s.psAddr.toNat = some e →
    busRead s RegName.psx.index = e.x ∧ busRead s RegName.psy.index = e.y) ∧
  (∀ s : State, (s.status.psValid = false ∨ s.psCount.toNat ≤ s.psAddr.toNat) →
    busRead s RegName.psx.index = 0#32 ∧ busRead s RegName.psy.index = 0#32) ∧
  (∀ (s : State) (pt : Nat × Nat), MemoInv s → s.status.psValid = true → s.points[s.psAddr.toNat]? = some pt →
    (busRead s RegName.psx.index).toNat = pt.1 ∧ (busRead s RegName.psy.index).toNat = pt.2)

/-- 10_state.md R32, 20_memory.md R64: a write to P, A or B stores the low W bits and drops the memo, whatever the value. -/
def Obligations.CurveWritesDropTheMemo : Prop :=
  ∀ (s : State) (w : Word) (rest : List HostInput) (r : RegName),
    s.inbox = .txn { wr := true, addr := r.index, wdata := w } :: rest →
    (r = .p → step s = .next { s with inbox := rest, rdata := none, p := BitVec.ofNat 32 (w.toNat % 2 ^ s.cfg.w),
                                      psCount := 0#32, status := { s.status with psValid := false } }) ∧
    (r = .a → step s = .next { s with inbox := rest, rdata := none, a := BitVec.ofNat 32 (w.toNat % 2 ^ s.cfg.w),
                                      psCount := 0#32, status := { s.status with psValid := false } }) ∧
    (r = .b → step s = .next { s with inbox := rest, rdata := none, b := BitVec.ofNat 32 (w.toNat % 2 ^ s.cfg.w),
                                      psCount := 0#32, status := { s.status with psValid := false } })

/-- 20_memory.md R64, 10_state.md R23: a write to an operand register stores its implemented bits and does nothing else. -/
def Obligations.OperandWritesStoreTheirBits : Prop :=
  ∀ (s : State) (w : Word) (rest : List HostInput) (r : RegName),
    s.inbox = .txn { wr := true, addr := r.index, wdata := w } :: rest →
    (r = .p1x → step s = .next { s with inbox := rest, rdata := none,
                                        p1 := { s.p1 with x := BitVec.ofNat 32 (w.toNat % 2 ^ s.cfg.w) } }) ∧
    (r = .p1y → step s = .next { s with inbox := rest, rdata := none,
                                        p1 := { s.p1 with y := BitVec.ofNat 32 (w.toNat % 2 ^ s.cfg.w) } }) ∧
    (r = .p1t → step s = .next { s with inbox := rest, rdata := none,
                                        p1 := { s.p1 with t := decide (w.toNat % 2 = 1) } }) ∧
    (r = .p2x → step s = .next { s with inbox := rest, rdata := none,
                                        p2 := { s.p2 with x := BitVec.ofNat 32 (w.toNat % 2 ^ s.cfg.w) } }) ∧
    (r = .p2y → step s = .next { s with inbox := rest, rdata := none,
                                        p2 := { s.p2 with y := BitVec.ofNat 32 (w.toNat % 2 ^ s.cfg.w) } }) ∧
    (r = .p2t → step s = .next { s with inbox := rest, rdata := none,
                                        p2 := { s.p2 with t := decide (w.toNat % 2 = 1) } }) ∧
    (r = .k1 → step s = .next { s with inbox := rest, rdata := none, k1 := w }) ∧
    (r = .k2 → step s = .next { s with inbox := rest, rdata := none, k2 := w }) ∧
    (r = .msg → step s = .next { s with inbox := rest, rdata := none, msg := w }) ∧
    (r = .opa → step s = .next { s with inbox := rest, rdata := none, opa := w }) ∧
    (r = .psaddr → step s = .next { s with inbox := rest, rdata := none, psAddr := w })

/-- 20_memory.md R70, R64: the unmapped slots read 0 and ignore writes, and so do writes to read-only registers. -/
def Obligations.UnmappedAndReadOnlyIgnoreWrites : Prop :=
  (∀ addr : BusAddr, regAt addr = none ↔
    (4 * addr.toNat ∈ [0x18, 0x1C, 0x2C, 0x3C, 0x4C, 0x6C, 0x7C, 0x8C] ∨ 0xB0 ≤ 4 * addr.toNat)) ∧
  (∀ (s : State) (addr : BusAddr), regAt addr = none → busRead s addr = 0#32) ∧
  (∀ (s : State) (addr : BusAddr) (w : Word) (rest : List HostInput),
    s.inbox = .txn { wr := true, addr := addr, wdata := w } :: rest →
    (regAt addr = none ∨ ∃ r, regAt addr = some r ∧ regClass r = .readOnly) →
    step s = .next { s with inbox := rest, rdata := none })

/-- 10_state.md R31: ESTICKY is write-one-to-clear on its implemented bits, 1 to 6 and 8 to 10, and its other bits read 0. -/
def Obligations.StickyLogIsWriteOneToClear : Prop :=
  (∀ (s : State) (w : Word) (rest : List HostInput),
    s.inbox = .txn { wr := true, addr := RegName.esticky.index, wdata := w } :: rest →
    ∃ log : Word, step s = .next { s with inbox := rest, rdata := none, esticky := log } ∧
      ∀ i, i < 32 → log.getLsbD i =
        (s.esticky.getLsbD i && !(w.getLsbD i && (decide (1 ≤ i ∧ i ≤ 6) || decide (8 ≤ i ∧ i ≤ 10))))) ∧
  (∀ (s : State) (i : Nat), i < 32 → (busRead s RegName.esticky.index).getLsbD i =
    (s.esticky.getLsbD i && (decide (1 ≤ i ∧ i ≤ 6) || decide (8 ≤ i ∧ i ≤ 10))))

/-- 60_exceptions.md R199: with no transaction the block is idle and keeps all state. That the inbox holds the host's inputs is
the model's choice (log entry 3). -/
def Obligations.IdleKeepsAllState : Prop :=
  ∀ s : State, s.inbox = [] → step s = .next s

/-- 10_state.md R47: the reset values of every register. That PS lists nothing, and the model's own fields, are the model's
choices (log entries 1, 2, 3) and are not stated. -/
def Obligations.ResetValues : Prop :=
  let s := State.reset
  busRead s 0x00#6 = 0x45434448#32 ∧ busRead s 0x01#6 = 16#32 ∧ busRead s 0x02#6 = 131072#32 ∧
  (∀ addr : BusAddr, 3 ≤ addr.toNat → busRead s addr = 0#32) ∧
  s.cmd = 0#32 ∧
  s.status = { done := false, err := false, errCode := 0#4, psValid := false, agree := false } ∧
  s.esticky = 0#32 ∧ s.p = 0#32 ∧ s.a = 0#32 ∧ s.b = 0#32 ∧
  s.p1 = { x := 0#32, y := 0#32, t := false } ∧ s.p2 = { x := 0#32, y := 0#32, t := false } ∧
  s.k1 = 0#32 ∧ s.k2 = 0#32 ∧ s.msg = 0#32 ∧ s.opa = 0#32 ∧
  s.r1 = { x := 0#32, y := 0#32, t := false } ∧ s.r2 = { x := 0#32, y := 0#32, t := false } ∧
  s.r3 = { x := 0#32, y := 0#32, t := false } ∧
  s.rm = 0#32 ∧ s.rh = 0#32 ∧ s.rj = 0#32 ∧ s.rs = 0#32 ∧ s.psCount = 0#32 ∧ s.psAddr = 0#32

/-- 70_reset_and_hazards.md R211: after the reset input all registers are 0 except the constants. That reset is an input
of the host is the model's form (log entry 5). -/
def Obligations.ResetInputClearsTheRegisters : Prop :=
  ∀ (s : State) (rest : List HostInput), s.inbox = .reset :: rest →
    ∃ t, step s = .next t ∧ t.cfg = s.cfg ∧
      t.status = { done := false, err := false, errCode := 0#4, psValid := false, agree := false } ∧
      busRead t 0x00#6 = 0x45434448#32 ∧ busRead t 0x01#6 = BitVec.ofNat 32 s.cfg.w ∧
      busRead t 0x02#6 = BitVec.ofNat 32 s.cfg.psDepth ∧
      (∀ addr : BusAddr, 3 ≤ addr.toNat → busRead t addr = 0#32) ∧
      t.esticky = 0#32 ∧ t.p1 = PointReg.zero ∧ t.p2 = PointReg.zero

/-- Every input but a breach of the bus protocol is answered by a next state; no command and no transaction stops the machine
(20_memory.md R62, 30_encoding.md R81; the breach is the model's fault, log entry 6). -/
def Obligations.OnlyAProtocolBreachStops : Prop :=
  ∀ s : State, (∃ t, step s = .next t) ∨
    (s.inbox.head? = some .protocolBreach ∧ step s = .fault .busProtocolBreach)

/-! ### The command frame and its errors -/

/-- 30_encoding.md R93: every command on P < 2 raises InvalidCurve before its body. -/
def Obligations.SmallModulusIsInvalidCurve : Prop :=
  ∀ (i : Instr) (s : State), s.p.toNat < 2 → exec i s = .next (s.failed (encodeCommand i) 2)

/-- 60_exceptions.md R200: every command ends, with its results or with one of the errors of its row, and in either case only
CMD, STATUS, ESTICKY, the result registers and the memo can differ. -/
def Obligations.ErrorsByCommand : Prop :=
  ∀ (i : Instr) (s : State), ∃ (m : PsMem) (n : Word) (v : Bool) (u : State),
    u = { s with ps := m, psCount := n, status := { s.status with psValid := v } } ∧
    ((∃ r, exec i s = .next (u.succeeded (encodeCommand i) r)) ∨
     ∃ c, exec i s = .next (u.failed (encodeCommand i) c) ∧
      c ∈ (match i with
        | .modinv => [2, 1]
        | .enum   => [2, 9]
        | .padd   => [2, 1]
        | .pdbl   => [2, 1]
        | .smul   => [2, 1]
        | .encode => [2, 4, 5, 9]
        | .dhss   => [2, 1, 3, 9, 10]
        | .egenc  => [2, 1, 3, 4, 5, 9]
        | .pneg   => [2]
        | .egdec  => [2, 1]))

/-- 60_exceptions.md R194: the state after a command that raised. Its memo is in one of three conditions: unchanged
(the command does not use the point set, or raised before `ensurePS`), valid (a later test raised), or invalid with
PSCOUNT = 0 (`enumerate` itself raised). -/
def Obligations.ErrorsArePrecise : Prop :=
  ∀ (i : Instr) (s t : State), s.cfg.wf = true → MemoInv s → exec i s = .next t → t.status.err = true →
    t.cmd = encodeCommand i ∧ t.status.done = false ∧ t.status.agree = false ∧
    t.esticky = s.esticky ||| (1#32 <<< t.status.errCode.toNat) ∧
    t.r1 = PointReg.zero ∧ t.r2 = PointReg.zero ∧ t.r3 = PointReg.zero ∧
    t.rm = 0#32 ∧ t.rh = 0#32 ∧ t.rj = 0#32 ∧ t.rs = 0#32 ∧
    (t.p = s.p ∧ t.a = s.a ∧ t.b = s.b ∧ t.p1 = s.p1 ∧ t.p2 = s.p2 ∧ t.k1 = s.k1 ∧ t.k2 = s.k2 ∧ t.msg = s.msg ∧
      t.opa = s.opa ∧ t.psAddr = s.psAddr) ∧
    ((i ∈ [Instr.modinv, .padd, .pdbl, .smul, .pneg, .egdec] ∨ s.p.toNat < 2 ∨ t.status.errCode = 4#4) →
      t.ps = s.ps ∧ t.psCount = s.psCount ∧ t.status.psValid = s.status.psValid) ∧
    (i ∈ [Instr.encode, .dhss, .egenc] → t.status.errCode ∈ [1#4, 3#4, 5#4, 10#4] →
      t.status.psValid = true ∧ MemoInv t ∧
        (s.status.psValid = true → t.ps = s.ps ∧ t.psCount = s.psCount)) ∧
    (2 ≤ s.p.toNat → t.status.errCode ∈ [2#4, 9#4] → t.status.psValid = false ∧ t.psCount = 0#32)

/-- 10_state.md R40 and the rules it tabulates: no command writes a session or operand register, the parameters or PSADDR; and
the six commands that neither write nor consult the point set leave the memo as it was. -/
def Obligations.CommandsKeepOperandsAndMemo : Prop :=
  ∀ (i : Instr) (s t : State), exec i s = .next t →
    (t.cfg = s.cfg ∧ t.p = s.p ∧ t.a = s.a ∧ t.b = s.b ∧ t.p1 = s.p1 ∧ t.p2 = s.p2 ∧ t.k1 = s.k1 ∧ t.k2 = s.k2 ∧
      t.msg = s.msg ∧ t.opa = s.opa ∧ t.psAddr = s.psAddr ∧ t.inbox = s.inbox ∧ t.rdata = s.rdata) ∧
    (i ∈ [Instr.modinv, .padd, .pdbl, .smul, .pneg, .egdec] →
      t.ps = s.ps ∧ t.psCount = s.psCount ∧ t.status.psValid = s.status.psValid)

/-- 10_state.md R38, R39, R40: after a command that succeeded, every result point is a pair of residues or the identity as
(0, 0, 1), the result scalars are in their ranges, and AGREE is 1 exactly after DHSS. -/
def Obligations.ResultsAreInRange : Prop :=
  ∀ (i : Instr) (s t : State), s.cfg.wf = true → MemoInv s → exec i s = .next t → t.status.done = true →
    (∀ r ∈ [t.r1, t.r2, t.r3],
      (r.t = false → r.x.toNat < s.p.toNat ∧ r.y.toNat < s.p.toNat) ∧ (r.t = true → r.x = 0#32 ∧ r.y = 0#32)) ∧
    (i ∈ [Instr.encode, .egenc] → IsLeastPowerOfTwo s.msg.toNat t.rm.toNat ∧ t.rm.toNat ≤ s.p.toNat ∧
      t.rh.toNat = s.p.toNat / t.rm.toNat ∧ 1 ≤ t.rh.toNat ∧ t.rj.toNat < t.rh.toNat) ∧
    (i ∉ [Instr.encode, .egenc] → t.rm = 0#32 ∧ t.rh = 0#32 ∧ t.rj = 0#32) ∧
    t.rs.toNat < s.p.toNat ∧ (i ≠ .modinv → t.rs = 0#32) ∧
    (t.status.agree = true ↔ i = .dhss)

/-! ### MODINV -/

/-- 40_field_arithmetic.md R100, R102: RS is the inverse in [0, P) of OPA modulo P, when there is one; without one MODINV
raises NotInvertible (60_exceptions.md R186), for a prime P exactly when OPA is a multiple of P; P < 2 is the frame's
error. -/
def Obligations.ModinvIsTheInverse : Prop :=
  ∀ (s : State),
    (s.p.toNat < 2 → exec .modinv s = .next (s.failed 0x00000001#32 2)) ∧
    (2 ≤ s.p.toNat → Nat.gcd (s.opa.toNat % s.p.toNat) s.p.toNat = 1 →
      ∃ x, x < s.p.toNat ∧ s.opa.toNat * x % s.p.toNat = 1 ∧
        (∀ y, y < s.p.toNat → s.opa.toNat * y % s.p.toNat = 1 → y = x) ∧
        exec .modinv s = .next (s.succeeded 0x00000001#32 { rs := BitVec.ofNat 32 x })) ∧
    (2 ≤ s.p.toNat → Nat.gcd (s.opa.toNat % s.p.toNat) s.p.toNat ≠ 1 →
      exec .modinv s = .next (s.failed 0x00000001#32 1)) ∧
    (s.p.toNat.Prime → (exec .modinv s = .next (s.failed 0x00000001#32 1) ↔ s.p.toNat ∣ s.opa.toNat))

/-! ### ENUM and the point set -/

/-- 41_point_enumerator.md R111: the list is exactly the solutions, in ascending order of x and then of y, so none twice;
for a prime modulus there are at most 2·p. -/
def Obligations.EnumListIsTheCurve : Prop :=
  ∀ a b p : Nat, 2 ≤ p →
    (∀ x y, (x, y) ∈ enumPoints a b p ↔ x < p ∧ y < p ∧ y * y % p = (x * x * x + a * x + b) % p) ∧
    (enumPoints a b p).Pairwise PointBefore ∧
    (p.Prime → (enumPoints a b p).length ≤ 2 * p)

/-- 41_point_enumerator.md R112, R113: ENUM, whether the memo was valid or not, stores the list in PS, in order, and validates
the memo; entries behind the list stay; no result register holds anything. No point is InvalidCurve, too many are
SetOverflow, and both leave the memo invalid with PSCOUNT = 0; P < 2 is the frame's error. -/
def Obligations.EnumStoresThePoints : Prop :=
  ∀ (s : State),
    (s.p.toNat < 2 → exec .enum s = .next (s.failed 0x00000002#32 2)) ∧
    (2 ≤ s.p.toNat → 1 ≤ s.points.length → s.points.length ≤ s.cfg.psDepth →
      ∃ m, HoldsPoints m s.points.length s.points ∧
        (∀ i, s.points.length ≤ i → psRead m i = psRead s.ps i) ∧
        exec .enum s = .next ((s.withMemo m s.points.length).succeeded 0x00000002#32 {})) ∧
    (2 ≤ s.p.toNat → s.points.length = 0 → ∃ m, exec .enum s =
      .next (({ s with ps := m, psCount := 0#32, status := { s.status with psValid := false } } : State).failed
        0x00000002#32 2)) ∧
    (2 ≤ s.p.toNat → s.cfg.psDepth < s.points.length → ∃ m, exec .enum s =
      .next (({ s with ps := m, psCount := 0#32, status := { s.status with psValid := false } } : State).failed
        0x00000002#32 9))

/-- 41_point_enumerator.md R112: SetOverflow cannot occur for a prime P with PS_DEPTH ≥ 2·P, in any command. -/
def Obligations.PrimeModulusNeverOverflows : Prop :=
  ∀ (i : Instr) (s t : State), s.p.toNat.Prime → 2 * s.p.toNat ≤ s.cfg.psDepth → exec i s = .next t →
    t.status.errCode ≠ 9#4

/-! ### PNEG, PADD, PDBL, SMUL -/

/-- 42_point_group.md R120, R121: the negation of the reduced operand; the only error is the frame's. -/
def Obligations.PnegNegates : Prop :=
  ∀ (s : State),
    (s.p.toNat < 2 → exec .pneg s = .next (s.failed 0x00000009#32 2)) ∧
    (2 ≤ s.p.toNat → s.p1.t = true →
      exec .pneg s = .next (s.succeeded 0x00000009#32 { r1 := { x := 0#32, y := 0#32, t := true } })) ∧
    (2 ≤ s.p.toNat → s.p1.t = false → exec .pneg s = .next (s.succeeded 0x00000009#32
      { r1 := { x := BitVec.ofNat 32 (s.p1.x.toNat % s.p.toNat),
                y := BitVec.ofNat 32 ((s.p.toNat - s.p1.y.toNat % s.p.toNat) % s.p.toNat), t := false } }))

/-- 42_point_group.md R122, R123, R125: PADD by the ordered cases: an identity operand, an inverse pair, and else the slope of
the tangent or of the chord, with the error of a denominator that has no inverse. -/
def Obligations.PaddFollowsTheCases : Prop :=
  (∀ s : State, s.p.toNat < 2 → exec .padd s = .next (s.failed 0x00000003#32 2)) ∧
  ∀ (s : State) (p x1 y1 x2 y2 : Nat), p = s.p.toNat → 2 ≤ p →
    x1 = s.p1.x.toNat % p → y1 = s.p1.y.toNat % p → x2 = s.p2.x.toNat % p → y2 = s.p2.y.toNat % p →
    (s.p1.t = true → s.p2.t = true →
      exec .padd s = .next (s.succeeded 0x00000003#32 { r1 := { x := 0#32, y := 0#32, t := true } })) ∧
    (s.p1.t = true → s.p2.t = false → exec .padd s =
      .next (s.succeeded 0x00000003#32 { r1 := { x := BitVec.ofNat 32 x2, y := BitVec.ofNat 32 y2, t := false } })) ∧
    (s.p1.t = false → s.p2.t = true → exec .padd s =
      .next (s.succeeded 0x00000003#32 { r1 := { x := BitVec.ofNat 32 x1, y := BitVec.ofNat 32 y1, t := false } })) ∧
    (s.p1.t = false → s.p2.t = false → x1 = x2 → (y1 + y2) % p = 0 → exec .padd s =
      .next (s.succeeded 0x00000003#32 { r1 := { x := 0#32, y := 0#32, t := true } })) ∧
    (s.p1.t = false → s.p2.t = false → ¬ (x1 = x2 ∧ (y1 + y2) % p = 0) →
      ∀ d num : Nat,
        (x1 = x2 ∧ y1 = y2 → d = 2 * y1 % p ∧ num = (3 * x1 * x1 + s.a.toNat) % p) →
        (¬ (x1 = x2 ∧ y1 = y2) → (d : Int) = ((x2 : Int) - x1) % p ∧ (num : Int) = ((y2 : Int) - y1) % p) →
        (Nat.gcd d p ≠ 1 → exec .padd s = .next (s.failed 0x00000003#32 1)) ∧
        (∀ di lam x3 y3 : Nat, d * di % p = 1 → lam = num * di % p →
          (x3 : Int) = ((lam : Int) * lam - x1 - x2) % p → (y3 : Int) = ((lam : Int) * ((x1 : Int) - x3) - y1) % p →
          exec .padd s =
            .next (s.succeeded 0x00000003#32
              { r1 := { x := BitVec.ofNat 32 x3, y := BitVec.ofNat 32 y3, t := false } })))

/-- 42_point_group.md R132, first law: PADD with swapped operands ends alike, value and error alike, for every P. -/
def Obligations.PaddIsCommutative : Prop :=
  ∀ (s : State), ∃ t, exec .padd s = .next t ∧
    exec .padd { s with p1 := s.p2, p2 := s.p1 } = .next { t with p1 := s.p2, p2 := s.p1 }

/-- 42_point_group.md R132, fifth law, and R120: the sum of an operand and the result that PNEG leaves for it is the identity. -/
def Obligations.PaddOfNegationIsIdentity : Prop :=
  ∀ (s t : State), 2 ≤ s.p.toNat → exec .pneg s = .next t →
    exec .padd { t with p2 := t.r1 } =
      .next (({ t with p2 := t.r1 } : State).succeeded 0x00000003#32 { r1 := { x := 0#32, y := 0#32, t := true } })

/-- 42_point_group.md R124: PDBL is PADD with the operand in both places, value and error alike, for every P. -/
def Obligations.PdblIsPaddOfEqualOperands : Prop :=
  ∀ (s : State), ∃ t, exec .padd { s with p2 := s.p1 } = .next t ∧
    exec .pdbl s = .next { t with p2 := s.p2, cmd := 0x00000004#32 }

/-- 42_point_group.md R124, R126: the doubled point: the identity for the identity and for a vertical tangent, else by the slope
of the tangent, with the error of a denominator that has no inverse, which a prime P excludes. -/
def Obligations.PdblFollowsTheCases : Prop :=
  (∀ s : State, s.p.toNat < 2 → exec .pdbl s = .next (s.failed 0x00000004#32 2)) ∧
  ∀ (s : State) (p x1 y1 : Nat), p = s.p.toNat → 2 ≤ p → x1 = s.p1.x.toNat % p → y1 = s.p1.y.toNat % p →
    ((s.p1.t = true ∨ 2 * y1 % p = 0) →
      exec .pdbl s = .next (s.succeeded 0x00000004#32 { r1 := { x := 0#32, y := 0#32, t := true } })) ∧
    (s.p1.t = false → 2 * y1 % p ≠ 0 → Nat.gcd (2 * y1 % p) p ≠ 1 →
      exec .pdbl s = .next (s.failed 0x00000004#32 1)) ∧
    (∀ di lam x3 y3 : Nat, s.p1.t = false → 2 * y1 % p ≠ 0 → (2 * y1 % p) * di % p = 1 →
      lam = (3 * x1 * x1 + s.a.toNat) % p * di % p →
      (x3 : Int) = ((lam : Int) * lam - 2 * x1) % p → (y3 : Int) = ((lam : Int) * ((x1 : Int) - x3) - y1) % p →
      exec .pdbl s = .next (s.succeeded 0x00000004#32
        { r1 := { x := BitVec.ofNat 32 x3, y := BitVec.ofNat 32 y3, t := false } })) ∧
    (p.Prime → ∃ r, exec .pdbl s = .next (s.succeeded 0x00000004#32 { r1 := r }))

/-- 42_point_group.md R128, its corner cases: K1 = 1 gives the reduced operand, and K1 = 2 what PDBL gives. -/
def Obligations.SmulByOneAndTwo : Prop :=
  ∀ (s : State), 2 ≤ s.p.toNat →
    (s.k1 = 1#32 → s.p1.t = false → exec .smul s = .next (s.succeeded 0x00000005#32
      { r1 := { x := BitVec.ofNat 32 (s.p1.x.toNat % s.p.toNat),
                y := BitVec.ofNat 32 (s.p1.y.toNat % s.p.toNat), t := false } })) ∧
    (s.k1 = 2#32 → ∃ t, exec .pdbl s = .next t ∧ exec .smul s = .next { t with cmd := 0x00000005#32 })

/-- 42_point_group.md R127, R128: SMUL ends as the double-and-add loop ends, least significant bit first. -/
def Obligations.SmulRunsDoubleAndAdd : Prop :=
  ∀ (s : State) (x y : Nat), 2 ≤ s.p.toNat → x = s.p1.x.toNat % s.p.toNat → y = s.p1.y.toNat % s.p.toNat →
    ((s.k1 = 0#32 ∨ s.p1.t = true) →
      exec .smul s = .next (s.succeeded 0x00000005#32 { r1 := { x := 0#32, y := 0#32, t := true } })) ∧
    (s.k1 ≠ 0#32 → s.p1.t = false →
      ∃ res, SmulTrace s.a.toNat s.p.toNat s.k1.toNat .inf (.aff x y) res ∧
        exec .smul s = .next (match res with
          | .ok S    => s.succeeded 0x00000005#32 { r1 := wrpoint S }
          | .error _ => s.failed 0x00000005#32 1))

/-- 42_point_group.md R127, R130, R131: on-contract SMUL never fails, and its result is K1 times the operand by repeated
addition, again the identity or a point of the curve. -/
def Obligations.SmulIsRepeatedAddition : Prop :=
  ∀ (s : State), CurveOnContract s.a.toNat s.b.toNat s.p.toNat →
    PointOnCurve s.a.toNat s.b.toNat s.p.toNat (rdpoint s.p1 s.p.toNat) →
    ∃ S, timesPoint s.a.toNat s.p.toNat (rdpoint s.p1 s.p.toNat) s.k1.toNat = .ok S ∧
      PointOnCurve s.a.toNat s.b.toNat s.p.toNat S ∧
      exec .smul s = .next (s.succeeded 0x00000005#32 { r1 := wrpoint S })

/-- 42_point_group.md R132, fourth law, on-contract: the SMUL of j + k is the PADD of the SMULs of j and of k. -/
def Obligations.SmulDistributesOverAddition : Prop :=
  ∀ (s tj tk : State) (j k : Word), CurveOnContract s.a.toNat s.b.toNat s.p.toNat →
    PointOnCurve s.a.toNat s.b.toNat s.p.toNat (rdpoint s.p1 s.p.toNat) → j.toNat + k.toNat < 2 ^ 32 →
    exec .smul { s with k1 := j } = .next tj → exec .smul { s with k1 := k } = .next tk →
    ∃ t u, exec .smul { s with k1 := j + k } = .next t ∧ exec .padd { s with p1 := tj.r1, p2 := tk.r1 } = .next u ∧
      t.status.done = true ∧ u.status.done = true ∧ u.r1 = t.r1

/-! ### ENCODE -/

/-- 43_message_codec.md R150: `npo2(m)` is the least power of two that is at least m, and 1 for m = 0. -/
def Obligations.CapacityIsTheLeastPowerOfTwo : Prop :=
  npo2 0 = 1 ∧ ∀ m, (∃ e, npo2 m = 2 ^ e) ∧ m ≤ npo2 m ∧ ∀ e, m ≤ 2 ^ e → npo2 m ≤ 2 ^ e

/-- 43_message_codec.md R153, R154: ENCODE writes the point of the first candidate abscissa that carries one, with its smallest
y, and M, h and j; the memo is as `ensurePS` leaves it. -/
def Obligations.EncodeFindsTheFirstOffset : Prop :=
  ∀ (s : State) (cap h j x y : Nat), s.cfg.wf = true → MemoInv s → PointSetAvailable s → 2 ≤ s.p.toNat →
    IsLeastPowerOfTwo s.msg.toNat cap → cap ≤ s.p.toNat → h = s.p.toNat / cap → j < h →
    x = (s.msg.toNat * h + j) % s.p.toNat → OnCurve s.a.toNat s.b.toNat s.p.toNat x y →
    (∀ y', y' < y → ¬ OnCurve s.a.toNat s.b.toNat s.p.toNat x y') →
    (∀ j' y', j' < j → ¬ OnCurve s.a.toNat s.b.toNat s.p.toNat ((s.msg.toNat * h + j') % s.p.toNat) y') →
    ∃ t, MemoEnsured s t ∧
      exec .encode s = .next (t.succeeded 0x00000006#32
        { r1 := { x := BitVec.ofNat 32 x, y := BitVec.ofNat 32 y, t := false },
          rm := BitVec.ofNat 32 cap, rh := BitVec.ofNat 32 h, rj := BitVec.ofNat 32 j })

/-- 43_message_codec.md R152: ENCODE and EGENC raise MessageTooLarge exactly when M > P, before any enumeration. -/
def Obligations.MessageTooLargeExactlyAboveP : Prop :=
  ∀ (s : State) (cap : Nat), 2 ≤ s.p.toNat → IsLeastPowerOfTwo s.msg.toNat cap →
    (s.p.toNat < cap → exec .encode s = .next (s.failed 0x00000006#32 4) ∧
      exec .egenc s = .next (s.failed 0x00000008#32 4)) ∧
    (cap ≤ s.p.toNat → ∀ t, (exec .encode s = .next t ∨ exec .egenc s = .next t) → t.status.errCode ≠ 4#4)

/-- 43_message_codec.md R153, 60_exceptions.md R189: without a point on any of the h candidates ENCODE and EGENC raise
MessageNotEncodable, EGENC before it looks at its base point (60_exceptions.md R193), and leave a valid memo. -/
def Obligations.MessageNotEncodableAfterTheSearch : Prop :=
  ∀ (s : State) (cap h : Nat), s.cfg.wf = true → MemoInv s → PointSetAvailable s → 2 ≤ s.p.toNat →
    IsLeastPowerOfTwo s.msg.toNat cap → cap ≤ s.p.toNat → h = s.p.toNat / cap →
    (∀ j y, j < h → ¬ OnCurve s.a.toNat s.b.toNat s.p.toNat ((s.msg.toNat * h + j) % s.p.toNat) y) →
    ∃ t, MemoEnsured s t ∧ exec .encode s = .next (t.failed 0x00000006#32 5) ∧
      exec .egenc s = .next (t.failed 0x00000008#32 5)

/-- 43_message_codec.md R155: messages 0 and 1 are encoded alike, and neither can end in MessageNotEncodable. -/
def Obligations.EncodeOfZeroAndOne : Prop :=
  ∀ (s : State), s.cfg.wf = true → MemoInv s → PointSetAvailable s → 2 ≤ s.p.toNat →
    ∃ t : State, t.status.done = true ∧ exec .encode { s with msg := 0#32 } = .next { t with msg := 0#32 } ∧
      exec .encode { s with msg := 1#32 } = .next { t with msg := 1#32 }

/-! ### DHSS, EGENC, EGDEC -/

/-- 44_key_agreement_cipher.md R165, R166: DHSS on a base point of the point set, when its four multiplications succeed: the
secret and both public points when the two derivations are equal, and SecretMismatch when they differ. No operands are known
on which they differ (95_test_vectors.md section 2.5). -/
def Obligations.DhssWritesTheSecret : Prop :=
  ∀ (s : State) (x y : Nat) (S1 S2 dAG dBG : Point), s.cfg.wf = true → MemoInv s → PointSetAvailable s →
    2 ≤ s.p.toNat → s.p1.t = false → x = s.p1.x.toNat % s.p.toNat → y = s.p1.y.toNat % s.p.toNat →
    OnCurve s.a.toNat s.b.toNat s.p.toNat x y →
    smul (.aff x y) s.k1.toNat s.a.toNat s.p.toNat = .ok dAG → smul (.aff x y) s.k2.toNat s.a.toNat s.p.toNat = .ok dBG →
    smul dBG s.k1.toNat s.a.toNat s.p.toNat = .ok S1 → smul dAG s.k2.toNat s.a.toNat s.p.toNat = .ok S2 →
    ∃ t, MemoEnsured s t ∧
      exec .dhss s = .next (if S1 = S2
        then t.succeeded 0x00000007#32 { r1 := wrpoint S1, r2 := wrpoint dAG, r3 := wrpoint dBG, agree := true }
        else t.failed 0x00000007#32 10)

/-- 44_key_agreement_cipher.md R165, R166: a multiplication of DHSS that fails raises NotInvertible, and the point set
stays valid. -/
def Obligations.DhssFailsWithItsMultiplications : Prop :=
  ∀ (s : State) (x y : Nat) (e : ErrKind), s.cfg.wf = true → MemoInv s → PointSetAvailable s → 2 ≤ s.p.toNat →
    s.p1.t = false → x = s.p1.x.toNat % s.p.toNat → y = s.p1.y.toNat % s.p.toNat →
    OnCurve s.a.toNat s.b.toNat s.p.toNat x y →
    (smul (.aff x y) s.k1.toNat s.a.toNat s.p.toNat = .error e ∨
      smul (.aff x y) s.k2.toNat s.a.toNat s.p.toNat = .error e ∨
      (∃ dBG, smul (.aff x y) s.k2.toNat s.a.toNat s.p.toNat = .ok dBG ∧
        smul dBG s.k1.toNat s.a.toNat s.p.toNat = .error e) ∨
      (∃ dAG, smul (.aff x y) s.k1.toNat s.a.toNat s.p.toNat = .ok dAG ∧
        smul dAG s.k2.toNat s.a.toNat s.p.toNat = .error e)) →
    ∃ t, MemoEnsured s t ∧ exec .dhss s = .next (t.failed 0x00000007#32 1)

/-- 44_key_agreement_cipher.md R167, 60_exceptions.md R188: DHSS, and EGENC once its message is encoded, raise PointNotOnCurve
for the identity and for a base point that is no entry of the point set. -/
def Obligations.BasePointIsValidated : Prop :=
  ∀ (s : State), s.cfg.wf = true → MemoInv s → PointSetAvailable s → 2 ≤ s.p.toNat →
    (s.p1.t = true ∨
      ¬ OnCurve s.a.toNat s.b.toNat s.p.toNat (s.p1.x.toNat % s.p.toNat) (s.p1.y.toNat % s.p.toNat)) →
    ∃ t, MemoEnsured s t ∧ exec .dhss s = .next (t.failed 0x00000007#32 3) ∧
      (∀ u, exec .encode s = .next u → u.status.done = true → exec .egenc s = .next (t.failed 0x00000008#32 3))

/-- 41_point_enumerator.md R114: when the memo is not valid and the curve has no point, or more than PS_DEPTH points, the
commands that consult the point set end as `enumerate` does. What PS holds afterwards is the model's choice and no rule of
the spec (log entry 4, DEDUCED; 93_implementation_defined.md U11 leaves it unspecified): that it is unchanged on the empty
curve, and that one and the same memory serves for the three commands on too many points. -/
def Obligations.PointSetUnavailable : Prop :=
  ∀ (s : State), MemoInv s → s.status.psValid = false → 2 ≤ s.p.toNat →
    (s.points.length = 0 →
      exec .dhss s = .next (s.failed 0x00000007#32 2) ∧
      (npo2 s.msg.toNat ≤ s.p.toNat →
        exec .encode s = .next (s.failed 0x00000006#32 2) ∧ exec .egenc s = .next (s.failed 0x00000008#32 2))) ∧
    (s.cfg.psDepth < s.points.length →
      ∃ m, exec .dhss s = .next (({ s with ps := m } : State).failed 0x00000007#32 9) ∧
      (npo2 s.msg.toNat ≤ s.p.toNat →
        exec .encode s = .next (({ s with ps := m } : State).failed 0x00000006#32 9) ∧
        exec .egenc s = .next (({ s with ps := m } : State).failed 0x00000008#32 9)))

/-- 44_key_agreement_cipher.md R165, R166, on-contract: DHSS with a base point of the curve never fails, and its secret is
(K1·K2)·G by repeated addition. -/
def Obligations.DhssAgreesOnContract : Prop :=
  ∀ (s : State), s.cfg.wf = true → MemoInv s → PointSetAvailable s →
    CurveOnContract s.a.toNat s.b.toNat s.p.toNat → s.p1.t = false →
    OnCurve s.a.toNat s.b.toNat s.p.toNat (s.p1.x.toNat % s.p.toNat) (s.p1.y.toNat % s.p.toNat) →
    ∃ t S dAG dBG, MemoEnsured s t ∧
      timesPoint s.a.toNat s.p.toNat (rdpoint s.p1 s.p.toNat) (s.k1.toNat * s.k2.toNat) = .ok S ∧
      timesPoint s.a.toNat s.p.toNat (rdpoint s.p1 s.p.toNat) s.k1.toNat = .ok dAG ∧
      timesPoint s.a.toNat s.p.toNat (rdpoint s.p1 s.p.toNat) s.k2.toNat = .ok dBG ∧
      exec .dhss s = .next (t.succeeded 0x00000007#32
        { r1 := wrpoint S, r2 := wrpoint dAG, r3 := wrpoint dBG, agree := true })

/-- 44_key_agreement_cipher.md R168: EGENC: the ciphertext, the sender's public point and the encoder's outputs, of the
message that ENCODE encodes (the first candidate abscissa that carries a point, with its smallest y); a multiplication or
the addition that fails raises NotInvertible. -/
def Obligations.EgencWritesTheCiphertext : Prop :=
  ∀ (s : State) (cap h j qx qy x y : Nat), s.cfg.wf = true → MemoInv s → PointSetAvailable s → 2 ≤ s.p.toNat →
    IsLeastPowerOfTwo s.msg.toNat cap → cap ≤ s.p.toNat → h = s.p.toNat / cap → j < h →
    qx = (s.msg.toNat * h + j) % s.p.toNat → OnCurve s.a.toNat s.b.toNat s.p.toNat qx qy →
    (∀ y', y' < qy → ¬ OnCurve s.a.toNat s.b.toNat s.p.toNat qx y') →
    (∀ j' y', j' < j → ¬ OnCurve s.a.toNat s.b.toNat s.p.toNat ((s.msg.toNat * h + j') % s.p.toNat) y') →
    s.p1.t = false → x = s.p1.x.toNat % s.p.toNat → y = s.p1.y.toNat % s.p.toNat →
    OnCurve s.a.toNat s.b.toNat s.p.toNat x y →
    ∃ t, MemoEnsured s t ∧
      (∀ dAG dBG shared c1 : Point, smul (.aff x y) s.k2.toNat s.a.toNat s.p.toNat = .ok dBG →
        smul dBG s.k1.toNat s.a.toNat s.p.toNat = .ok shared →
        padd (.aff qx qy) shared s.a.toNat s.p.toNat = .ok c1 →
        smul (.aff x y) s.k1.toNat s.a.toNat s.p.toNat = .ok dAG →
        exec .egenc s = .next (t.succeeded 0x00000008#32
          { r1 := wrpoint c1, r2 := wrpoint dAG,
            r3 := { x := BitVec.ofNat 32 qx, y := BitVec.ofNat 32 qy, t := false },
            rm := BitVec.ofNat 32 cap, rh := BitVec.ofNat 32 h, rj := BitVec.ofNat 32 j })) ∧
      (∀ e, (smul (.aff x y) s.k2.toNat s.a.toNat s.p.toNat = .error e ∨
          smul (.aff x y) s.k1.toNat s.a.toNat s.p.toNat = .error e ∨
          ∃ dBG, smul (.aff x y) s.k2.toNat s.a.toNat s.p.toNat = .ok dBG ∧
            (smul dBG s.k1.toNat s.a.toNat s.p.toNat = .error e ∨
              ∃ shared, smul dBG s.k1.toNat s.a.toNat s.p.toNat = .ok shared ∧
                padd (.aff qx qy) shared s.a.toNat s.p.toNat = .error e)) →
        exec .egenc s = .next (t.failed 0x00000008#32 1))

/-- 44_key_agreement_cipher.md R169: EGDEC: the message point, or NotInvertible; the memo is neither read nor changed. -/
def Obligations.EgdecWritesTheMessagePoint : Prop :=
  ∀ (s : State),
    (s.p.toNat < 2 → exec .egdec s = .next (s.failed 0x0000000A#32 2)) ∧
    (2 ≤ s.p.toNat → ∀ shared qm : Point,
      smul (rdpoint s.p2 s.p.toNat) s.k2.toNat s.a.toNat s.p.toNat = .ok shared →
      padd (rdpoint s.p1 s.p.toNat) (pneg shared s.p.toNat) s.a.toNat s.p.toNat = .ok qm →
      exec .egdec s = .next (s.succeeded 0x0000000A#32 { r1 := wrpoint qm })) ∧
    (2 ≤ s.p.toNat → ∀ e, smul (rdpoint s.p2 s.p.toNat) s.k2.toNat s.a.toNat s.p.toNat = .error e →
      exec .egdec s = .next (s.failed 0x0000000A#32 1)) ∧
    (2 ≤ s.p.toNat → ∀ (shared : Point) (e : ErrKind),
      smul (rdpoint s.p2 s.p.toNat) s.k2.toNat s.a.toNat s.p.toNat = .ok shared →
      padd (rdpoint s.p1 s.p.toNat) (pneg shared s.p.toNat) s.a.toNat s.p.toNat = .error e →
      exec .egdec s = .next (s.failed 0x0000000A#32 1))

/-- 44_key_agreement_cipher.md R170: on-contract, EGDEC of what EGENC wrote, with the same K2 and curve, succeeds with the
message point in R1. -/
def Obligations.DecryptionRecoversThePoint : Prop :=
  ∀ (s t : State), s.cfg.wf = true → MemoInv s → CurveOnContract s.a.toNat s.b.toNat s.p.toNat →
    exec .egenc s = .next t → t.status.done = true →
    exec .egdec { t with p1 := t.r1, p2 := t.r2 } =
      .next (({ t with p1 := t.r1, p2 := t.r2 } : State).succeeded 0x0000000A#32 { r1 := t.r3 })

/-! ### Invariants -/

/-- 10_state.md R45: every step keeps the invariant of the memo: a valid memo holds exactly the points of the present curve, in
order, and an invalid one counts none. -/
def Obligations.StepKeepsTheMemoInvariant : Prop :=
  ∀ s t : State, s.cfg.wf = true → MemoInv s → step s = .next t → MemoInv t

/-- The canonical form of the point-set memory, indexes strictly rising and below PS_DEPTH, is kept by every step. That PS is
such a list is the model's choice (log entry 2); its depth is 10_state.md R43. -/
def Obligations.StepKeepsTheCanonicalForm : Prop :=
  ∀ s t : State, psWf s.cfg.psDepth s.ps = true → step s = .next t → psWf t.cfg.psDepth t.ps = true

/-- 10_state.md R29, R31, R38, 60_exceptions.md R185, R190: every step keeps what STATUS, ESTICKY and the result registers can
hold: DONE and ERR never both 1, only raised codes, code 6 never logged, and 0 in every result register while DONE = 0. -/
def Obligations.StepKeepsTheStatusInvariant : Prop :=
  ∀ s t : State, StatusInv s ∧ StickyInv s ∧ ResultsInv s → step s = .next t →
    StatusInv t ∧ StickyInv t ∧ ResultsInv t

/-- 10_state.md R23, R38, R39, R43: every step keeps every value within the implemented bits of its register or memory. -/
def Obligations.StepKeepsTheWidths : Prop :=
  ∀ s t : State, WidthInv s → step s = .next t → WidthInv t ∧ t.cfg = s.cfg

/-- The invariants hold after reset, for every implementation: those of the registers by 10_state.md R47. The canonical form,
and the part of the widths about PS, hold because nothing is listed in PS after reset, which is the model's choice (log
entry 2, DESIGN CHOICE): R47 gives the content of PS as unspecified. -/
def Obligations.ResetMeetsTheInvariants : Prop :=
  ∀ c : Config, psWf c.psDepth (State.resetOf c).ps = true ∧ MemoInv (State.resetOf c) ∧ StatusInv (State.resetOf c) ∧
    StickyInv (State.resetOf c) ∧ ResultsInv (State.resetOf c) ∧ WidthInv (State.resetOf c)

/-- 10_state.md R46: the memo changes the work a command does but never its results: with the memo dropped beforehand, every
command ends with the same STATUS but for PSVALID, the same log and the same result registers. -/
def Obligations.MemoNeverChangesResults : Prop :=
  ∀ (i : Instr) (s : State), MemoInv s →
    ∃ t u, exec i s = .next t ∧
      exec i { s with status := { s.status with psValid := false }, psCount := 0#32 } = .next u ∧
      u = { t with ps := u.ps, psCount := u.psCount, status := { t.status with psValid := u.status.psValid } }

/-- 10_state.md R43, 93_implementation_defined.md U11: entries of PS that are not valid are never observed: from two states that
differ in them alone, a step gives the same outcome, the same read data, and states that again differ in them alone. -/
def Obligations.HiddenEntriesAreNeverObserved : Prop :=
  ∀ s s' : State, SameButHiddenEntries s s' →
    (∃ t t', step s = .next t ∧ step s' = .next t' ∧ SameButHiddenEntries t t') ∨
    (∃ f, step s = .fault f ∧ step s' = .fault f)
end

