-- ==== Sys2Proof/Laws/State.lean ====
section
/-! SUPPORT. Laws/State.lean: what each update of the state does to each field, so that no proof unfolds an update. -/

namespace Sys2Proof.Machine

/-! ### `Clear()` (30_encoding.md R91) -/

@[simp] theorem clear_cfg (s : State) : (clear s).cfg = s.cfg := rfl
@[simp] theorem clear_cmd (s : State) : (clear s).cmd = s.cmd := rfl
@[simp] theorem clear_status (s : State) : (clear s).status = s.status.clear := rfl
@[simp] theorem clear_esticky (s : State) : (clear s).esticky = s.esticky := rfl
@[simp] theorem clear_p (s : State) : (clear s).p = s.p := rfl
@[simp] theorem clear_a (s : State) : (clear s).a = s.a := rfl
@[simp] theorem clear_b (s : State) : (clear s).b = s.b := rfl
@[simp] theorem clear_p1 (s : State) : (clear s).p1 = s.p1 := rfl
@[simp] theorem clear_p2 (s : State) : (clear s).p2 = s.p2 := rfl
@[simp] theorem clear_k1 (s : State) : (clear s).k1 = s.k1 := rfl
@[simp] theorem clear_k2 (s : State) : (clear s).k2 = s.k2 := rfl
@[simp] theorem clear_msg (s : State) : (clear s).msg = s.msg := rfl
@[simp] theorem clear_opa (s : State) : (clear s).opa = s.opa := rfl
@[simp] theorem clear_r1 (s : State) : (clear s).r1 = PointReg.zero := rfl
@[simp] theorem clear_r2 (s : State) : (clear s).r2 = PointReg.zero := rfl
@[simp] theorem clear_r3 (s : State) : (clear s).r3 = PointReg.zero := rfl
@[simp] theorem clear_rm (s : State) : (clear s).rm = 0#32 := rfl
@[simp] theorem clear_rh (s : State) : (clear s).rh = 0#32 := rfl
@[simp] theorem clear_rj (s : State) : (clear s).rj = 0#32 := rfl
@[simp] theorem clear_rs (s : State) : (clear s).rs = 0#32 := rfl
@[simp] theorem clear_psCount (s : State) : (clear s).psCount = s.psCount := rfl
@[simp] theorem clear_psAddr (s : State) : (clear s).psAddr = s.psAddr := rfl
@[simp] theorem clear_ps (s : State) : (clear s).ps = s.ps := rfl
@[simp] theorem clear_inbox (s : State) : (clear s).inbox = s.inbox := rfl
@[simp] theorem clear_rdata (s : State) : (clear s).rdata = s.rdata := rfl

/-! ### the first two lines of the frame (30_encoding.md R90) -/

@[simp] theorem beginCommand_cfg (w : Word) (s : State) : (beginCommand w s).cfg = s.cfg := rfl
@[simp] theorem beginCommand_cmd (w : Word) (s : State) : (beginCommand w s).cmd = w := rfl
@[simp] theorem beginCommand_status (w : Word) (s : State) : (beginCommand w s).status = s.status.clear := rfl
@[simp] theorem beginCommand_esticky (w : Word) (s : State) : (beginCommand w s).esticky = s.esticky := rfl
@[simp] theorem beginCommand_p (w : Word) (s : State) : (beginCommand w s).p = s.p := rfl
@[simp] theorem beginCommand_a (w : Word) (s : State) : (beginCommand w s).a = s.a := rfl
@[simp] theorem beginCommand_b (w : Word) (s : State) : (beginCommand w s).b = s.b := rfl
@[simp] theorem beginCommand_p1 (w : Word) (s : State) : (beginCommand w s).p1 = s.p1 := rfl
@[simp] theorem beginCommand_p2 (w : Word) (s : State) : (beginCommand w s).p2 = s.p2 := rfl
@[simp] theorem beginCommand_k1 (w : Word) (s : State) : (beginCommand w s).k1 = s.k1 := rfl
@[simp] theorem beginCommand_k2 (w : Word) (s : State) : (beginCommand w s).k2 = s.k2 := rfl
@[simp] theorem beginCommand_msg (w : Word) (s : State) : (beginCommand w s).msg = s.msg := rfl
@[simp] theorem beginCommand_opa (w : Word) (s : State) : (beginCommand w s).opa = s.opa := rfl
@[simp] theorem beginCommand_r1 (w : Word) (s : State) : (beginCommand w s).r1 = PointReg.zero := rfl
@[simp] theorem beginCommand_r2 (w : Word) (s : State) : (beginCommand w s).r2 = PointReg.zero := rfl
@[simp] theorem beginCommand_r3 (w : Word) (s : State) : (beginCommand w s).r3 = PointReg.zero := rfl
@[simp] theorem beginCommand_rm (w : Word) (s : State) : (beginCommand w s).rm = 0#32 := rfl
@[simp] theorem beginCommand_rh (w : Word) (s : State) : (beginCommand w s).rh = 0#32 := rfl
@[simp] theorem beginCommand_rj (w : Word) (s : State) : (beginCommand w s).rj = 0#32 := rfl
@[simp] theorem beginCommand_rs (w : Word) (s : State) : (beginCommand w s).rs = 0#32 := rfl
@[simp] theorem beginCommand_psCount (w : Word) (s : State) : (beginCommand w s).psCount = s.psCount := rfl
@[simp] theorem beginCommand_psAddr (w : Word) (s : State) : (beginCommand w s).psAddr = s.psAddr := rfl
@[simp] theorem beginCommand_ps (w : Word) (s : State) : (beginCommand w s).ps = s.ps := rfl
@[simp] theorem beginCommand_inbox (w : Word) (s : State) : (beginCommand w s).inbox = s.inbox := rfl
@[simp] theorem beginCommand_rdata (w : Word) (s : State) : (beginCommand w s).rdata = s.rdata := rfl

/-! ### `raise` (60_exceptions.md R192) -/

@[simp] theorem raise_cfg (e : ErrKind) (s : State) : (raise e s).cfg = s.cfg := rfl
@[simp] theorem raise_cmd (e : ErrKind) (s : State) : (raise e s).cmd = s.cmd := rfl
@[simp] theorem raise_status (e : ErrKind) (s : State) : (raise e s).status = s.status.raise e := rfl
@[simp] theorem raise_esticky (e : ErrKind) (s : State) : (raise e s).esticky = stickySet e s.esticky := rfl
@[simp] theorem raise_p (e : ErrKind) (s : State) : (raise e s).p = s.p := rfl
@[simp] theorem raise_a (e : ErrKind) (s : State) : (raise e s).a = s.a := rfl
@[simp] theorem raise_b (e : ErrKind) (s : State) : (raise e s).b = s.b := rfl
@[simp] theorem raise_p1 (e : ErrKind) (s : State) : (raise e s).p1 = s.p1 := rfl
@[simp] theorem raise_p2 (e : ErrKind) (s : State) : (raise e s).p2 = s.p2 := rfl
@[simp] theorem raise_k1 (e : ErrKind) (s : State) : (raise e s).k1 = s.k1 := rfl
@[simp] theorem raise_k2 (e : ErrKind) (s : State) : (raise e s).k2 = s.k2 := rfl
@[simp] theorem raise_msg (e : ErrKind) (s : State) : (raise e s).msg = s.msg := rfl
@[simp] theorem raise_opa (e : ErrKind) (s : State) : (raise e s).opa = s.opa := rfl
@[simp] theorem raise_r1 (e : ErrKind) (s : State) : (raise e s).r1 = s.r1 := rfl
@[simp] theorem raise_r2 (e : ErrKind) (s : State) : (raise e s).r2 = s.r2 := rfl
@[simp] theorem raise_r3 (e : ErrKind) (s : State) : (raise e s).r3 = s.r3 := rfl
@[simp] theorem raise_rm (e : ErrKind) (s : State) : (raise e s).rm = s.rm := rfl
@[simp] theorem raise_rh (e : ErrKind) (s : State) : (raise e s).rh = s.rh := rfl
@[simp] theorem raise_rj (e : ErrKind) (s : State) : (raise e s).rj = s.rj := rfl
@[simp] theorem raise_rs (e : ErrKind) (s : State) : (raise e s).rs = s.rs := rfl
@[simp] theorem raise_psCount (e : ErrKind) (s : State) : (raise e s).psCount = s.psCount := rfl
@[simp] theorem raise_psAddr (e : ErrKind) (s : State) : (raise e s).psAddr = s.psAddr := rfl
@[simp] theorem raise_ps (e : ErrKind) (s : State) : (raise e s).ps = s.ps := rfl
@[simp] theorem raise_inbox (e : ErrKind) (s : State) : (raise e s).inbox = s.inbox := rfl
@[simp] theorem raise_rdata (e : ErrKind) (s : State) : (raise e s).rdata = s.rdata := rfl

/-! ### `Complete()` (30_encoding.md R95) -/

@[simp] theorem complete_cfg (r : Results) (s : State) : (complete r s).cfg = s.cfg := rfl
@[simp] theorem complete_cmd (r : Results) (s : State) : (complete r s).cmd = s.cmd := rfl
@[simp] theorem complete_status (r : Results) (s : State) : (complete r s).status = s.status.complete r.agree := rfl
@[simp] theorem complete_esticky (r : Results) (s : State) : (complete r s).esticky = s.esticky := rfl
@[simp] theorem complete_p (r : Results) (s : State) : (complete r s).p = s.p := rfl
@[simp] theorem complete_a (r : Results) (s : State) : (complete r s).a = s.a := rfl
@[simp] theorem complete_b (r : Results) (s : State) : (complete r s).b = s.b := rfl
@[simp] theorem complete_p1 (r : Results) (s : State) : (complete r s).p1 = s.p1 := rfl
@[simp] theorem complete_p2 (r : Results) (s : State) : (complete r s).p2 = s.p2 := rfl
@[simp] theorem complete_k1 (r : Results) (s : State) : (complete r s).k1 = s.k1 := rfl
@[simp] theorem complete_k2 (r : Results) (s : State) : (complete r s).k2 = s.k2 := rfl
@[simp] theorem complete_msg (r : Results) (s : State) : (complete r s).msg = s.msg := rfl
@[simp] theorem complete_opa (r : Results) (s : State) : (complete r s).opa = s.opa := rfl
@[simp] theorem complete_r1 (r : Results) (s : State) : (complete r s).r1 = r.r1 := rfl
@[simp] theorem complete_r2 (r : Results) (s : State) : (complete r s).r2 = r.r2 := rfl
@[simp] theorem complete_r3 (r : Results) (s : State) : (complete r s).r3 = r.r3 := rfl
@[simp] theorem complete_rm (r : Results) (s : State) : (complete r s).rm = r.rm := rfl
@[simp] theorem complete_rh (r : Results) (s : State) : (complete r s).rh = r.rh := rfl
@[simp] theorem complete_rj (r : Results) (s : State) : (complete r s).rj = r.rj := rfl
@[simp] theorem complete_rs (r : Results) (s : State) : (complete r s).rs = r.rs := rfl
@[simp] theorem complete_psCount (r : Results) (s : State) : (complete r s).psCount = s.psCount := rfl
@[simp] theorem complete_psAddr (r : Results) (s : State) : (complete r s).psAddr = s.psAddr := rfl
@[simp] theorem complete_ps (r : Results) (s : State) : (complete r s).ps = s.ps := rfl
@[simp] theorem complete_inbox (r : Results) (s : State) : (complete r s).inbox = s.inbox := rfl
@[simp] theorem complete_rdata (r : Results) (s : State) : (complete r s).rdata = s.rdata := rfl

/-! ### dropping the memo (10_state.md R32) -/

@[simp] theorem dropMemo_cfg (s : State) : (dropMemo s).cfg = s.cfg := rfl
@[simp] theorem dropMemo_cmd (s : State) : (dropMemo s).cmd = s.cmd := rfl
@[simp] theorem dropMemo_status (s : State) : (dropMemo s).status = { s.status with psValid := false } := rfl
@[simp] theorem dropMemo_esticky (s : State) : (dropMemo s).esticky = s.esticky := rfl
@[simp] theorem dropMemo_p (s : State) : (dropMemo s).p = s.p := rfl
@[simp] theorem dropMemo_a (s : State) : (dropMemo s).a = s.a := rfl
@[simp] theorem dropMemo_b (s : State) : (dropMemo s).b = s.b := rfl
@[simp] theorem dropMemo_p1 (s : State) : (dropMemo s).p1 = s.p1 := rfl
@[simp] theorem dropMemo_p2 (s : State) : (dropMemo s).p2 = s.p2 := rfl
@[simp] theorem dropMemo_k1 (s : State) : (dropMemo s).k1 = s.k1 := rfl
@[simp] theorem dropMemo_k2 (s : State) : (dropMemo s).k2 = s.k2 := rfl
@[simp] theorem dropMemo_msg (s : State) : (dropMemo s).msg = s.msg := rfl
@[simp] theorem dropMemo_opa (s : State) : (dropMemo s).opa = s.opa := rfl
@[simp] theorem dropMemo_r1 (s : State) : (dropMemo s).r1 = s.r1 := rfl
@[simp] theorem dropMemo_r2 (s : State) : (dropMemo s).r2 = s.r2 := rfl
@[simp] theorem dropMemo_r3 (s : State) : (dropMemo s).r3 = s.r3 := rfl
@[simp] theorem dropMemo_rm (s : State) : (dropMemo s).rm = s.rm := rfl
@[simp] theorem dropMemo_rh (s : State) : (dropMemo s).rh = s.rh := rfl
@[simp] theorem dropMemo_rj (s : State) : (dropMemo s).rj = s.rj := rfl
@[simp] theorem dropMemo_rs (s : State) : (dropMemo s).rs = s.rs := rfl
@[simp] theorem dropMemo_psCount (s : State) : (dropMemo s).psCount = 0#32 := rfl
@[simp] theorem dropMemo_psAddr (s : State) : (dropMemo s).psAddr = s.psAddr := rfl
@[simp] theorem dropMemo_ps (s : State) : (dropMemo s).ps = s.ps := rfl
@[simp] theorem dropMemo_inbox (s : State) : (dropMemo s).inbox = s.inbox := rfl
@[simp] theorem dropMemo_rdata (s : State) : (dropMemo s).rdata = s.rdata := rfl

/-! ### validating the memo (41_point_enumerator.md R112) -/

@[simp] theorem validateMemo_cfg (n : Nat) (s : State) : (validateMemo n s).cfg = s.cfg := rfl
@[simp] theorem validateMemo_cmd (n : Nat) (s : State) : (validateMemo n s).cmd = s.cmd := rfl
@[simp] theorem validateMemo_status (n : Nat) (s : State) : (validateMemo n s).status = { s.status with psValid := true } := rfl
@[simp] theorem validateMemo_esticky (n : Nat) (s : State) : (validateMemo n s).esticky = s.esticky := rfl
@[simp] theorem validateMemo_p (n : Nat) (s : State) : (validateMemo n s).p = s.p := rfl
@[simp] theorem validateMemo_a (n : Nat) (s : State) : (validateMemo n s).a = s.a := rfl
@[simp] theorem validateMemo_b (n : Nat) (s : State) : (validateMemo n s).b = s.b := rfl
@[simp] theorem validateMemo_p1 (n : Nat) (s : State) : (validateMemo n s).p1 = s.p1 := rfl
@[simp] theorem validateMemo_p2 (n : Nat) (s : State) : (validateMemo n s).p2 = s.p2 := rfl
@[simp] theorem validateMemo_k1 (n : Nat) (s : State) : (validateMemo n s).k1 = s.k1 := rfl
@[simp] theorem validateMemo_k2 (n : Nat) (s : State) : (validateMemo n s).k2 = s.k2 := rfl
@[simp] theorem validateMemo_msg (n : Nat) (s : State) : (validateMemo n s).msg = s.msg := rfl
@[simp] theorem validateMemo_opa (n : Nat) (s : State) : (validateMemo n s).opa = s.opa := rfl
@[simp] theorem validateMemo_r1 (n : Nat) (s : State) : (validateMemo n s).r1 = s.r1 := rfl
@[simp] theorem validateMemo_r2 (n : Nat) (s : State) : (validateMemo n s).r2 = s.r2 := rfl
@[simp] theorem validateMemo_r3 (n : Nat) (s : State) : (validateMemo n s).r3 = s.r3 := rfl
@[simp] theorem validateMemo_rm (n : Nat) (s : State) : (validateMemo n s).rm = s.rm := rfl
@[simp] theorem validateMemo_rh (n : Nat) (s : State) : (validateMemo n s).rh = s.rh := rfl
@[simp] theorem validateMemo_rj (n : Nat) (s : State) : (validateMemo n s).rj = s.rj := rfl
@[simp] theorem validateMemo_rs (n : Nat) (s : State) : (validateMemo n s).rs = s.rs := rfl
@[simp] theorem validateMemo_psCount (n : Nat) (s : State) : (validateMemo n s).psCount = regWord n := rfl
@[simp] theorem validateMemo_psAddr (n : Nat) (s : State) : (validateMemo n s).psAddr = s.psAddr := rfl
@[simp] theorem validateMemo_ps (n : Nat) (s : State) : (validateMemo n s).ps = s.ps := rfl
@[simp] theorem validateMemo_inbox (n : Nat) (s : State) : (validateMemo n s).inbox = s.inbox := rfl
@[simp] theorem validateMemo_rdata (n : Nat) (s : State) : (validateMemo n s).rdata = s.rdata := rfl

/-! ### `Clear` on STATUS -/

@[simp] theorem status_clear_done (st : Status) : (st.clear).done = false := rfl
@[simp] theorem status_clear_err (st : Status) : (st.clear).err = false := rfl
@[simp] theorem status_clear_errCode (st : Status) : (st.clear).errCode = 0#4 := rfl
@[simp] theorem status_clear_psValid (st : Status) : (st.clear).psValid = st.psValid := rfl
@[simp] theorem status_clear_agree (st : Status) : (st.clear).agree = false := rfl

/-! ### `raise` on STATUS -/

@[simp] theorem status_raise_done (e : ErrKind) (st : Status) : (st.raise e).done = st.done := rfl
@[simp] theorem status_raise_err (e : ErrKind) (st : Status) : (st.raise e).err = true := rfl
@[simp] theorem status_raise_errCode (e : ErrKind) (st : Status) : (st.raise e).errCode = BitVec.ofNat 4 e.code := rfl
@[simp] theorem status_raise_psValid (e : ErrKind) (st : Status) : (st.raise e).psValid = st.psValid := rfl
@[simp] theorem status_raise_agree (e : ErrKind) (st : Status) : (st.raise e).agree = st.agree := rfl

/-! ### `Complete` on STATUS -/

@[simp] theorem status_complete_done (b : Bool) (st : Status) : (st.complete b).done = true := rfl
@[simp] theorem status_complete_err (b : Bool) (st : Status) : (st.complete b).err = st.err := rfl
@[simp] theorem status_complete_errCode (b : Bool) (st : Status) : (st.complete b).errCode = st.errCode := rfl
@[simp] theorem status_complete_psValid (b : Bool) (st : Status) : (st.complete b).psValid = st.psValid := rfl
@[simp] theorem status_complete_agree (b : Bool) (st : Status) : (st.complete b).agree = b := rfl

end Sys2Proof.Machine
end

