-- ==== Sys2Proof/Laws/Field.lean ====
section
/-! SUPPORT. Laws/Field.lean: the floor modulo, and what the extended Euclidean algorithm and the modular inverse answer. -/

namespace Sys2Proof.Machine

/-- The floor modulo is in range (00_scope.md R9). -/
theorem floorMod_lt (n : Int) {p : Nat} (hp : 0 < p) : floorMod n p < p := by
  have := Int.emod_lt_of_pos n (Int.natCast_pos.2 hp)
  have := Int.emod_nonneg n (Int.natCast_ne_zero.2 hp.ne')
  unfold floorMod
  omega

/-- The floor modulo differs from its argument by a multiple of `p` (00_scope.md R9). -/
theorem floorMod_cast (n : Int) {p : Nat} (hp : 0 < p) : (floorMod n p : Int) = n % p := by
  have := Int.emod_nonneg n (Int.natCast_ne_zero.2 hp.ne')
  unfold floorMod
  omega

theorem floorMod_natCast (n p : Nat) : floorMod (n : Int) p = n % p := by
  unfold floorMod
  rw [← Int.natCast_emod, Int.toNat_natCast]

theorem floorMod_congr {m n : Int} {p : Nat} (h : m % p = n % p) : floorMod m p = floorMod n p := by
  unfold floorMod
  rw [h]

/-- In the ring of residues the floor modulo is the number itself. -/
theorem floorMod_zmod (n : Int) {p : Nat} (hp : 0 < p) : ((floorMod n p : Nat) : ZMod p) = (n : ZMod p) := by
  have h := congrArg (Int.cast : Int → ZMod p) (floorMod_cast n hp)
  rwa [Int.cast_natCast, ZMod.intCast_mod] at h

/-- The loop ends with the gcd of its remainders, and keeps `t·a0 ≡ r (mod p)` (40_field_arithmetic.md R101). -/
theorem euclid_spec (fuel r0 r1 : Nat) (t0 t1 : Int) (a0 : Int) (p : Nat) (hf : r1 ≤ fuel)
    (h0 : (p : Int) ∣ t0 * a0 - r0) (h1 : (p : Int) ∣ t1 * a0 - r1) :
    (euclid fuel r0 r1 t0 t1).1 = Nat.gcd r0 r1 ∧
    (p : Int) ∣ (euclid fuel r0 r1 t0 t1).2 * a0 - (euclid fuel r0 r1 t0 t1).1 := by
  induction fuel generalizing r0 r1 t0 t1 with
  | zero =>
    obtain rfl : r1 = 0 := by omega
    simpa [euclid] using h0
  | succ fuel ih =>
    simp only [euclid]
    split
    · next h => subst h; simpa using h0
    · next h =>
      have hq : r0 - r0 / r1 * r1 = r0 % r1 := by
        have := Nat.div_add_mod r0 r1
        rw [Nat.mul_comm] at this
        omega
      rw [hq]
      have hlt : r0 % r1 < r1 := Nat.mod_lt _ (Nat.pos_of_ne_zero h)
      have hr : ((r0 % r1 : Nat) : Int) = r0 - (r0 / r1 : Nat) * r1 := by
        have := Nat.div_add_mod r0 r1
        push_cast
        rw [Int.emod_def]
        ring
      have := ih r1 (r0 % r1) t1 (t0 - ((r0 / r1 : Nat) : Int) * t1) (by omega) h1 (by
        rw [hr]
        obtain ⟨u, hu⟩ := h0
        obtain ⟨v, hv⟩ := h1
        exact ⟨u - ((r0 / r1 : Nat) : Int) * v, by linear_combination hu - ((r0 / r1 : Nat) : Int) * hv⟩)
      rw [Nat.gcd_comm r1, ← Nat.gcd_rec, Nat.gcd_comm] at this
      exact this

/-- `inv` answers exactly the inverse in [0, p) (40_field_arithmetic.md R100). -/
theorem inv_eq_ok_iff {a p x : Nat} (hp : 2 ≤ p) : inv a p = .ok x ↔ x < p ∧ a * x % p = 1 := by
  have hp0 : 0 < p := by omega
  obtain ⟨hg, hd⟩ := euclid_spec p p (a % p) 0 1 a p (Nat.mod_lt a hp0).le (by simp) (by
    push_cast
    rw [one_mul]
    exact Int.dvd_self_sub_emod)
  have hg' : Nat.gcd p (a % p) = Nat.gcd a p := by rw [Nat.gcd_comm p, ← Nat.gcd_rec, Nat.gcd_comm]
  rw [hg'] at hg
  simp only [inv, hg] at hd ⊢
  split
  · next h1 =>
    rw [h1] at hd
    have hx : a * floorMod (euclid p p (a % p) 0 1).2 p % p = 1 := by
      have : (a : Int) * floorMod (euclid p p (a % p) 0 1).2 p % p = 1 % p := by
        rw [floorMod_cast _ hp0, Int.mul_emod, Int.emod_emod, ← Int.mul_emod, mul_comm]
        exact Int.emod_eq_emod_iff_emod_sub_eq_zero.2 (Int.emod_eq_zero_of_dvd (by simpa using hd))
      have h2 : (1 : Int) % p = 1 := Int.emod_eq_of_lt (by omega) (by omega)
      rw [h2] at this
      exact_mod_cast this
    constructor
    · intro h
      obtain rfl := Except.ok.inj h
      exact ⟨floorMod_lt _ hp0, hx⟩
    · rintro ⟨hlt, h⟩
      congr 1
      have hc : a * floorMod (euclid p p (a % p) 0 1).2 p ≡ a * x [MOD p] := by
        unfold Nat.ModEq; rw [hx, h]
      exact Nat.ModEq.eq_of_lt_of_lt (Nat.ModEq.cancel_left_of_coprime (by rw [Nat.gcd_comm]; exact h1) hc)
        (floorMod_lt _ hp0) hlt
  · next h1 =>
    constructor
    · intro h; cases h
    · rintro ⟨hlt, h⟩
      refine absurd ?_ h1
      have : Nat.gcd a p ∣ a * x % p :=
        (Nat.dvd_mod_iff (Nat.gcd_dvd_right a p)).2 ((Nat.gcd_dvd_left a p).mul_right x)
      rw [h] at this
      exact Nat.dvd_one.1 this

/-- `inv` fails exactly where the gcd is not 1, and then with `NotInvertible` (40_field_arithmetic.md R100). -/
theorem inv_eq_error_iff {a p : Nat} {e : ErrKind} (hp : 2 ≤ p) :
    inv a p = .error e ↔ e = .notInvertible ∧ Nat.gcd a p ≠ 1 := by
  have hp0 : 0 < p := by omega
  obtain ⟨hg, -⟩ := euclid_spec p p (a % p) 0 1 a p (Nat.mod_lt a hp0).le (by simp) (by
    push_cast
    rw [one_mul]
    exact Int.dvd_self_sub_emod)
  have hg' : Nat.gcd p (a % p) = Nat.gcd a p := by rw [Nat.gcd_comm p, ← Nat.gcd_rec, Nat.gcd_comm]
  rw [hg'] at hg
  simp only [inv, hg]
  split <;> simp_all [eq_comm]

/-- `inv` is total: an inverse exists exactly when the gcd is 1 (40_field_arithmetic.md R100). -/
theorem exists_inv_iff {a p : Nat} (hp : 2 ≤ p) : (∃ x, inv a p = .ok x) ↔ Nat.gcd a p = 1 := by
  cases h : inv a p with
  | ok x =>
    refine ⟨fun _ => ?_, fun _ => ⟨x, rfl⟩⟩
    by_contra hg
    exact absurd ((inv_eq_error_iff (e := .notInvertible) hp).2 ⟨rfl, hg⟩) (by rw [h]; simp)
  | error e => simpa using ((inv_eq_error_iff hp).1 h).2

/-- A nonzero residue modulo a prime has an inverse (40_field_arithmetic.md R102). -/
theorem exists_inv_of_prime {a p : Nat} (hp : p.Prime) (ha : a % p ≠ 0) : ∃ x, inv a p = .ok x :=
  (exists_inv_iff hp.two_le).2 (Nat.coprime_comm.1 ((Nat.Prime.coprime_iff_not_dvd hp).2
    fun h => ha (Nat.mod_eq_zero_of_dvd h)))

end Sys2Proof.Machine
end

