-- ==== Sys2Proof/Laws/Group.lean ====
section
/-! SUPPORT. Laws/Group.lean: what the group operations answer, for any modulus and any points (42_point_group.md). -/

namespace Sys2Proof.Machine

/-! ### The cases of `padd` (42_point_group.md R122, R123, R129) -/

@[simp] theorem padd_inf_left (Q : Point) (a p : Nat) : padd .inf Q a p = .ok Q := by
  cases Q <;> rfl

@[simp] theorem padd_inf_right (P : Point) (a p : Nat) : padd P .inf a p = .ok P := by
  cases P <;> rfl

theorem padd_inverse {x y1 y2 p : Nat} (a : Nat) (h : (y1 + y2) % p = 0) :
    padd (.aff x y1) (.aff x y2) a p = .ok .inf := by
  simp [padd, h]

theorem padd_double {x y p : Nat} (a : Nat) (h : 2 * y % p ≠ 0) :
    padd (.aff x y) (.aff x y) a p =
      (inv (2 * y % p) p).map fun di => slopeResult ((3 * x * x + a) % p * di % p) x y x p := by
  have h' : ¬ (y + y) % p = 0 := by rwa [← two_mul]
  simp only [padd, h', and_false, if_false, true_and, if_true]
  cases inv (2 * y % p) p <;> rfl

theorem padd_distinct {x1 y1 x2 y2 p : Nat} (a : Nat) (h1 : ¬ (x1 = x2 ∧ (y1 + y2) % p = 0))
    (h2 : ¬ (x1 = x2 ∧ y1 = y2)) :
    padd (.aff x1 y1) (.aff x2 y2) a p =
      (inv (floorMod ((x2 : Int) - x1) p) p).map fun di =>
        slopeResult (floorMod ((y2 : Int) - y1) p * di % p) x1 y1 x2 p := by
  simp only [padd, h1, h2, if_false]
  cases inv (floorMod ((x2 : Int) - x1) p) p <;> rfl

/-- Doubling is the addition of a point to itself, for every `p` (42_point_group.md R124). -/
theorem pdbl_eq_padd (P : Point) (a p : Nat) : pdbl P a p = padd P P a p := by
  cases P with
  | inf => rfl
  | aff x y =>
    by_cases h : 2 * y % p = 0
    · rw [padd_inverse a (by rwa [← two_mul])]
      simp [pdbl, h]
    · rw [padd_double a h]
      simp only [pdbl, h, if_false]
      cases inv (2 * y % p) p <;> rfl

/-! ### The only error is `NotInvertible`, and results are canonical residues -/

theorem slopeResult_reduced (lam x1 y1 x2 : Nat) {p : Nat} (hp : 0 < p) :
    PointReduced p (slopeResult lam x1 y1 x2 p) :=
  ⟨floorMod_lt _ hp, floorMod_lt _ hp⟩

/-- Everything `padd` can do: it ends in `NotInvertible`, or in a point, which is reduced if the operands are
(42_point_group.md R123). -/
theorem padd_spec (P Q : Point) (a : Nat) {p : Nat} (hp : 2 ≤ p) :
    (∃ R, padd P Q a p = .ok R ∧ (PointReduced p P → PointReduced p Q → PointReduced p R)) ∨
      padd P Q a p = .error .notInvertible := by
  have key : ∀ d (f : Nat → Point), (∀ x, PointReduced p (f x)) →
      (∃ R, (inv d p).map f = .ok R ∧ (PointReduced p P → PointReduced p Q → PointReduced p R)) ∨
        (inv d p).map f = .error .notInvertible := by
    intro d f hf
    cases h : inv d p with
    | ok x => exact .inl ⟨f x, rfl, fun _ _ => hf x⟩
    | error e =>
      obtain ⟨rfl, -⟩ := (inv_eq_error_iff hp).1 h
      exact .inr rfl
  cases P with
  | inf => exact .inl ⟨Q, by simp, fun _ h => h⟩
  | aff x1 y1 =>
    cases Q with
    | inf => exact .inl ⟨_, by simp, fun h _ => h⟩
    | aff x2 y2 =>
      by_cases h1 : x1 = x2 ∧ (y1 + y2) % p = 0
      · obtain ⟨rfl, h1⟩ := h1
        exact .inl ⟨.inf, padd_inverse a h1, fun _ _ => trivial⟩
      · by_cases h2 : x1 = x2 ∧ y1 = y2
        · obtain ⟨rfl, rfl⟩ := h2
          rw [padd_double a (by rw [two_mul]; exact fun h => h1 ⟨rfl, h⟩)]
          exact key _ _ fun _ => slopeResult_reduced _ _ _ _ (by omega)
        · rw [padd_distinct a h1 h2]
          exact key _ _ fun _ => slopeResult_reduced _ _ _ _ (by omega)

/-- Everything `pdbl` can do (42_point_group.md R124). -/
theorem pdbl_spec (P : Point) (a : Nat) {p : Nat} (hp : 2 ≤ p) :
    (∃ R, pdbl P a p = .ok R ∧ (PointReduced p P → PointReduced p R)) ∨ pdbl P a p = .error .notInvertible := by
  rw [pdbl_eq_padd]
  rcases padd_spec P P a hp with ⟨R, h, hR⟩ | h
  · exact .inl ⟨R, h, fun hP => hR hP hP⟩
  · exact .inr h

/-- Everything the loop of `smul` can do (42_point_group.md R127). -/
theorem smulLoop_spec (a : Nat) {p : Nat} (hp : 2 ≤ p) (fuel n : Nat) (R Q : Point) :
    (∃ S, smulLoop a p fuel n R Q = .ok S ∧ (PointReduced p R → PointReduced p Q → PointReduced p S)) ∨
      smulLoop a p fuel n R Q = .error .notInvertible := by
  induction fuel generalizing n R Q with
  | zero => exact .inl ⟨R, rfl, fun h _ => h⟩
  | succ fuel ih =>
    have hstep : (∃ R', addIfOdd n R Q a p = .ok R' ∧ (PointReduced p R → PointReduced p Q → PointReduced p R')) ∨
        addIfOdd n R Q a p = .error .notInvertible := by
      unfold addIfOdd
      split
      · exact padd_spec R Q a hp
      · exact .inl ⟨R, rfl, fun h _ => h⟩
    rcases hstep with ⟨R', he, hR'⟩ | he
    · by_cases hz : n / 2 = 0
      · exact .inl ⟨R', by simp [smulLoop, he, bind, Except.bind, hz, pure, Except.pure], hR'⟩
      · rcases pdbl_spec Q a hp with ⟨Q', hq, hQ'⟩ | hq
        · rcases ih (n / 2) R' Q' with ⟨S, hs, hS⟩ | hs
          · exact .inl ⟨S, by simpa [smulLoop, he, hq, bind, Except.bind, hz] using hs,
              fun hR hQ => hS (hR' hR hQ) (hQ' hQ)⟩
          · exact .inr (by simpa [smulLoop, he, hq, bind, Except.bind, hz] using hs)
        · exact .inr (by simp [smulLoop, he, hq, bind, Except.bind, hz])
    · exact .inr (by simp [smulLoop, he, bind, Except.bind])

/-- Everything `smul` can do (42_point_group.md R127). -/
theorem smul_spec (P : Point) (k a : Nat) {p : Nat} (hp : 2 ≤ p) :
    (∃ S, smul P k a p = .ok S ∧ (PointReduced p P → PointReduced p S)) ∨ smul P k a p = .error .notInvertible := by
  unfold smul
  split
  · exact .inl ⟨.inf, rfl, fun _ => trivial⟩
  · rcases smulLoop_spec a hp k k .inf P with ⟨S, h, hS⟩ | h
    · exact .inl ⟨S, h, hS trivial⟩
    · exact .inr h

theorem smul_zero (P : Point) (a p : Nat) : smul P 0 a p = .ok .inf := by simp [smul]

theorem smul_inf (k a p : Nat) : smul .inf k a p = .ok .inf := by simp [smul]

theorem smul_one (P : Point) (a p : Nat) : smul P 1 a p = .ok P := by
  cases P <;> simp [smul, smulLoop, addIfOdd, bind, Except.bind, pure, Except.pure]

theorem pneg_reduced {P : Point} {p : Nat} (hp : 0 < p) (hP : PointReduced p P) : PointReduced p (pneg P p) := by
  cases P with
  | inf => trivial
  | aff x y => exact ⟨hP.1, Nat.mod_lt _ hp⟩

theorem rdpoint_reduced (r : PointReg) {p : Nat} (hp : 0 < p) : PointReduced p (rdpoint r p) := by
  unfold rdpoint
  split
  · trivial
  · exact ⟨Nat.mod_lt _ hp, Nat.mod_lt _ hp⟩

/-- A point and its negation add up to the identity (42_point_group.md R132, fifth law). -/
theorem padd_pneg {P : Point} {a p : Nat} (hP : PointReduced p P) : padd P (pneg P p) a p = .ok .inf := by
  cases P with
  | inf => rfl
  | aff x y =>
    refine padd_inverse a ?_
    rw [Nat.add_mod, Nat.mod_mod, ← Nat.add_mod, Nat.add_sub_cancel' hP.2.le, Nat.mod_self]

/-- A reduced point that is written to a result register reads back from an operand register (00_scope.md R12). -/
theorem rdpoint_wrpoint {R : Point} {p : Nat} (hp : p ≤ 2 ^ 32) (h : PointReduced p R) : rdpoint (wrpoint R) p = R := by
  cases R with
  | inf => rfl
  | aff x y =>
    obtain ⟨hx, hy⟩ := h
    simp only [rdpoint, wrpoint, regWord, BitVec.toNat_ofNat]
    rw [Nat.mod_eq_of_lt (a := x) (by omega), Nat.mod_eq_of_lt (a := y) (by omega), Nat.mod_eq_of_lt hx,
      Nat.mod_eq_of_lt hy]
    rfl

end Sys2Proof.Machine
end

