-- ==== Sys2Proof/Laws/Memory.lean ====
section
/-! SUPPORT. Laws/Memory.lean: the point-set memory: read after write, and every write keeps the canonical form. -/

namespace Sys2Proof.Machine

@[simp] theorem psRead_nil (i : Nat) : psRead [] i = none := rfl

/-- An entry written reads back, and every other entry is as before (00_scope.md R8). -/
@[simp] theorem psRead_psWrite (m : PsMem) (i : Nat) (e : PsEntry) (k : Nat) :
    psRead (psWrite m i e) k = if k = i then some e else psRead m k := by
  induction m with
  | nil => simp [psWrite, psRead]
  | cons c rest ih =>
    obtain ⟨j, f⟩ := c
    simp only [psWrite]
    split
    · simp [psRead]
    · split
      · subst_vars; simp only [psRead]; split <;> rfl
      · simp only [psRead, ih]
        split
        · subst_vars
          rw [if_neg (by omega)]
        · rfl

theorem psRising_mono {depth lo lo' : Nat} {m : PsMem} (h : psRising depth lo m = true) (hl : lo' ≤ lo) :
    psRising depth lo' m = true := by
  cases m with
  | nil => rfl
  | cons c rest =>
    obtain ⟨j, f⟩ := c
    simp only [psRising, Bool.and_eq_true, decide_eq_true_eq] at h ⊢
    exact ⟨⟨by omega, h.1.2⟩, h.2⟩

theorem psRising_psWrite {depth lo : Nat} {m : PsMem} (hm : psRising depth lo m = true) {i : Nat} (hlo : lo ≤ i)
    (hi : i < depth) (e : PsEntry) : psRising depth lo (psWrite m i e) = true := by
  induction m generalizing lo with
  | nil => simp [psWrite, psRising]; omega
  | cons c rest ih =>
    obtain ⟨j, f⟩ := c
    simp only [psRising, Bool.and_eq_true, decide_eq_true_eq] at hm
    simp only [psWrite]
    split
    · simp only [psRising, Bool.and_eq_true, decide_eq_true_eq]
      exact ⟨⟨hlo, hi⟩, ⟨by omega, hm.1.2⟩, hm.2⟩
    · split
      · subst_vars; simp [psRising, hm]
      · simp only [psRising, Bool.and_eq_true, decide_eq_true_eq]
        exact ⟨hm.1, ih hm.2 (by omega)⟩

/-- A write inside PS_DEPTH keeps the canonical form. -/
theorem psWf_psWrite {depth : Nat} {m : PsMem} (hm : psWf depth m = true) {i : Nat} (hi : i < depth) (e : PsEntry) :
    psWf depth (psWrite m i e) = true := psRising_psWrite hm (Nat.zero_le i) hi e

/-- Every cell of the memory after a write is the one written or one of before. -/
theorem mem_psWrite {m : PsMem} {i : Nat} {e : PsEntry} {c : Nat × PsEntry} (h : c ∈ psWrite m i e) :
    c = (i, e) ∨ c ∈ m := by
  induction m with
  | nil => simpa [psWrite] using h
  | cons d rest ih =>
    obtain ⟨j, f⟩ := d
    simp only [psWrite] at h
    split at h
    · simpa using h
    · split at h
      · rcases List.mem_cons.1 h with h | h
        · exact .inl h
        · exact .inr (List.mem_cons_of_mem _ h)
      · rcases List.mem_cons.1 h with h | h
        · exact .inr (h ▸ List.mem_cons_self ..)
        · exact (ih h).imp id (List.mem_cons_of_mem _)

/-- A read of a listed memory answers one of its cells. -/
theorem mem_of_psRead {m : PsMem} {i : Nat} {e : PsEntry} (h : psRead m i = some e) : (i, e) ∈ m := by
  induction m with
  | nil => simp at h
  | cons d rest ih =>
    obtain ⟨j, f⟩ := d
    simp only [psRead] at h
    split at h
    · subst_vars; simp_all
    · exact List.mem_cons_of_mem _ (ih h)

/-- The memory after reset has the canonical form. -/
theorem reset_psWf (c : Config) : psWf c.psDepth (State.resetOf c).ps = true := rfl

/-- The scan's writes keep the canonical form (41_point_enumerator.md R112). -/
theorem storePoints_psWf {depth : Nat} (pts : List (Nat × Nat)) (n : Nat) {m : PsMem} (hm : psWf depth m = true)
    (hn : n ≤ depth) : psWf depth (storePoints depth pts n m).1 = true := by
  induction pts generalizing n m with
  | nil => exact hm
  | cons pt rest ih =>
    simp only [storePoints]
    split
    · exact hm
    · exact ih (n + 1) (psWf_psWrite hm (by omega) _) (by omega)

/-- The scan's writes add nothing but entries of the scan (41_point_enumerator.md R112). -/
theorem mem_storePoints {depth : Nat} {pts : List (Nat × Nat)} {n : Nat} {m : PsMem} {c : Nat × PsEntry}
    (h : c ∈ (storePoints depth pts n m).1) : c ∈ m ∨ ∃ pt ∈ pts, c.2 = psEntry pt := by
  induction pts generalizing n m with
  | nil => exact .inl h
  | cons pt rest ih =>
    simp only [storePoints] at h
    split at h
    · exact .inl h
    · rcases ih h with h | ⟨q, hq, hc⟩
      · rcases mem_psWrite h with rfl | h
        · exact .inr ⟨pt, by simp, rfl⟩
        · exact .inl h
      · exact .inr ⟨q, by simp [hq], hc⟩

/-- The scan's writes leave the entries below the counter (41_point_enumerator.md R112). -/
theorem psRead_storePoints_below {depth : Nat} (pts : List (Nat × Nat)) {n : Nat} (m : PsMem) {k : Nat} (hk : k < n) :
    psRead (storePoints depth pts n m).1 k = psRead m k := by
  induction pts generalizing n m with
  | nil => rfl
  | cons pt rest ih =>
    simp only [storePoints]
    split
    · rfl
    · rw [ih (psWrite m n (psEntry pt)) (by omega), psRead_psWrite, if_neg (by omega)]

/-- What the scan's writes do from counter `n` (41_point_enumerator.md R112): either all points fit, the counter ends behind
them, the entries from `n` on hold them in order and the rest is untouched; or they do not fit: `SetOverflow`. -/
theorem storePoints_spec (depth : Nat) (pts : List (Nat × Nat)) (n : Nat) (m : PsMem) (hn : n ≤ depth) :
    (n + pts.length ≤ depth ∧ (storePoints depth pts n m).2 = .ok (n + pts.length) ∧
      (∀ k, psRead (storePoints depth pts n m).1 (n + k) =
        if k < pts.length then (pts[k]?).map psEntry else psRead m (n + k))) ∨
    (depth < n + pts.length ∧ (storePoints depth pts n m).2 = .error .setOverflow) := by
  induction pts generalizing n m with
  | nil => exact .inl ⟨hn, rfl, fun k => by simp [storePoints]⟩
  | cons pt rest ih =>
    simp only [storePoints]
    split
    · next h => exact .inr ⟨by simp [h], rfl⟩
    · next h =>
      rcases ih (n + 1) (psWrite m n (psEntry pt)) (by omega) with ⟨ha, hb, hc⟩ | ⟨ha, hb⟩
      · refine .inl ⟨by simp; omega, by rw [hb]; simp; omega, fun k => ?_⟩
        cases k with
        | zero =>
          have := psRead_storePoints_below (depth := depth) rest (psWrite m n (psEntry pt)) (Nat.lt_succ_self n)
          simpa using this
        | succ k =>
          rw [show n + (k + 1) = n + 1 + k by omega, hc k, psRead_psWrite, if_neg (show ¬ n + 1 + k = n by omega)]
          simp
      · exact .inr ⟨by simp; omega, hb⟩

end Sys2Proof.Machine
end

