-- ==== Sys2Proof/Laws/PointSet.lean ====
section
/-! SUPPORT. Laws/PointSet.lean: the enumeration, the memo and the two lookups. -/

namespace Sys2Proof.Machine

theorem onCurveTest_iff (a b p x y : Nat) :
    onCurveTest a b p x y = true ↔ y * y % p = (x * x * x + a * x + b) % p := by
  simp [onCurveTest, curveResidue]

/-- The list holds exactly the on-curve pairs (41_point_enumerator.md R111). -/
theorem mem_enumPoints {a b p x y : Nat} : (x, y) ∈ enumPoints a b p ↔ OnCurve a b p x y := by
  simp only [enumPoints, List.mem_flatMap, List.mem_map, List.mem_filter, List.mem_range, onCurveTest_iff, OnCurve]
  constructor
  · rintro ⟨x', hx, y', ⟨hy, h⟩, heq⟩
    obtain ⟨rfl, rfl⟩ := Prod.mk.inj heq
    exact ⟨hx, hy, h⟩
  · rintro ⟨hx, hy, h⟩
    exact ⟨x, hx, y, ⟨hy, h⟩, rfl⟩

/-- The list is strictly ascending (10_state.md R44, 41_point_enumerator.md R111). -/
theorem enumPoints_ascending (a b p : Nat) : (enumPoints a b p).Pairwise PointBefore := by
  unfold enumPoints
  rw [List.pairwise_flatMap]
  constructor
  · intro x _
    rw [List.pairwise_map]
    exact (List.pairwise_lt_range.filter _).imp fun h => .inr ⟨rfl, h⟩
  · refine List.pairwise_lt_range.imp fun {x x'} hx q hq r hr => ?_
    simp only [List.mem_map] at hq hr
    obtain ⟨_, _, rfl⟩ := hq
    obtain ⟨_, _, rfl⟩ := hr
    exact .inl hx

theorem psEntry_x {a b p : Nat} {pt : Nat × Nat} (h : pt ∈ enumPoints a b p) (hp : p ≤ 2 ^ 32) :
    (psEntry pt).x.toNat = pt.1 := by
  obtain ⟨x, y⟩ := pt
  have := (mem_enumPoints.1 h).1
  simp only [psEntry, regWord, BitVec.toNat_ofNat]
  omega

theorem psEntry_y {a b p : Nat} {pt : Nat × Nat} (h : pt ∈ enumPoints a b p) (hp : p ≤ 2 ^ 32) :
    (psEntry pt).y.toNat = pt.2 := by
  obtain ⟨x, y⟩ := pt
  have := (mem_enumPoints.1 h).2.1
  simp only [psEntry, regWord, BitVec.toNat_ofNat]
  omega

/-- A memory holds a list when it has its length and each of its entries. -/
theorem holdsPoints_iff {m : PsMem} {n : Nat} {pts : List (Nat × Nat)} :
    HoldsPoints m n pts ↔ n = pts.length ∧ ∀ i, i < n → psRead m i = (pts[i]?).map psEntry := by
  unfold HoldsPoints
  constructor
  · intro h
    have hl : n = pts.length := by simpa using congrArg List.length h
    refine ⟨hl, fun i hi => ?_⟩
    have := congrArg (fun l => l[i]?) h
    simp only [List.getElem?_map, List.getElem?_range hi, Option.map_some] at this
    rw [List.getElem?_eq_getElem (by omega)] at this ⊢
    simpa using this
  · rintro ⟨rfl, h⟩
    apply List.ext_getElem?
    intro i
    simp only [List.getElem?_map]
    by_cases hi : i < pts.length
    · rw [List.getElem?_range hi, Option.map_some, h i hi, List.getElem?_eq_getElem hi]
      simp
    · rw [List.getElem?_eq_none (by simpa using hi), List.getElem?_eq_none (by omega)]
      simp

/-- `inPS` is membership (41_point_enumerator.md R115). -/
theorem inPS_iff {s : State} {a b p : Nat} (h : HoldsPoints s.ps s.psCount.toNat (enumPoints a b p)) (hp : p ≤ 2 ^ 32)
    (x y : Nat) : inPS s x y = true ↔ OnCurve a b p x y := by
  obtain ⟨hn, hr⟩ := holdsPoints_iff.1 h
  rw [← mem_enumPoints]
  simp only [inPS, List.any_eq_true, List.mem_range]
  constructor
  · rintro ⟨i, hi, he⟩
    rw [hr i hi, List.getElem?_eq_getElem (by omega)] at he
    have hm := List.getElem_mem (l := enumPoints a b p) (n := i) (by omega)
    simp only [Option.map_some, Bool.and_eq_true, beq_iff_eq, psEntry_x hm hp, psEntry_y hm hp] at he
    obtain ⟨rfl, rfl⟩ := he
    exact hm
  · intro hm
    obtain ⟨i, hi, he⟩ := List.getElem_of_mem hm
    refine ⟨i, by omega, ?_⟩
    rw [hr i (by omega), List.getElem?_eq_getElem hi, he]
    simp [psEntry_x hm hp, psEntry_y hm hp]

/-- `firstWithX` finds nothing exactly where no point has the abscissa (41_point_enumerator.md R115). -/
theorem firstWithX_eq_none_iff {s : State} {a b p : Nat} (h : HoldsPoints s.ps s.psCount.toNat (enumPoints a b p))
    (hp : p ≤ 2 ^ 32) (x : Nat) : firstWithX s x = none ↔ ∀ y, ¬ OnCurve a b p x y := by
  obtain ⟨hn, hr⟩ := holdsPoints_iff.1 h
  simp only [firstWithX, List.findSome?_eq_none_iff, List.mem_range]
  constructor
  · intro hnone y hy
    obtain ⟨i, hi, he⟩ := List.getElem_of_mem (mem_enumPoints.2 hy)
    have := hnone i (by omega)
    rw [hr i (by omega), List.getElem?_eq_getElem hi, he] at this
    simp [psEntry_x (mem_enumPoints.2 hy) hp] at this
  · intro hno i hi
    rw [hr i hi, List.getElem?_eq_getElem (by omega)]
    have hm := List.getElem_mem (l := enumPoints a b p) (n := i) (by omega)
    simp only [Option.map_some, psEntry_x hm hp]
    rw [if_neg]
    intro hx
    exact hno ((enumPoints a b p)[i]'(by omega)).2 (by rw [← mem_enumPoints, ← hx]; exact hm)

/-- `firstWithX` finds the point with the abscissa and the smallest `y` (41_point_enumerator.md R115). -/
theorem firstWithX_eq_some_iff {s : State} {a b p : Nat} (h : HoldsPoints s.ps s.psCount.toNat (enumPoints a b p))
    (hp : p ≤ 2 ^ 32) (x : Nat) (e : PsEntry) :
    firstWithX s x = some e ↔ ∃ y, e = psEntry (x, y) ∧ OnCurve a b p x y ∧ ∀ y', y' < y → ¬ OnCurve a b p x y' := by
  obtain ⟨hn, hr⟩ := holdsPoints_iff.1 h
  have key : ∀ e, firstWithX s x = some e →
      ∃ y, e = psEntry (x, y) ∧ OnCurve a b p x y ∧ ∀ y', y' < y → ¬ OnCurve a b p x y' := by
    intro e he
    unfold firstWithX at he
    rw [List.findSome?_eq_some_iff] at he
    obtain ⟨l₁, i, l₂, hsplit, hi, hbefore⟩ := he
    have hil : i = l₁.length := by
      have := congrArg (fun l => l[l₁.length]?) hsplit
      simp only [List.getElem?_append_right (Nat.le_refl _), Nat.sub_self, List.getElem?_cons_zero] at this
      obtain ⟨_, h⟩ := List.getElem?_eq_some_iff.1 this
      simpa using h.symm
    have hlen : l₁.length + (l₂.length + 1) = s.psCount.toNat := by
      have := congrArg List.length hsplit
      simpa using this.symm
    have hlt : i < s.psCount.toNat := by omega
    have hlt' : i < (enumPoints a b p).length := by omega
    have hm := List.getElem_mem (l := enumPoints a b p) (n := i) hlt'
    rw [hr i hlt, List.getElem?_eq_getElem hlt'] at hi
    simp only [Option.map_some, psEntry_x hm hp] at hi
    split at hi
    · next hx =>
      refine ⟨((enumPoints a b p)[i]).2, ?_, ?_, ?_⟩
      · rw [← hx]; simpa using hi.symm
      · rw [← mem_enumPoints, ← hx]; exact hm
      · intro y' hy' hc
        obtain ⟨k, hk, hke⟩ := List.getElem_of_mem (mem_enumPoints.2 hc)
        have hki : k < i := by
          by_contra hge
          have hne : k ≠ i := by
            rintro rfl
            rw [hke] at hy'
            simp at hy'
          have := List.pairwise_iff_getElem.1 (enumPoints_ascending a b p) i k hlt' hk (by omega)
          rw [hke] at this
          unfold PointBefore at this
          omega
        have hmem : k ∈ l₁ := by
          have h1 := congrArg (fun l => l[k]?) hsplit
          rw [List.getElem?_append_left (by omega), List.getElem?_range (by omega)] at h1
          exact List.mem_of_getElem? h1.symm
        have := hbefore k hmem
        rw [hr k (by omega), List.getElem?_eq_getElem hk, hke] at this
        simp [psEntry_x (mem_enumPoints.2 hc) hp] at this
    · cases hi
  refine ⟨key e, ?_⟩
  rintro ⟨y, rfl, hy, hmin⟩
  cases hf : firstWithX s x with
  | none => exact absurd hy ((firstWithX_eq_none_iff h hp x).1 hf y)
  | some e' =>
    obtain ⟨y', rfl, hy', hmin'⟩ := key e' hf
    have : y = y' := by
      rcases Nat.lt_trichotomy y y' with h | h | h
      · exact absurd hy (hmin' y h)
      · exact h
      · exact absurd hy' (hmin y' h)
    rw [this]

/-- Everything `enumerate` can do (41_point_enumerator.md R112): it succeeds on 1 to PS_DEPTH points and the memo then holds
them; it overflows on more; it finds no point; after an error the memo is not valid. -/
theorem enumerate_spec (s : State) :
    (1 ≤ s.points.length ∧ s.points.length ≤ s.cfg.psDepth ∧ (enumerate s).2 = .ok () ∧
      MemoComputed s (enumerate s).1) ∨
    (s.cfg.psDepth < s.points.length ∧ (enumerate s).2 = .error .setOverflow ∧
      (enumerate s).1 = { dropMemo s with ps := (enumerate s).1.ps }) ∨
    (s.points.length = 0 ∧ (enumerate s).2 = .error .invalidCurve ∧ (enumerate s).1 = dropMemo s) := by
  have hsp := storePoints_spec s.cfg.psDepth s.points 0 s.ps (Nat.zero_le _)
  simp only [Nat.zero_add] at hsp
  unfold enumerate
  simp only [State.points] at hsp ⊢
  rcases hsp with ⟨h1, h2, h3⟩ | ⟨h1, h2⟩
  · cases hst : storePoints s.cfg.psDepth (enumPoints s.a.toNat s.b.toNat s.p.toNat) 0 s.ps with
    | mk m r =>
      rw [hst] at h2 h3
      simp only at h2 h3
      subst h2
      simp only
      split
      · next hz =>
        refine .inr (.inr ⟨hz, rfl, ?_⟩)
        have hnil : enumPoints s.a.toNat s.b.toNat s.p.toNat = [] := List.length_eq_zero_iff.1 hz
        rw [hnil] at hst
        obtain ⟨rfl, -⟩ := Prod.mk.inj hst
        rfl
      · next hz =>
        refine .inl ⟨by omega, h1, rfl, ?_, fun i hi => ?_, rfl⟩
        · refine holdsPoints_iff.2 ⟨rfl, fun i hi => ?_⟩
          simpa [validateMemo, State.points] using (h3 i).trans (if_pos hi)
        · simpa [validateMemo] using (h3 i).trans (if_neg (Nat.not_lt.2 hi))
  · cases hst : storePoints s.cfg.psDepth (enumPoints s.a.toNat s.b.toNat s.p.toNat) 0 s.ps with
    | mk m r =>
      rw [hst] at h2
      simp only at h2
      subst h2
      exact .inr (.inl ⟨h1, rfl, rfl⟩)

/-- `enumerate` keeps the canonical form of the memory. -/
theorem enumerate_psWf {s : State} (h : psWf s.cfg.psDepth s.ps = true) :
    psWf s.cfg.psDepth (enumerate s).1.ps = true := by
  have := storePoints_psWf (enumPoints s.a.toNat s.b.toNat s.p.toNat) 0 h (Nat.zero_le _)
  unfold enumerate
  revert this
  cases storePoints s.cfg.psDepth (enumPoints s.a.toNat s.b.toNat s.p.toNat) 0 s.ps with
  | mk m r =>
    intro this
    cases r with
    | error e => exact this
    | ok n => simp only; split <;> exact this

/-- `enumerate` adds nothing to the memory but entries that hold on-curve points. -/
theorem mem_enumerate {s : State} {c : Nat × PsEntry} (h : c ∈ (enumerate s).1.ps) :
    c ∈ s.ps ∨ ∃ pt ∈ s.points, c.2 = psEntry pt := by
  refine mem_storePoints (depth := s.cfg.psDepth) (pts := s.points) (n := 0) (m := s.ps) ?_
  unfold enumerate at h
  unfold State.points
  revert h
  cases storePoints s.cfg.psDepth (enumPoints s.a.toNat s.b.toNat s.p.toNat) 0 s.ps with
  | mk m r =>
    cases r with
    | error e => exact id
    | ok n => simp only; split <;> exact id

/-- What `enumerate` leaves alone: everything but the memo (41_point_enumerator.md R112). -/
theorem enumerate_frame (s : State) :
    (enumerate s).1 =
      { s with ps := (enumerate s).1.ps, psCount := (enumerate s).1.psCount,
               status := { s.status with psValid := (enumerate s).1.status.psValid } } := by
  rcases enumerate_spec s with ⟨_, _, _, h⟩ | ⟨_, _, h⟩ | ⟨_, _, h⟩
  · rw [h.2.2]; rfl
  · rw [h]; rfl
  · rw [h]; rfl

/-- Everything `ensurePS` can do on a memo that satisfies 10_state.md R45 (41_point_enumerator.md R114). -/
theorem ensurePS_spec {s : State} (h : MemoInv s) :
    (PointSetAvailable s ∧ (ensurePS s).2 = .ok () ∧ MemoEnsured s (ensurePS s).1) ∨
    (s.status.psValid = false ∧ s.cfg.psDepth < s.points.length ∧ (ensurePS s).2 = .error .setOverflow ∧
      (ensurePS s).1 = { s with ps := (ensurePS s).1.ps }) ∨
    (s.status.psValid = false ∧ s.points.length = 0 ∧ (ensurePS s).2 = .error .invalidCurve ∧ (ensurePS s).1 = s) := by
  unfold ensurePS
  cases hv : s.status.psValid with
  | true =>
    obtain ⟨h1, h2, h3⟩ := h.1 hv
    have hn := (holdsPoints_iff.1 h3).1
    simp only [if_true]
    refine .inl ⟨.inl hv, trivial, ⟨hn ▸ h3, fun _ _ => rfl, ?_⟩, fun _ => rfl⟩
    have hc : s.psCount = BitVec.ofNat 32 s.points.length := by rw [← hn]; simp
    obtain ⟨cfg, cmd, ⟨done, err, errCode, psValid, agree⟩, _⟩ := s
    simp only at hv hc ⊢
    simp only [State.withMemo]
    rw [← hc, ← hv]
  | false =>
    have hc := h.2 hv
    have hd : dropMemo s = s := by
      obtain ⟨cfg, cmd, ⟨done, err, errCode, psValid, agree⟩, _⟩ := s
      simp only at hv hc
      subst hv hc
      rfl
    simp only [Bool.false_eq_true, if_false]
    rcases enumerate_spec s with ⟨h1, h2, h3, h4⟩ | ⟨h1, h2, h3⟩ | ⟨h1, h2, h3⟩
    · exact .inl ⟨.inr ⟨h1, h2⟩, h3, h4, fun h => by rw [hv] at h; cases h⟩
    · exact .inr (.inl ⟨trivial, h1, h2, hd ▸ h3⟩)
    · exact .inr (.inr ⟨trivial, h1, h2, hd ▸ h3⟩)

/-- What `ensurePS` leaves alone, from any state: everything but the memo (41_point_enumerator.md R114). -/
theorem ensurePS_frame (s : State) :
    (ensurePS s).1 =
      { s with ps := (ensurePS s).1.ps, psCount := (ensurePS s).1.psCount,
               status := { s.status with psValid := (ensurePS s).1.status.psValid } } := by
  unfold ensurePS
  split
  · rfl
  · exact enumerate_frame s

/-- A memo just computed holds the points, by its own counter (41_point_enumerator.md R112). -/
theorem MemoComputed.holds {s t : State} (hw : s.cfg.wf = true) (hl : s.points.length ≤ s.cfg.psDepth)
    (h : MemoComputed s t) : HoldsPoints t.ps t.psCount.toNat s.points := by
  obtain ⟨h1, -, h3⟩ := h
  simp only [Config.wf, Config.depthOk, Bool.and_eq_true, decide_eq_true_eq] at hw
  have : t.psCount.toNat = s.points.length := by
    rw [h3]
    simp only [State.withMemo, BitVec.toNat_ofNat]
    omega
  rwa [this]

/-- The invariant of 10_state.md R45 after a memo is computed. -/
theorem MemoComputed.memoInv {s t : State} (hw : s.cfg.wf = true) (h0 : 1 ≤ s.points.length)
    (hl : s.points.length ≤ s.cfg.psDepth) (h : MemoComputed s t) : MemoInv t := by
  have hh := h.holds hw hl
  have hn := (holdsPoints_iff.1 hh).1
  have hp : t.points = s.points ∧ t.cfg = s.cfg ∧ t.status.psValid = true := by rw [h.2.2]; exact ⟨rfl, rfl, rfl⟩
  refine ⟨fun _ => ⟨hn ▸ h0, ?_, hp.1 ▸ hh⟩, fun hv => by rw [hp.2.2] at hv; cases hv⟩
  rw [hn, hp.2.1]
  exact hl

/-- An available point set has between 1 and PS_DEPTH points (41_point_enumerator.md R112, 10_state.md R45). -/
theorem PointSetAvailable.bounds {s : State} (h : MemoInv s) (ha : PointSetAvailable s) :
    1 ≤ s.points.length ∧ s.points.length ≤ s.cfg.psDepth := by
  rcases ha with hv | ha
  · obtain ⟨h1, h2, h3⟩ := h.1 hv
    have := (holdsPoints_iff.1 h3).1
    omega
  · exact ha

/-- What `ensurePS` answers on an available point set (41_point_enumerator.md R114). -/
theorem ensurePS_of_available {s : State} (h : MemoInv s) (ha : PointSetAvailable s) :
    ∃ t, ensurePS s = (t, .ok ()) ∧ MemoEnsured s t := by
  have hb := ha.bounds h
  rcases ensurePS_spec h with ⟨-, h2, h3⟩ | ⟨-, h1, -⟩ | ⟨-, h1, -⟩
  · exact ⟨_, by rw [← h2], h3⟩
  · omega
  · omega

/-- `enumerate` keeps the invariant of 10_state.md R45. -/
theorem enumerate_memoInv {s : State} (hw : s.cfg.wf = true) : MemoInv (enumerate s).1 := by
  rcases enumerate_spec s with ⟨h1, h2, -, h3⟩ | ⟨-, -, h3⟩ | ⟨-, -, h3⟩
  · exact h3.memoInv hw h1 h2
  · rw [h3]; exact ⟨fun h => (by cases h), fun _ => rfl⟩
  · rw [h3]; exact ⟨fun h => (by cases h), fun _ => rfl⟩

/-- `ensurePS` keeps the invariant of 10_state.md R45. -/
theorem ensurePS_memoInv {s : State} (hw : s.cfg.wf = true) (h : MemoInv s) : MemoInv (ensurePS s).1 := by
  unfold ensurePS
  split
  · exact h
  · exact enumerate_memoInv hw

end Sys2Proof.Machine
end

