-- ==== Sys2Proof/Laws/Codec.lean ====
section
/-! SUPPORT. Laws/Codec.lean: the capacity bound and the search of the message codec (43_message_codec.md). -/

namespace Sys2Proof.Machine

theorem doubleUntil_spec (m fuel e : Nat) (hf : m ≤ 2 ^ e * 2 ^ fuel) (hmin : ∀ e', m ≤ 2 ^ e' → 2 ^ e ≤ 2 ^ e') :
    IsLeastPowerOfTwo m (doubleUntil m fuel (2 ^ e)) := by
  induction fuel generalizing e with
  | zero => exact ⟨⟨e, rfl⟩, by simpa [doubleUntil] using hf, hmin⟩
  | succ fuel ih =>
    simp only [doubleUntil]
    split
    · next h => exact ⟨⟨e, rfl⟩, h, hmin⟩
    · next h =>
      rw [← pow_succ']
      refine ih (e + 1) (by rw [pow_succ, mul_assoc, ← pow_succ']; exact hf) fun e' he' => ?_
      refine Nat.pow_le_pow_right (by norm_num) ?_
      by_contra hlt
      exact h (he'.trans (Nat.pow_le_pow_right (by norm_num) (by omega)))

/-- `npo2` is the least power of two that is at least its argument (43_message_codec.md R150). -/
theorem npo2_spec (m : Nat) : IsLeastPowerOfTwo m (npo2 m) := by
  have := doubleUntil_spec m m 0 (by simpa using Nat.lt_two_pow_self.le) fun e' _ => Nat.one_le_two_pow
  simpa [npo2] using this

/-- There is one least power of two (43_message_codec.md R150). -/
theorem IsLeastPowerOfTwo.eq_npo2 {m v : Nat} (h : IsLeastPowerOfTwo m v) : v = npo2 m := by
  obtain ⟨⟨e, rfl⟩, hle, hmin⟩ := h
  obtain ⟨⟨e', he'⟩, hle', hmin'⟩ := npo2_spec m
  exact Nat.le_antisymm (he' ▸ hmin e' (he' ▸ hle')) (hmin' e hle)

theorem npo2_pos (m : Nat) : 1 ≤ npo2 m := by
  obtain ⟨⟨e, he⟩, -⟩ := npo2_spec m
  rw [he]
  exact Nat.one_le_two_pow

theorem ksearchFrom_eq_ok_iff (s : State) (m h p left j0 : Nat) (e : PsEntry) (j : Nat) :
    ksearchFrom s m h p left j0 = .ok (e, j) ↔
      j0 ≤ j ∧ j < j0 + left ∧ firstWithX s ((m * h + j) % p) = some e ∧
        ∀ j', j0 ≤ j' → j' < j → firstWithX s ((m * h + j') % p) = none := by
  induction left generalizing j0 with
  | zero => simp [ksearchFrom]; omega
  | succ left ih =>
    simp only [ksearchFrom]
    cases hf : firstWithX s ((m * h + j0) % p) with
    | some e' =>
      simp only [Except.ok.injEq, Prod.mk.injEq]
      constructor
      · rintro ⟨rfl, rfl⟩
        exact ⟨le_refl _, by omega, hf, fun j' h1 h2 => by omega⟩
      · rintro ⟨h1, h2, h3, h4⟩
        rcases Nat.eq_or_lt_of_le h1 with rfl | hlt
        · rw [hf] at h3
          exact ⟨Option.some.inj h3, rfl⟩
        · have := h4 j0 (le_refl _) hlt
          rw [hf] at this
          cases this
    | none =>
      rw [ih]
      constructor
      · rintro ⟨h1, h2, h3, h4⟩
        refine ⟨by omega, by omega, h3, fun j' h5 h6 => ?_⟩
        rcases Nat.eq_or_lt_of_le h5 with rfl | hlt
        · exact hf
        · exact h4 j' (by omega) h6
      · rintro ⟨h1, h2, h3, h4⟩
        have : j0 ≠ j := by
          rintro rfl
          rw [hf] at h3
          cases h3
        exact ⟨by omega, by omega, h3, fun j' h5 h6 => h4 j' (by omega) h6⟩

theorem ksearchFrom_eq_error_iff (s : State) (m h p left j0 : Nat) (e : ErrKind) :
    ksearchFrom s m h p left j0 = .error e ↔
      e = .messageNotEncodable ∧ ∀ j, j0 ≤ j → j < j0 + left → firstWithX s ((m * h + j) % p) = none := by
  induction left generalizing j0 with
  | zero =>
    simp only [ksearchFrom, Except.error.injEq]
    exact ⟨fun h => ⟨h.symm, fun j h1 h2 => by omega⟩, fun h => h.1.symm⟩
  | succ left ih =>
    simp only [ksearchFrom]
    cases hf : firstWithX s ((m * h + j0) % p) with
    | some e' =>
      simp only [reduceCtorEq, false_iff]
      rintro ⟨-, h⟩
      have := h j0 (le_refl _) (by omega)
      rw [hf] at this
      cases this
    | none =>
      rw [ih]
      refine and_congr_right fun _ => ⟨fun h j h1 h2 => ?_, fun h j h1 h2 => h j (by omega) (by omega)⟩
      rcases Nat.eq_or_lt_of_le h1 with rfl | hlt
      · exact hf
      · exact h j (by omega) (by omega)

/-- Where `ksearch` finds a point: at the first offset whose abscissa carries one (43_message_codec.md R153). -/
theorem ksearch_eq_ok_iff (s : State) (m h p : Nat) (e : PsEntry) (j : Nat) :
    ksearch s m h p = .ok (e, j) ↔
      j < h ∧ firstWithX s ((m * h + j) % p) = some e ∧ ∀ j', j' < j → firstWithX s ((m * h + j') % p) = none := by
  unfold ksearch
  rw [ksearchFrom_eq_ok_iff]
  simp

/-- Where `ksearch` fails: none of the `h` candidates carries a point (43_message_codec.md R153). -/
theorem ksearch_eq_error_iff (s : State) (m h p : Nat) (e : ErrKind) :
    ksearch s m h p = .error e ↔
      e = .messageNotEncodable ∧ ∀ j, j < h → firstWithX s ((m * h + j) % p) = none := by
  unfold ksearch
  rw [ksearchFrom_eq_error_iff]
  simp

/-- Everything that encoding a message can do on a memo that satisfies 10_state.md R45 (43_message_codec.md R152 to R154):
the message is too large; the point set is not available; no candidate carries a point; or the first one that does. -/
theorem encodeMessage_spec {s : State} (hw : s.cfg.wf = true) (h : MemoInv s) :
    (s.p.toNat < npo2 s.msg.toNat ∧ encodeMessage s = (s, .error .messageTooLarge)) ∨
    (npo2 s.msg.toNat ≤ s.p.toNat ∧ s.status.psValid = false ∧ s.cfg.psDepth < s.points.length ∧
      encodeMessage s = ({ s with ps := (ensurePS s).1.ps }, .error .setOverflow)) ∨
    (npo2 s.msg.toNat ≤ s.p.toNat ∧ s.status.psValid = false ∧ s.points.length = 0 ∧
      encodeMessage s = (s, .error .invalidCurve)) ∨
    (npo2 s.msg.toNat ≤ s.p.toNat ∧ PointSetAvailable s ∧ MemoEnsured s (ensurePS s).1 ∧
      ((∀ j y, j < s.p.toNat / npo2 s.msg.toNat → ¬ OnCurve s.a.toNat s.b.toNat s.p.toNat
          ((s.msg.toNat * (s.p.toNat / npo2 s.msg.toNat) + j) % s.p.toNat) y) ∧
        encodeMessage s = ((ensurePS s).1, .error .messageNotEncodable) ∨
      ∃ j x y, j < s.p.toNat / npo2 s.msg.toNat ∧
        x = (s.msg.toNat * (s.p.toNat / npo2 s.msg.toNat) + j) % s.p.toNat ∧
        OnCurve s.a.toNat s.b.toNat s.p.toNat x y ∧
        (∀ y', y' < y → ¬ OnCurve s.a.toNat s.b.toNat s.p.toNat x y') ∧
        (∀ j' y', j' < j → ¬ OnCurve s.a.toNat s.b.toNat s.p.toNat
          ((s.msg.toNat * (s.p.toNat / npo2 s.msg.toNat) + j') % s.p.toNat) y') ∧
        encodeMessage s = ((ensurePS s).1,
          .ok { qm := .aff x y, cap := npo2 s.msg.toNat, h := s.p.toNat / npo2 s.msg.toNat, j := j }))) := by
  by_cases hc : s.p.toNat < npo2 s.msg.toNat
  · exact .inl ⟨hc, by simp [encodeMessage, hc]⟩
  have hle : npo2 s.msg.toNat ≤ s.p.toNat := by omega
  have hp := s.p.isLt.le
  right
  have hen : ∀ r, (ensurePS s).2 = r → encodeMessage s = match r with
      | .error e => ((ensurePS s).1, .error e)
      | .ok _ => match ksearch (ensurePS s).1 s.msg.toNat (s.p.toNat / npo2 s.msg.toNat) s.p.toNat with
        | .error e => ((ensurePS s).1, .error e)
        | .ok (pt, j) => ((ensurePS s).1, .ok
          { qm := .aff pt.x.toNat pt.y.toNat, cap := npo2 s.msg.toNat, h := s.p.toNat / npo2 s.msg.toNat, j := j }) := by
    rintro r rfl
    simp only [encodeMessage, hc, if_false]
    cases ensurePS s with
    | mk t r => cases r <;> rfl
  rcases ensurePS_spec h with ⟨ha, h2, h3⟩ | ⟨hv, h1, h2, h3⟩ | ⟨hv, h1, h2, h3⟩
  · refine .inr (.inr ⟨hle, ha, h3, ?_⟩)
    have hh := h3.1.holds hw (ha.bounds h).2
    simp only [State.points] at hh
    rw [hen _ h2]
    simp only
    cases hk : ksearch (ensurePS s).1 s.msg.toNat (s.p.toNat / npo2 s.msg.toNat) s.p.toNat with
    | error e =>
      obtain ⟨rfl, hno⟩ := (ksearch_eq_error_iff ..).1 hk
      exact .inl ⟨fun j y hj => (firstWithX_eq_none_iff hh hp _).1 (hno j hj) y, rfl⟩
    | ok q =>
      obtain ⟨e, j⟩ := q
      obtain ⟨hj, he, hno⟩ := (ksearch_eq_ok_iff ..).1 hk
      obtain ⟨y, rfl, hy, hmin⟩ := (firstWithX_eq_some_iff hh hp _ _).1 he
      refine .inr ⟨j, _, y, hj, rfl, hy, hmin, fun j' y' hj' => (firstWithX_eq_none_iff hh hp _).1 (hno j' hj') y', ?_⟩
      have hm := mem_enumPoints.2 hy
      simp only [psEntry_x hm hp, psEntry_y hm hp]
  · refine .inl ⟨hle, hv, h1, ?_⟩
    rw [hen _ h2]
    simp only
    rw [← h3]
  · refine .inr (.inl ⟨hle, hv, h1, ?_⟩)
    rw [hen _ h2]
    simp only
    rw [h3]

end Sys2Proof.Machine
end

