-- ==== Sys2Proof/Laws/Frame.lean ====
section
/-! SUPPORT. Laws/Frame.lean: everything a command can do, said once (30_encoding.md R90, 60_exceptions.md R200). -/

namespace Sys2Proof.Machine

/-- The state with another memo: the only thing a body may change before `Complete` or `raise` (30_encoding.md R90). -/
def State.memoChanged (ps : PsMem) (count : Word) (valid : Bool) (s : State) : State :=
  { s with ps := ps, psCount := count, status := { s.status with psValid := valid } }

/-- The errors that a command may raise (60_exceptions.md R200). -/
def mayRaise : Instr → List ErrKind
  | .modinv | .padd | .pdbl | .smul | .egdec => [.invalidCurve, .notInvertible]
  | .pneg => [.invalidCurve]
  | .enum => [.invalidCurve, .setOverflow]
  | .encode => [.invalidCurve, .messageTooLarge, .setOverflow, .messageNotEncodable]
  | .dhss => [.invalidCurve, .setOverflow, .pointNotOnCurve, .notInvertible, .secretMismatch]
  | .egenc => [.invalidCurve, .messageTooLarge, .setOverflow, .messageNotEncodable, .pointNotOnCurve, .notInvertible]

/-- The commands that run `enumerate` or `ensurePS` (10_state.md R40). -/
def usesPointSet : Instr → Bool
  | .enum | .encode | .dhss | .egenc => true
  | .modinv | .padd | .pdbl | .smul | .pneg | .egdec => false

theorem complete_begin (w : Word) (r : Results) (s : State) : complete r (beginCommand w s) = s.succeeded w r := rfl

theorem raise_begin (w : Word) (e : ErrKind) (s : State) : raise e (beginCommand w s) = s.failed w e.code := rfl

/-- The frame of a legal command with P < 2 (30_encoding.md R93). -/
theorem commandFrame_small {s : State} (w : Word) (body : Body) (h : s.p.toNat < 2) :
    commandFrame w body s = s.failed w 2 := by
  rw [commandFrame, if_pos h]
  rfl

/-- The frame of a legal command with P ≥ 2 (30_encoding.md R90). -/
theorem commandFrame_large {s : State} (w : Word) (body : Body) (h : 2 ≤ s.p.toNat) :
    commandFrame w body s = finishCommand (body (beginCommand w s)) := by
  rw [commandFrame, if_neg (by omega)]

/-! ### The frame and the bodies: `reg[CMD] <- w ; Clear()` changes nothing that a body reads -/

theorem dropMemo_begin (w : Word) (s : State) : dropMemo (beginCommand w s) = beginCommand w (dropMemo s) := rfl

theorem enumerate_begin (w : Word) (s : State) :
    enumerate (beginCommand w s) = (beginCommand w (enumerate s).1, (enumerate s).2) := by
  unfold enumerate
  simp only [beginCommand_cfg, beginCommand_a, beginCommand_b, beginCommand_p, beginCommand_ps]
  split
  · rfl
  · split <;> rfl

theorem ensurePS_begin (w : Word) (s : State) :
    ensurePS (beginCommand w s) = (beginCommand w (ensurePS s).1, (ensurePS s).2) := by
  have hv : (beginCommand w s).status.psValid = s.status.psValid := rfl
  by_cases h : s.status.psValid = true
  · simp only [ensurePS, hv, h, if_true]
  · simp only [ensurePS, hv, h]
    exact enumerate_begin w s

theorem ksearchFrom_begin (w : Word) (s : State) (m h p left j : Nat) :
    ksearchFrom (beginCommand w s) m h p left j = ksearchFrom s m h p left j := by
  induction left generalizing j with
  | zero => rfl
  | succ left ih =>
    simp only [ksearchFrom, ih]
    rfl

theorem encodeMessage_begin (w : Word) (s : State) :
    encodeMessage (beginCommand w s) = (beginCommand w (encodeMessage s).1, (encodeMessage s).2) := by
  unfold encodeMessage
  simp only [ensurePS_begin, beginCommand_msg, beginCommand_p, ksearch]
  split
  · rfl
  · cases ensurePS s with
    | mk t r =>
      cases r with
      | error e => rfl
      | ok u =>
        simp only [ksearchFrom_begin]
        split <;> rfl

/-- The body of each command (30_encoding.md R90). -/
def bodyOf : Instr → Body
  | .modinv => pureBody modinvBody
  | .enum => enumBody
  | .padd => pureBody paddBody
  | .pdbl => pureBody pdblBody
  | .smul => pureBody smulBody
  | .encode => encodeBody
  | .dhss => dhssBody
  | .egenc => egencBody
  | .pneg => pureBody pnegBody
  | .egdec => pureBody egdecBody

theorem bodyOf_begin (i : Instr) (w : Word) (s : State) :
    bodyOf i (beginCommand w s) = (beginCommand w (bodyOf i s).1, (bodyOf i s).2) := by
  cases i with
  | modinv => rfl
  | padd => rfl
  | pdbl => rfl
  | smul => rfl
  | pneg => rfl
  | egdec => rfl
  | enum =>
    simp only [bodyOf, enumBody, enumerate_begin]
    cases enumerate s with
    | mk t r => cases r <;> rfl
  | encode =>
    simp only [bodyOf, encodeBody, encodeMessage_begin]
    cases encodeMessage s with
    | mk t r => cases r <;> rfl
  | dhss =>
    simp only [bodyOf, dhssBody, ensurePS_begin]
    cases ensurePS s with
    | mk t r => cases r <;> rfl
  | egenc =>
    simp only [bodyOf, egencBody, encodeMessage_begin]
    cases encodeMessage s with
    | mk t r => cases r <;> rfl

/-- The state a command ends in, from what its body answers. -/
def commandEnd (i : Instr) : State × Except ErrKind Results → State
  | (t, .ok r)    => t.succeeded (encodeCommand i) r
  | (t, .error e) => t.failed (encodeCommand i) e.code

/-- A command on P < 2 (30_encoding.md R93). -/
theorem exec_small {i : Instr} {s : State} (h : s.p.toNat < 2) : exec i s = .next (s.failed (encodeCommand i) 2) := by
  cases i <;> exact congrArg Host.Outcome.next (commandFrame_small _ _ h)

/-- A command on P ≥ 2: its body, run on the state itself, and the end of the frame (30_encoding.md R90). -/
theorem exec_large (i : Instr) {s : State} (h : 2 ≤ s.p.toNat) : exec i s = .next (commandEnd i (bodyOf i s)) := by
  have key : exec i s = .next (finishCommand (bodyOf i (beginCommand (encodeCommand i) s))) := by
    cases i <;> exact congrArg Host.Outcome.next (commandFrame_large _ _ h)
  rw [key, bodyOf_begin]
  cases bodyOf i s with
  | mk t r => cases r <;> rfl

/-! ### The bodies that use the point set, by what they call -/

theorem bodyOf_enum_eq (s : State) :
    bodyOf .enum s = ((enumerate s).1, match (enumerate s).2 with
      | .error e => .error e
      | .ok _ => .ok {}) := by
  simp only [bodyOf, enumBody]
  cases enumerate s with
  | mk t r => cases r <;> rfl

theorem bodyOf_encode_eq (s : State) :
    bodyOf .encode s = ((encodeMessage s).1, match (encodeMessage s).2 with
      | .error e => .error e
      | .ok en => .ok (encodeResults en)) := by
  simp only [bodyOf, encodeBody]
  cases encodeMessage s with
  | mk t r => cases r <;> rfl

theorem bodyOf_dhss_eq (s : State) :
    bodyOf .dhss s = ((ensurePS s).1, match (ensurePS s).2 with
      | .error e => .error e
      | .ok _ => dhssOnSet (ensurePS s).1) := by
  simp only [bodyOf, dhssBody]
  cases ensurePS s with
  | mk t r => cases r <;> rfl

theorem bodyOf_egenc_eq (s : State) :
    bodyOf .egenc s = ((encodeMessage s).1, match (encodeMessage s).2 with
      | .error e => .error e
      | .ok en => egencOnSet (encodeMessage s).1 en) := by
  simp only [bodyOf, egencBody]
  cases encodeMessage s with
  | mk t r => cases r <;> rfl

/-- A memo that was ensured leaves the registers that a body reads (41_point_enumerator.md R114). -/
theorem MemoEnsured.fields {s t : State} (h : MemoEnsured s t) :
    t.p = s.p ∧ t.a = s.a ∧ t.b = s.b ∧ t.p1 = s.p1 ∧ t.k1 = s.k1 ∧ t.k2 = s.k2 ∧ t.msg = s.msg ∧
      t.status.psValid = true := by
  rw [h.1.2.2]
  exact ⟨rfl, rfl, rfl, rfl, rfl, rfl, rfl, rfl⟩

/-- The four multiplications of `dh`, when none fails (44_key_agreement_cipher.md R165). -/
theorem dh_eq_ok {G dAG dBG S1 S2 : Point} {dA dB a p : Nat} (h1 : smul G dA a p = .ok dAG)
    (h2 : smul G dB a p = .ok dBG) (h3 : smul dBG dA a p = .ok S1) (h4 : smul dAG dB a p = .ok S2) :
    dh G dA dB a p = .ok { s1 := S1, s2 := S2, dAG := dAG, dBG := dBG } := by
  simp [dh, h1, h2, h3, h4, bind, Except.bind, pure, Except.pure]

/-- `EGENC` on an encoded message, when the base point passes and nothing fails (44_key_agreement_cipher.md R168). -/
theorem egencOnSet_eq_ok {t : State} {en : Encoded} {G dAG dBG shared c1 : Point} (hG : rdpoint t.p1 t.p.toNat = G)
    (hc : checkBase t G = .ok ()) (h2 : smul G t.k2.toNat t.a.toNat t.p.toNat = .ok dBG)
    (h3 : smul dBG t.k1.toNat t.a.toNat t.p.toNat = .ok shared)
    (h4 : padd en.qm shared t.a.toNat t.p.toNat = .ok c1) (h5 : smul G t.k1.toNat t.a.toNat t.p.toNat = .ok dAG) :
    egencOnSet t en = .ok { r1 := wrpoint c1, r2 := wrpoint dAG, r3 := wrpoint en.qm,
                            rm := regWord en.cap, rh := regWord en.h, rj := regWord en.j } := by
  simp only [egencOnSet, hG, hc, h2, h3, h4, h5, bind, Except.bind, pure, Except.pure]

/-! ### The six commands that leave the memo alone, each as one equation (30_encoding.md R90) -/

/-- The end of a command that defines R1 alone. -/
def pointEnd (w : Word) (s : State) : Except ErrKind Point → State
  | .ok R    => s.succeeded w { r1 := wrpoint R }
  | .error e => s.failed w e.code

theorem exec_modinv_eq {s : State} (h : 2 ≤ s.p.toNat) :
    exec .modinv s = .next (match inv s.opa.toNat s.p.toNat with
      | .ok x    => s.succeeded 0x00000001#32 { rs := BitVec.ofNat 32 x }
      | .error e => s.failed 0x00000001#32 e.code) := by
  rw [exec_large _ h]
  simp only [bodyOf, pureBody, modinvBody]
  cases inv s.opa.toNat s.p.toNat <;> rfl

theorem exec_padd_eq {s : State} (h : 2 ≤ s.p.toNat) :
    exec .padd s = .next (pointEnd 0x00000003#32 s
      (padd (rdpoint s.p1 s.p.toNat) (rdpoint s.p2 s.p.toNat) s.a.toNat s.p.toNat)) := by
  rw [exec_large _ h]
  simp only [bodyOf, pureBody, paddBody]
  cases padd (rdpoint s.p1 s.p.toNat) (rdpoint s.p2 s.p.toNat) s.a.toNat s.p.toNat <;> rfl

theorem exec_pdbl_eq {s : State} (h : 2 ≤ s.p.toNat) :
    exec .pdbl s = .next (pointEnd 0x00000004#32 s (pdbl (rdpoint s.p1 s.p.toNat) s.a.toNat s.p.toNat)) := by
  rw [exec_large _ h]
  simp only [bodyOf, pureBody, pdblBody]
  cases pdbl (rdpoint s.p1 s.p.toNat) s.a.toNat s.p.toNat <;> rfl

theorem exec_smul_eq {s : State} (h : 2 ≤ s.p.toNat) :
    exec .smul s = .next (pointEnd 0x00000005#32 s (smul (rdpoint s.p1 s.p.toNat) s.k1.toNat s.a.toNat s.p.toNat)) := by
  rw [exec_large _ h]
  simp only [bodyOf, pureBody, smulBody]
  cases smul (rdpoint s.p1 s.p.toNat) s.k1.toNat s.a.toNat s.p.toNat <;> rfl

theorem exec_pneg_eq {s : State} (h : 2 ≤ s.p.toNat) :
    exec .pneg s = .next (pointEnd 0x00000009#32 s (.ok (pneg (rdpoint s.p1 s.p.toNat) s.p.toNat))) := by
  rw [exec_large _ h]
  rfl

theorem exec_egdec_eq {s : State} (h : 2 ≤ s.p.toNat) :
    exec .egdec s = .next (pointEnd 0x0000000A#32 s (do
      let shared ← smul (rdpoint s.p2 s.p.toNat) s.k2.toNat s.a.toNat s.p.toNat
      padd (rdpoint s.p1 s.p.toNat) (pneg shared s.p.toNat) s.a.toNat s.p.toNat)) := by
  rw [exec_large _ h]
  simp only [bodyOf, pureBody, egdecBody, bind, Except.bind]
  cases smul (rdpoint s.p2 s.p.toNat) s.k2.toNat s.a.toNat s.p.toNat with
  | error e => rfl
  | ok shared =>
    simp only
    cases padd (rdpoint s.p1 s.p.toNat) (pneg shared s.p.toNat) s.a.toNat s.p.toNat <;> rfl

/-! ### The errors of the bodies -/

/-- What a result that may fail can be. -/
def Raises {α : Type} (errs : List ErrKind) (r : Except ErrKind α) : Prop := ∀ e, r = .error e → e ∈ errs

theorem raises_ok {α : Type} {errs : List ErrKind} {x : α} : Raises errs (.ok x) := fun _ h => by cases h

theorem raises_bind {α β : Type} {errs : List ErrKind} {r : Except ErrKind α} {f : α → Except ErrKind β}
    (hr : Raises errs r) (hf : ∀ x, r = .ok x → Raises errs (f x)) : Raises errs (r >>= f) := by
  intro e he
  cases r with
  | error e' => obtain rfl : e' = e := by simpa [bind, Except.bind] using he
                exact hr e' rfl
  | ok x => exact hf x rfl e he

theorem Raises.mono {α : Type} {errs errs' : List ErrKind} {r : Except ErrKind α} (h : Raises errs r)
    (hs : errs ⊆ errs') : Raises errs' r := fun e he => hs (h e he)

theorem Raises.error {α β : Type} {errs errs' : List ErrKind} {e : ErrKind}
    (h : Raises errs (.error e : Except ErrKind α)) (hs : errs ⊆ errs') :
    Raises errs' (.error e : Except ErrKind β) := fun e' he => by
  cases he
  exact hs (h e rfl)

theorem raises_inv {a p : Nat} (hp : 2 ≤ p) : Raises [.notInvertible] (inv a p) := fun e he => by
  simp [((inv_eq_error_iff hp).1 he).1]

theorem raises_padd {P Q : Point} {a p : Nat} (hp : 2 ≤ p) : Raises [.notInvertible] (padd P Q a p) := fun e he => by
  rcases padd_spec P Q a hp with ⟨R, h, -⟩ | h <;> rw [h] at he <;> cases he
  simp

theorem raises_smul {P : Point} {k a p : Nat} (hp : 2 ≤ p) : Raises [.notInvertible] (smul P k a p) := fun e he => by
  rcases smul_spec P k a hp with ⟨R, h, -⟩ | h <;> rw [h] at he <;> cases he
  simp

theorem smul_ok_reduced {P S : Point} {k a p : Nat} (hp : 2 ≤ p) (hP : PointReduced p P) (h : smul P k a p = .ok S) :
    PointReduced p S := by
  rcases smul_spec P k a hp with ⟨R, h', hR⟩ | h' <;> rw [h] at h' <;> cases h'
  exact hR hP

theorem raises_enumerate (s : State) : Raises [.invalidCurve, .setOverflow] (enumerate s).2 := fun e he => by
  rcases enumerate_spec s with ⟨_, _, h, _⟩ | ⟨_, h, _⟩ | ⟨_, h, _⟩ <;> rw [h] at he <;> cases he <;> simp

theorem raises_ensurePS (s : State) : Raises [.invalidCurve, .setOverflow] (ensurePS s).2 := by
  unfold ensurePS
  split
  · exact raises_ok
  · exact raises_enumerate s

theorem raises_checkBase (s : State) (G : Point) : Raises [.pointNotOnCurve] (checkBase s G) := fun e he => by
  cases G with
  | inf => cases he; simp
  | aff x y =>
    simp only [checkBase] at he
    split at he <;> cases he
    simp

theorem raises_dh {G : Point} {dA dB a p : Nat} (hp : 2 ≤ p) : Raises [.notInvertible] (dh G dA dB a p) :=
  raises_bind (raises_smul hp) fun _ _ => raises_bind (raises_smul hp) fun _ _ =>
    raises_bind (raises_smul hp) fun _ _ => raises_bind (raises_smul hp) fun _ _ => raises_ok

theorem raises_encodeMessage (s : State) :
    Raises [.invalidCurve, .messageTooLarge, .setOverflow, .messageNotEncodable] (encodeMessage s).2 := by
  unfold encodeMessage
  simp only
  split
  · intro e he; cases he; simp
  · have h1 := raises_ensurePS s
    split
    · next h => rw [h] at h1; exact h1.error (by simp)
    · split
      · next h =>
        intro e he
        cases he
        obtain ⟨rfl, -⟩ := (ksearch_eq_error_iff ..).1 h
        simp
      · exact raises_ok

/-- What encoding leaves alone: everything but the memo (43_message_codec.md R154). -/
theorem encodeMessage_frame (s : State) :
    (encodeMessage s).1 =
      { s with ps := (encodeMessage s).1.ps, psCount := (encodeMessage s).1.psCount,
               status := { s.status with psValid := (encodeMessage s).1.status.psValid } } := by
  have h := ensurePS_frame s
  unfold encodeMessage
  simp only
  split
  · rfl
  · split
    · next h' => rw [h'] at h; exact h
    · next h' =>
      rw [h'] at h
      split <;> exact h

/-- The state a body leaves behind: its own state with another memo, and the memo unchanged where the command does not use
the point set. -/
def BodyFrame (usesSet : Bool) (body : Body) : Prop :=
  ∀ s : State, (∃ ps n v, (body s).1 = s.memoChanged ps n v) ∧ (usesSet = false → (body s).1 = s)

theorem bodyFrame_pure (f : State → Except ErrKind Results) : BodyFrame false (pureBody f) :=
  fun s => ⟨⟨s.ps, s.psCount, s.status.psValid, rfl⟩, fun _ => rfl⟩

theorem bodyFrame_enum : BodyFrame true enumBody := fun s => by
  refine ⟨⟨(enumerate s).1.ps, (enumerate s).1.psCount, (enumerate s).1.status.psValid, ?_⟩, fun h => by cases h⟩
  have h := enumerate_frame s
  unfold enumBody
  split <;> next h' => rw [h'] at h ⊢; exact h

theorem bodyFrame_encode : BodyFrame true encodeBody := fun s => by
  refine ⟨⟨(encodeMessage s).1.ps, (encodeMessage s).1.psCount, (encodeMessage s).1.status.psValid, ?_⟩,
    fun h => by cases h⟩
  have h := encodeMessage_frame s
  unfold encodeBody
  split <;> next h' => rw [h'] at h ⊢; exact h

theorem bodyFrame_egenc : BodyFrame true egencBody := fun s => by
  refine ⟨⟨(encodeMessage s).1.ps, (encodeMessage s).1.psCount, (encodeMessage s).1.status.psValid, ?_⟩,
    fun h => by cases h⟩
  have h := encodeMessage_frame s
  unfold egencBody
  split <;> next h' => rw [h'] at h ⊢; exact h

theorem bodyFrame_dhss : BodyFrame true dhssBody := fun s => by
  refine ⟨⟨(ensurePS s).1.ps, (ensurePS s).1.psCount, (ensurePS s).1.status.psValid, ?_⟩, fun h => by cases h⟩
  have h := ensurePS_frame s
  unfold dhssBody
  split <;> next h' => rw [h'] at h ⊢; exact h

theorem raises_modinvBody {s : State} (hp : 2 ≤ s.p.toNat) : Raises [.notInvertible] (modinvBody s) :=
  raises_bind (raises_inv hp) fun _ _ => raises_ok

theorem raises_paddBody {s : State} (hp : 2 ≤ s.p.toNat) : Raises [.notInvertible] (paddBody s) :=
  raises_bind (raises_padd hp) fun _ _ => raises_ok

theorem raises_pdblBody {s : State} (hp : 2 ≤ s.p.toNat) : Raises [.notInvertible] (pdblBody s) :=
  raises_bind (pdbl_eq_padd _ _ _ ▸ raises_padd hp) fun _ _ => raises_ok

theorem raises_smulBody {s : State} (hp : 2 ≤ s.p.toNat) : Raises [.notInvertible] (smulBody s) :=
  raises_bind (raises_smul hp) fun _ _ => raises_ok

theorem raises_egdecBody {s : State} (hp : 2 ≤ s.p.toNat) : Raises [.notInvertible] (egdecBody s) :=
  raises_bind (raises_smul hp) fun _ _ => raises_bind (raises_padd hp) fun _ _ => raises_ok

theorem raises_dhssOnSet {s : State} (hp : 2 ≤ s.p.toNat) :
    Raises [.pointNotOnCurve, .notInvertible, .secretMismatch] (dhssOnSet s) := by
  refine raises_bind ((raises_checkBase _ _).mono (by simp)) fun _ _ =>
    raises_bind ((raises_dh hp).mono (by simp)) fun ag _ => ?_
  intro e he
  split at he
  · cases he
  · cases he; simp

theorem raises_egencOnSet {s : State} (en : Encoded) (hp : 2 ≤ s.p.toNat) :
    Raises [.pointNotOnCurve, .notInvertible] (egencOnSet s en) :=
  raises_bind ((raises_checkBase _ _).mono (by simp)) fun _ _ =>
    raises_bind ((raises_smul hp).mono (by simp)) fun _ _ => raises_bind ((raises_smul hp).mono (by simp)) fun _ _ =>
      raises_bind ((raises_padd hp).mono (by simp)) fun _ _ => raises_bind ((raises_smul hp).mono (by simp)) fun _ _ =>
        raises_ok

/-- A body may raise what the table of 60_exceptions.md R200 says. -/
def BodyRaises (i : Instr) (body : Body) : Prop := ∀ s : State, 2 ≤ s.p.toNat → Raises (mayRaise i) (body s).2

theorem bodyRaises_enum : BodyRaises .enum enumBody := fun s _ => by
  have h := raises_enumerate s
  unfold enumBody
  split
  · next h' => rw [h'] at h; exact h.error (by simp [mayRaise])
  · exact raises_ok

theorem bodyRaises_encode : BodyRaises .encode encodeBody := fun s _ => by
  have h := raises_encodeMessage s
  unfold encodeBody
  split
  · next h' => rw [h'] at h; exact h.error (by simp [mayRaise])
  · exact raises_ok

theorem bodyRaises_dhss : BodyRaises .dhss dhssBody := fun s hp => by
  have h := raises_ensurePS s
  have hf := ensurePS_frame s
  unfold dhssBody
  split
  · next h' => rw [h'] at h; exact h.error (by simp [mayRaise])
  · next h' =>
    rw [h'] at hf
    exact (raises_dhssOnSet ((congrArg State.p hf).symm ▸ hp)).mono (by simp [mayRaise])

theorem bodyRaises_egenc : BodyRaises .egenc egencBody := fun s hp => by
  have h := raises_encodeMessage s
  have hf := encodeMessage_frame s
  unfold egencBody
  split
  · next h' => rw [h'] at h; exact h.error (by simp [mayRaise])
  · next h' =>
    rw [h'] at hf
    exact (raises_egencOnSet _ ((congrArg State.p hf).symm ▸ hp)).mono (by simp [mayRaise])

/-- Everything a command can do, from its body: it answers a next state, in which the memo may have changed, and which is that
of a success or of one of its errors (30_encoding.md R90, 60_exceptions.md R194, R200). -/
theorem runCommand_spec {i : Instr} {body : Body} (hf : BodyFrame (usesPointSet i) body) (hr : BodyRaises i body)
    (hi : .invalidCurve ∈ mayRaise i) (s : State) :
    ∃ ps n v, (usesPointSet i = false → s.memoChanged ps n v = s) ∧
      ((∃ r, runCommand i body s = .next ((s.memoChanged ps n v).succeeded (encodeCommand i) r)) ∨
        ∃ e ∈ mayRaise i, runCommand i body s = .next ((s.memoChanged ps n v).failed (encodeCommand i) e.code)) := by
  by_cases h : s.p.toNat < 2
  · exact ⟨s.ps, s.psCount, s.status.psValid, fun _ => rfl,
      .inr ⟨.invalidCurve, hi, by rw [runCommand, commandFrame_small _ _ h]; rfl⟩⟩
  · have hp : 2 ≤ s.p.toNat := by omega
    obtain ⟨⟨ps, n, v, hm⟩, hs⟩ := hf (beginCommand (encodeCommand i) s)
    have hr := hr (beginCommand (encodeCommand i) s) hp
    have hb : (beginCommand (encodeCommand i) s).memoChanged ps n v =
        beginCommand (encodeCommand i) (s.memoChanged ps n v) := rfl
    refine ⟨ps, n, v, fun hu => ?_, ?_⟩
    · have e := (hm.symm.trans (hs hu))
      have e1 := congrArg State.ps e
      have e2 := congrArg State.psCount e
      have e3 := congrArg (fun t => t.status.psValid) e
      simp only [State.memoChanged, beginCommand_ps, beginCommand_psCount, beginCommand_status, status_clear_psValid]
        at e1 e2 e3
      subst e1 e2 e3
      rfl
    · rw [runCommand, commandFrame_large _ _ hp]
      revert hm hr
      cases body (beginCommand (encodeCommand i) s) with
      | mk s' r =>
        intro hm hr
        simp only at hm
        subst hm
        cases r with
        | ok r => exact .inl ⟨r, rfl⟩
        | error e => exact .inr ⟨e, hr e rfl, rfl⟩

/-- Everything a command can do (30_encoding.md R90, 60_exceptions.md R194, R200): it answers a next state; the memo is
unchanged where the command does not use the point set; and the state is that of a success or of one of its errors. -/
theorem exec_spec (i : Instr) (s : State) :
    ∃ ps n v, (usesPointSet i = false → s.memoChanged ps n v = s) ∧
      ((∃ r, exec i s = .next ((s.memoChanged ps n v).succeeded (encodeCommand i) r)) ∨
        ∃ e ∈ mayRaise i, exec i s = .next ((s.memoChanged ps n v).failed (encodeCommand i) e.code)) := by
  cases i with
  | modinv => exact runCommand_spec (i := .modinv) (bodyFrame_pure _) (fun s hp => (raises_modinvBody hp).mono (by simp [mayRaise]))
                (by simp [mayRaise]) s
  | enum => exact runCommand_spec (i := .enum) bodyFrame_enum bodyRaises_enum (by simp [mayRaise]) s
  | padd => exact runCommand_spec (i := .padd) (bodyFrame_pure _) (fun s hp => (raises_paddBody hp).mono (by simp [mayRaise]))
                (by simp [mayRaise]) s
  | pdbl => exact runCommand_spec (i := .pdbl) (bodyFrame_pure _) (fun s hp => (raises_pdblBody hp).mono (by simp [mayRaise]))
                (by simp [mayRaise]) s
  | smul => exact runCommand_spec (i := .smul) (bodyFrame_pure _) (fun s hp => (raises_smulBody hp).mono (by simp [mayRaise]))
                (by simp [mayRaise]) s
  | encode => exact runCommand_spec (i := .encode) bodyFrame_encode bodyRaises_encode (by simp [mayRaise]) s
  | dhss => exact runCommand_spec (i := .dhss) bodyFrame_dhss bodyRaises_dhss (by simp [mayRaise]) s
  | egenc => exact runCommand_spec (i := .egenc) bodyFrame_egenc bodyRaises_egenc (by simp [mayRaise]) s
  | pneg => exact runCommand_spec (i := .pneg) (bodyFrame_pure _) (fun s _ => raises_ok) (by simp [mayRaise]) s
  | egdec => exact runCommand_spec (i := .egdec) (bodyFrame_pure _) (fun s hp => (raises_egdecBody hp).mono (by simp [mayRaise]))
                (by simp [mayRaise]) s

/-- The state that encoding leaves is its own or that of `ensurePS` (43_message_codec.md R154). -/
theorem encodeMessage_state (s : State) : (encodeMessage s).1 = s ∨ (encodeMessage s).1 = (ensurePS s).1 := by
  unfold encodeMessage
  simp only
  split
  · exact .inl rfl
  · right
    cases ensurePS s with
    | mk t r =>
      cases r with
      | error e => rfl
      | ok u => simp only; split <;> rfl

theorem ensurePS_state (s : State) : (ensurePS s).1 = s ∨ (ensurePS s).1 = (enumerate s).1 := by
  unfold ensurePS
  split
  · exact .inl rfl
  · exact .inr rfl

/-- The state that a body leaves is its own or that of `enumerate` (30_encoding.md R90). -/
theorem bodyOf_state (i : Instr) (s : State) : (bodyOf i s).1 = s ∨ (bodyOf i s).1 = (enumerate s).1 := by
  have henc : (encodeMessage s).1 = s ∨ (encodeMessage s).1 = (enumerate s).1 := by
    rcases encodeMessage_state s with h | h
    · exact .inl h
    · rw [h]; exact ensurePS_state s
  cases i with
  | modinv => exact .inl rfl
  | padd => exact .inl rfl
  | pdbl => exact .inl rfl
  | smul => exact .inl rfl
  | pneg => exact .inl rfl
  | egdec => exact .inl rfl
  | enum => rw [bodyOf_enum_eq]; exact .inr rfl
  | dhss => rw [bodyOf_dhss_eq]; exact ensurePS_state s
  | encode => rw [bodyOf_encode_eq]; exact henc
  | egenc => rw [bodyOf_egenc_eq]; exact henc

/-- Everything a command can do, with the state it works from named: the state itself or what `enumerate` left
(30_encoding.md R90, 60_exceptions.md R200). -/
theorem exec_end {i : Instr} {s t : State} (h : exec i s = .next t) :
    ∃ u, (u = s ∨ u = (enumerate s).1) ∧
      ((∃ r, t = u.succeeded (encodeCommand i) r) ∨ ∃ e ∈ mayRaise i, t = u.failed (encodeCommand i) e.code) := by
  by_cases hp : s.p.toNat < 2
  · rw [exec_small hp] at h
    exact ⟨s, .inl rfl, .inr ⟨.invalidCurve, by cases i <;> simp [mayRaise], (Host.Outcome.next.inj h).symm⟩⟩
  · obtain ⟨ps, n, v, -, hx⟩ := exec_spec i s
    rw [exec_large i (by omega)] at h hx
    obtain rfl := Host.Outcome.next.inj h
    refine ⟨_, bodyOf_state i s, ?_⟩
    cases hb : bodyOf i s with
    | mk u r =>
      rw [hb] at hx
      cases r with
      | ok r => exact .inl ⟨r, rfl⟩
      | error e =>
        refine .inr ⟨e, ?_, rfl⟩
        rcases hx with ⟨r, hx⟩ | ⟨e', he', hx⟩
        · cases congrArg (fun t => t.status.err) (Host.Outcome.next.inj hx)
        · have hc : BitVec.ofNat 4 e.code = BitVec.ofNat 4 e'.code :=
            congrArg (fun t => t.status.errCode) (Host.Outcome.next.inj hx)
          have : e = e' := by revert hc; cases e <;> cases e' <;> decide
          rwa [this]

end Sys2Proof.Machine
end

