-- ==== Sys2Proof/Laws/GroupLaw.lean ====
section
/-! SUPPORT. Laws/GroupLaw.lean: on-contract (42_point_group.md R130) the block's operations are those of the group of an
elliptic curve over a prime field, as Mathlib defines it; so `padd` and `smul` never fail there (R131) and the laws of R132
hold. -/

namespace Sys2Proof.Machine

/-- The block's curve as a Weierstrass curve over the residues. -/
def blockCurve (a b p : Nat) : WeierstrassCurve.Affine (ZMod p) :=
  { a₁ := 0, a₂ := 0, a₃ := 0, a₄ := (a : ZMod p), a₆ := (b : ZMod p) }

theorem blockCurve_equation {a b p x y : Nat} :
    (blockCurve a b p).Equation (x : ZMod p) (y : ZMod p) ↔ y * y % p = (x * x * x + a * x + b) % p := by
  rw [WeierstrassCurve.Affine.equation_iff]
  have h := ZMod.natCast_eq_natCast_iff (y * y) (x * x * x + a * x + b) p
  unfold Nat.ModEq at h
  rw [← h]
  simp only [blockCurve]
  push_cast
  constructor <;> intro h <;> linear_combination h

theorem blockCurve_disc {a b p : Nat} (h : CurveOnContract a b p) : (blockCurve a b p).Δ ≠ 0 := by
  obtain ⟨hp, h2, hd⟩ := h
  have := Fact.mk hp
  have e : (blockCurve a b p).Δ = -16 * (((4 * a ^ 3 + 27 * b ^ 2 : Nat)) : ZMod p) := by
    simp only [WeierstrassCurve.Δ, WeierstrassCurve.b₂, WeierstrassCurve.b₄, WeierstrassCurve.b₆,
      WeierstrassCurve.b₈, blockCurve]
    push_cast
    ring
  rw [e]
  refine mul_ne_zero ?_ ?_
  · have h16 : (2 : ZMod p) ≠ 0 := by
      have : ((2 : Nat) : ZMod p) ≠ 0 := by
        rw [Ne, ZMod.natCast_eq_zero_iff]
        exact fun hdv => h2 ((Nat.prime_dvd_prime_iff_eq hp Nat.prime_two).1 hdv)
      simpa using this
    have : (-16 : ZMod p) = -(2 ^ 4) := by norm_num
    rw [this]
    exact neg_ne_zero.2 (pow_ne_zero 4 h16)
  · rw [Ne, ZMod.natCast_eq_zero_iff]
    exact fun hdv => hd (Nat.mod_eq_zero_of_dvd hdv)

/-- A point of the block stands for a point of the curve's group. -/
def StandsFor {a b p : Nat} : Point → (blockCurve a b p).Point → Prop
  | .inf, W => W = .zero
  | .aff x y, W => x < p ∧ y < p ∧ ∃ h, W = .some (x : ZMod p) (y : ZMod p) h

theorem StandsFor.onCurve {a b p : Nat} {P : Point} {W : (blockCurve a b p).Point} (h : StandsFor P W) : PointOnCurve a b p P := by
  cases P with
  | inf => trivial
  | aff x y =>
    obtain ⟨hx, hy, hn, -⟩ := h
    exact ⟨hx, hy, blockCurve_equation.1 hn.1⟩

theorem StandsFor.reduced {a b p : Nat} {P : Point} {W : (blockCurve a b p).Point} (h : StandsFor P W) : PointReduced p P := by
  cases P with
  | inf => trivial
  | aff x y => exact ⟨h.1, h.2.1⟩

section
variable {a b p : Nat} [Fact p.Prime]

theorem natCast_inj {x y : Nat} (hx : x < p) (hy : y < p) : (x : ZMod p) = (y : ZMod p) ↔ x = y := by
  rw [ZMod.natCast_eq_natCast_iff]
  exact ⟨fun h => Nat.ModEq.eq_of_lt_of_lt h hx hy, fun h => h ▸ rfl⟩

theorem exists_standsFor (hc : CurveOnContract a b p) {P : Point} (hP : PointOnCurve a b p P) :
    ∃ W : (blockCurve a b p).Point, StandsFor P W := by
  cases P with
  | inf => exact ⟨.zero, rfl⟩
  | aff x y =>
    exact ⟨.some (x : ZMod p) (y : ZMod p)
      ((WeierstrassCurve.Affine.equation_iff_nonsingular_of_Δ_ne_zero (blockCurve_disc hc)).1
        (blockCurve_equation.2 hP.2.2)), hP.1, hP.2.1, _, rfl⟩

/-- The block's point is determined by the group's. -/
theorem StandsFor.inj {P Q : Point} {W : (blockCurve a b p).Point} (hP : StandsFor P W) (hQ : StandsFor Q W) : P = Q := by
  cases P with
  | inf =>
    cases Q with
    | inf => rfl
    | aff x y =>
      obtain rfl := hP
      obtain ⟨_, _, _, h⟩ := hQ
      cases h
  | aff x y =>
    obtain ⟨hx, hy, hn, rfl⟩ := hP
    cases Q with
    | inf => cases hQ
    | aff x' y' =>
      obtain ⟨hx', hy', hn', h⟩ := hQ
      injection h with h1 h2
      rw [(natCast_inj hx hx').1 h1, (natCast_inj hy hy').1 h2]

theorem inv_zmod {d di : Nat} (h : inv d p = .ok di) : (di : ZMod p) = (d : ZMod p)⁻¹ := by
  obtain ⟨-, h⟩ := (inv_eq_ok_iff (Fact.out : p.Prime).two_le).1 h
  have : ((d * di : Nat) : ZMod p) = ((1 : Nat) : ZMod p) := by
    rw [ZMod.natCast_eq_natCast_iff]
    unfold Nat.ModEq
    rw [h, Nat.mod_eq_of_lt (Fact.out : p.Prime).one_lt]
  push_cast at this
  exact eq_inv_of_mul_eq_one_right this

/-- Negation is the group's (42_point_group.md R120). -/
theorem StandsFor.neg {P : Point} {W : (blockCurve a b p).Point} (h : StandsFor P W) : StandsFor (pneg P p) (-W) := by
  cases P with
  | inf => obtain rfl := h; rfl
  | aff x y =>
    obtain ⟨hx, hy, hn, rfl⟩ := h
    have e : (((p - y) % p : Nat) : ZMod p) = (blockCurve a b p).negY (x : ZMod p) (y : ZMod p) := by
      rw [ZMod.natCast_mod, Nat.cast_sub hy.le]
      simp [WeierstrassCurve.Affine.negY, blockCurve]
    refine ⟨hx, Nat.mod_lt _ (by omega), ?_, ?_⟩
    · rw [e]; exact (WeierstrassCurve.Affine.nonsingular_neg ..).2 hn
    · rw [WeierstrassCurve.Affine.Point.neg_some]
      congr 1
      exact e.symm

/-- Addition is the group's, and never fails (42_point_group.md R131). -/
theorem StandsFor.padd {P Q : Point} {V W : (blockCurve a b p).Point} (hP : StandsFor P V) (hQ : StandsFor Q W) :
    ∃ R, padd P Q a p = .ok R ∧ StandsFor R (V + W) := by
  have hp : p.Prime := Fact.out
  have hp0 : 0 < p := hp.pos
  cases P with
  | inf => obtain rfl := hP; exact ⟨Q, by simp, by rw [← WeierstrassCurve.Affine.Point.zero_def, zero_add]; exact hQ⟩
  | aff x1 y1 =>
  cases Q with
  | inf =>
    obtain rfl := hQ
    exact ⟨_, padd_inf_right .., by rw [← WeierstrassCurve.Affine.Point.zero_def, add_zero]; exact hP⟩
  | aff x2 y2 =>
  obtain ⟨hx1, hy1, hn1, rfl⟩ := hP
  obtain ⟨hx2, hy2, hn2, rfl⟩ := hQ
  have hneg : ((y1 : ZMod p) = (blockCurve a b p).negY (x2 : ZMod p) (y2 : ZMod p)) ↔ (y1 + y2) % p = 0 := by
    rw [← Nat.dvd_iff_mod_eq_zero, ← ZMod.natCast_eq_zero_iff]
    simp only [WeierstrassCurve.Affine.negY, blockCurve]
    push_cast
    constructor <;> intro h <;> linear_combination h
  by_cases h1 : x1 = x2 ∧ (y1 + y2) % p = 0
  · obtain ⟨rfl, h1⟩ := h1
    refine ⟨.inf, padd_inverse a h1, ?_⟩
    rw [WeierstrassCurve.Affine.Point.add_of_Y_eq rfl (hneg.2 h1)]
    rfl
  · have hxy : ¬ ((x1 : ZMod p) = (x2 : ZMod p) ∧
        (y1 : ZMod p) = (blockCurve a b p).negY (x2 : ZMod p) (y2 : ZMod p)) := by
      rw [natCast_inj hx1 hx2, hneg]; exact h1
    have fin : ∀ lam : Nat, (lam : ZMod p) =
          (blockCurve a b p).slope (x1 : ZMod p) (x2 : ZMod p) (y1 : ZMod p) (y2 : ZMod p) →
        StandsFor (slopeResult lam x1 y1 x2 p)
          (.some (x1 : ZMod p) (y1 : ZMod p) hn1 + .some (x2 : ZMod p) (y2 : ZMod p) hn2 :
            (blockCurve a b p).Point) := by
      intro lam hl
      have hX : ((floorMod ((lam : Int) * lam - x1 - x2) p : Nat) : ZMod p) =
          (blockCurve a b p).addX (x1 : ZMod p) (x2 : ZMod p)
            ((blockCurve a b p).slope (x1 : ZMod p) (x2 : ZMod p) (y1 : ZMod p) (y2 : ZMod p)) := by
        rw [floorMod_zmod _ hp0, ← hl]
        simp only [WeierstrassCurve.Affine.addX, blockCurve]
        push_cast
        ring
      have hY : ((floorMod ((lam : Int) * ((x1 : Int) - (floorMod ((lam : Int) * lam - x1 - x2) p : Nat)) - y1) p : Nat)
          : ZMod p) =
          (blockCurve a b p).addY (x1 : ZMod p) (x2 : ZMod p) (y1 : ZMod p)
            ((blockCurve a b p).slope (x1 : ZMod p) (x2 : ZMod p) (y1 : ZMod p) (y2 : ZMod p)) := by
        rw [floorMod_zmod _ hp0]
        simp only [WeierstrassCurve.Affine.addY, WeierstrassCurve.Affine.negAddY, WeierstrassCurve.Affine.negY]
        rw [← hX, ← hl]
        simp only [blockCurve]
        push_cast
        ring
      refine ⟨floorMod_lt _ hp0, floorMod_lt _ hp0, ?_, ?_⟩
      · rw [hX, hY]; exact WeierstrassCurve.Affine.nonsingular_add hn1 hn2 hxy
      · rw [WeierstrassCurve.Affine.Point.add_some hxy]
        congr 1
        · exact hX.symm
        · exact hY.symm
    by_cases hx : x1 = x2
    · subst hx
      have hyne : (y1 : ZMod p) ≠ (blockCurve a b p).negY (x1 : ZMod p) (y2 : ZMod p) := fun h => hxy ⟨rfl, h⟩
      have hy : y1 = y2 := (natCast_inj hy1 hy2).1
        (WeierstrassCurve.Affine.Y_eq_of_Y_ne hn1.1 hn2.1 rfl hyne)
      subst hy
      have hd : 2 * y1 % p ≠ 0 := by rw [two_mul]; exact fun h => h1 ⟨rfl, h⟩
      obtain ⟨di, hdi⟩ := exists_inv_of_prime hp (a := 2 * y1 % p) (by rwa [Nat.mod_mod])
      refine ⟨_, by rw [padd_double a hd, hdi]; rfl, fin _ ?_⟩
      rw [WeierstrassCurve.Affine.slope_of_Y_ne rfl hyne, ZMod.natCast_mod, Nat.cast_mul, ZMod.natCast_mod, inv_zmod hdi,
        ZMod.natCast_mod, div_eq_mul_inv]
      simp only [WeierstrassCurve.Affine.negY, blockCurve]
      push_cast
      congr 1
      · ring
      · congr 1; ring
    · have hd : floorMod ((x2 : Int) - x1) p % p ≠ 0 := by
        rw [Nat.mod_eq_of_lt (floorMod_lt _ hp0)]
        intro h
        have := floorMod_zmod ((x2 : Int) - x1) hp0
        rw [h] at this
        push_cast at this
        exact hx ((natCast_inj hx1 hx2).1 (by linear_combination this))
      obtain ⟨di, hdi⟩ := exists_inv_of_prime hp hd
      refine ⟨_, by rw [padd_distinct a h1 (fun h => hx h.1), hdi]; rfl, fin _ ?_⟩
      have hxz : (x1 : ZMod p) ≠ (x2 : ZMod p) := fun h => hx ((natCast_inj hx1 hx2).1 h)
      have h12 : (x1 : ZMod p) - x2 ≠ 0 := sub_ne_zero.2 hxz
      have h21 : (x2 : ZMod p) - x1 ≠ 0 := sub_ne_zero.2 (Ne.symm hxz)
      rw [WeierstrassCurve.Affine.slope_of_X_ne hxz, ZMod.natCast_mod, Nat.cast_mul, inv_zmod hdi, floorMod_zmod _ hp0,
        floorMod_zmod _ hp0]
      push_cast
      field_simp
      ring

/-- Doubling is the group's (42_point_group.md R124). -/
theorem StandsFor.pdbl {P : Point} {V : (blockCurve a b p).Point} (hP : StandsFor P V) :
    ∃ R, pdbl P a p = .ok R ∧ StandsFor R (V + V) := by
  rw [pdbl_eq_padd]
  exact hP.padd hP

/-- The loop of `smul` adds `n` times the running multiple to the accumulator (42_point_group.md R127). -/
theorem StandsFor.smulLoop (fuel n : Nat) {R Q : Point} {V W : (blockCurve a b p).Point} (hf : n ≤ fuel)
    (hR : StandsFor R V) (hQ : StandsFor Q W) :
    ∃ S, smulLoop a p fuel n R Q = .ok S ∧ StandsFor S (V + n • W) := by
  induction fuel generalizing n R Q V W with
  | zero =>
    obtain rfl : n = 0 := by omega
    exact ⟨R, rfl, by simpa using hR⟩
  | succ fuel ih =>
    have hstep : ∃ R', addIfOdd n R Q a p = .ok R' ∧ StandsFor R' (V + (n % 2) • W) := by
      unfold addIfOdd
      split
      · next h => rw [h, one_nsmul]; exact hR.padd hQ
      · next h =>
        rw [show n % 2 = 0 by omega, zero_nsmul, add_zero]
        exact ⟨R, rfl, hR⟩
    obtain ⟨R', he, hR'⟩ := hstep
    obtain ⟨Q', hq, hQ'⟩ := hQ.pdbl
    by_cases hz : n / 2 = 0
    · refine ⟨R', by simp [Machine.smulLoop, he, bind, Except.bind, hz, pure, Except.pure], ?_⟩
      have : n % 2 = n := by omega
      rwa [this] at hR'
    · obtain ⟨S, hs, hS⟩ := ih (n / 2) (by omega) hR' hQ'
      refine ⟨S, by simpa [Machine.smulLoop, he, bind, Except.bind, hz, hq] using hs, ?_⟩
      have e : V + n • W = V + (n % 2) • W + (n / 2) • (W + W) := by
        rw [add_assoc, ← two_nsmul, ← mul_nsmul, ← add_nsmul, Nat.mod_add_div]
      rwa [e]

/-- Scalar multiplication is the group's, and never fails (42_point_group.md R128, R131). -/
theorem StandsFor.smul (k : Nat) {P : Point} {V : (blockCurve a b p).Point} (hP : StandsFor P V) :
    ∃ S, smul P k a p = .ok S ∧ StandsFor S (k • V) := by
  unfold Machine.smul
  split
  · next h =>
    refine ⟨.inf, rfl, ?_⟩
    rcases h with rfl | rfl
    · rw [zero_nsmul]; rfl
    · obtain rfl := hP
      rw [← WeierstrassCurve.Affine.Point.zero_def, nsmul_zero]; rfl
  · have h0 : StandsFor (a := a) (b := b) (p := p) .inf 0 := rfl
    simpa using StandsFor.smulLoop k k (le_refl k) h0 hP

/-- Repeated addition is the group's. -/
theorem StandsFor.timesPoint (k : Nat) {P : Point} {V : (blockCurve a b p).Point} (hP : StandsFor P V) :
    ∃ S, timesPoint a p P k = .ok S ∧ StandsFor S (k • V) := by
  induction k with
  | zero => exact ⟨.inf, rfl, by rw [zero_nsmul]; rfl⟩
  | succ k ih =>
    obtain ⟨S, hs, hS⟩ := ih
    obtain ⟨T, ht, hT⟩ := hS.padd hP
    refine ⟨T, ?_, by rw [succ_nsmul]; exact hT⟩
    simp only [Machine.timesPoint, hs]
    exact ht

end

end Sys2Proof.Machine
end

