-- ==== Sys2Proof/Laws/PerInstr.lean ====
section
/-! SUPPORT. Laws/PerInstr.lean: what holds of every command as syntax, one lemma a constructor. -/

namespace Sys2Proof.Laws.RoundTrip

/-- A command is well formed, its word has a legal form, and the word decodes to it and to nothing else
(30_encoding.md R82, R83). -/
def Statement (i : Instr) : Prop :=
  i.wf = true ∧ (commandFields (encodeCommand i)).wf = true ∧ decodeCommand (encodeCommand i) = .ok i

theorem modinv : Statement .modinv := ⟨rfl, rfl, rfl⟩
theorem enum : Statement .enum := ⟨rfl, rfl, rfl⟩
theorem padd : Statement .padd := ⟨rfl, rfl, rfl⟩
theorem pdbl : Statement .pdbl := ⟨rfl, rfl, rfl⟩
theorem smul : Statement .smul := ⟨rfl, rfl, rfl⟩
theorem encode : Statement .encode := ⟨rfl, rfl, rfl⟩
theorem dhss : Statement .dhss := ⟨rfl, rfl, rfl⟩
theorem egenc : Statement .egenc := ⟨rfl, rfl, rfl⟩
theorem pneg : Statement .pneg := ⟨rfl, rfl, rfl⟩
theorem egdec : Statement .egdec := ⟨rfl, rfl, rfl⟩

end Sys2Proof.Laws.RoundTrip
end

