-- ==== Sys2Proof/Laws/Step.lean ====
section
/-! SUPPORT. Laws/Step.lean: everything one step can do, said once (10_state.md R20, 20_memory.md R63, R64). -/

namespace Sys2Proof.Machine

theorem regAt_index (r : RegName) : regAt r.index = some r := by cases r <;> rfl

/-- A step that takes a write is that write, on the state with the input taken. -/
theorem step_write {s : State} {addr : BusAddr} {w : Word} {rest : List HostInput}
    (h : s.inbox = .txn { wr := true, addr := addr, wdata := w } :: rest) :
    step s = busWrite addr w { s with inbox := rest, rdata := none } := by
  simp [step, stepInput, h, takeInput, transact]

/-- A step that takes a read only answers the word. -/
theorem step_read {s : State} {addr : BusAddr} {w : Word} {rest : List HostInput}
    (h : s.inbox = .txn { wr := false, addr := addr, wdata := w } :: rest) :
    step s = .next { s with inbox := rest, rdata := some (busRead s addr) } := by
  simp only [step, stepInput, h, takeInput, transact]
  rfl

/-- What a step can have done: nothing; reset; a read; a write that only stores, or stores nothing; a command, legal or
not. -/
inductive StepCase (s t : State) : Prop where
  | idle : s.inbox = [] → t = s → StepCase s t
  | reset (rest : List HostInput) : s.inbox = .reset :: rest → t = applyReset { s with inbox := rest } → StepCase s t
  | read (x : BusTxn) (rest : List HostInput) : s.inbox = .txn x :: rest → x.wr = false →
      t = { s with inbox := rest, rdata := some (busRead s x.addr) } → StepCase s t
  | store (x : BusTxn) (r : RegName) (rest : List HostInput) : s.inbox = .txn x :: rest → x.wr = true →
      regAt x.addr = some r → r ≠ .cmd → t = regWrite r x.wdata { s with inbox := rest, rdata := none } → StepCase s t
  | unmapped (x : BusTxn) (rest : List HostInput) : s.inbox = .txn x :: rest → x.wr = true → regAt x.addr = none →
      t = { s with inbox := rest, rdata := none } → StepCase s t
  | illegal (x : BusTxn) (e : DecodeError) (rest : List HostInput) : s.inbox = .txn x :: rest → x.wr = true →
      regAt x.addr = some .cmd → decodeCommand x.wdata = .error e →
      t = ({ s with inbox := rest, rdata := none } : State).failed x.wdata 8 → StepCase s t
  | command (x : BusTxn) (i : Instr) (rest : List HostInput) : s.inbox = .txn x :: rest → x.wr = true →
      regAt x.addr = some .cmd → decodeCommand x.wdata = .ok i →
      exec i { s with inbox := rest, rdata := none } = .next t → StepCase s t

/-- The cases of a step that answers a next state. -/
theorem step_cases {s t : State} (h : step s = .next t) : StepCase s t := by
  unfold step stepInput at h
  cases hi : s.inbox with
  | nil => rw [hi] at h; exact .idle hi (Host.Outcome.next.inj h).symm
  | cons input rest =>
    rw [hi] at h
    cases input with
    | reset => exact .reset rest hi (Host.Outcome.next.inj h).symm
    | protocolBreach => cases h
    | txn x =>
      simp only [takeInput, transact] at h
      cases hw : x.wr with
      | false => exact .read x rest hi hw (by rw [hw] at h; exact (Host.Outcome.next.inj h).symm)
      | true =>
        simp only [hw, if_true, busWrite] at h
        cases hr : regAt x.addr with
        | none => rw [hr] at h; exact .unmapped x rest hi hw hr (Host.Outcome.next.inj h).symm
        | some r =>
          rw [hr] at h
          by_cases hc : r = .cmd
          · subst hc
            simp only [commandWrite] at h
            cases hd : decodeCommand x.wdata with
            | ok i => rw [hd] at h; exact .command x i rest hi hw hr hd h
            | error e => rw [hd] at h; exact .illegal x e rest hi hw hr hd (Host.Outcome.next.inj h).symm
          · refine .store x r rest hi hw hr hc ?_
            cases r <;> first | exact (Host.Outcome.next.inj h).symm | exact absurd rfl hc

end Sys2Proof.Machine
end

