-- ==== Sys2Proof/Tests/Slice0.lean ====
section
/-! SUPPORT. Tests/Slice0.lean: small tests whose expected values come from the spec (95_test_vectors.md, cited by vector
name), and for every statement with hypotheses witnesses that meet them. -/

namespace Sys2Proof.Tests

open Sys2Proof.Machine

/-! ### Helpers -/

/-- The state after reset with the curve `(a, b, p)` written. -/
def onCurveState (a b p : Word) : State := { State.reset with a := a, b := b, p := p }

def k5 : State := onCurveState 1#32 1#32 5#32
def k7 : State := onCurveState 1#32 1#32 7#32
def k17 : State := onCurveState 2#32 2#32 17#32

/-- An affine operand. -/
def affReg (x y : Word) : PointReg := { x := x, y := y, t := false }

/-- The identity in registers. -/
def infReg : PointReg := { x := 0#32, y := 0#32, t := true }

/-- The state with a point-set memory of `n` entries. -/
def withDepth (n : Nat) (s : State) : State := { s with cfg := { w := 16, psDepth := n } }

def nextOf : Host.Outcome State Fault Refusal → Option State
  | .next s    => some s
  | .fault _   => none
  | .refused _ => none

/-- What `f` sees in the next state. -/
def seen {α : Type} (o : Host.Outcome State Fault Refusal) (f : State → α) : Option α := (nextOf o).map f

/-- The word that a read of a register would return. -/
def word (r : RegName) (s : State) : Word := busRead s r.index

/-- The state after one command, or the state before it where none follows. -/
def afterCommand (i : Instr) (s : State) : State := (nextOf (exec i s)).getD s

/-- The state with a host write as its only input. -/
def hostWrite (r : RegName) (w : Word) (s : State) : State :=
  { s with inbox := [.txn { wr := true, addr := r.index, wdata := w }] }

/-- K5 and K7 after a successful ENUM. -/
def k5Enumerated : State := afterCommand .enum k5
def k7Enumerated : State := afterCommand .enum k7

/-! ### Well-formedness -/

theorem test_reserved_field_refused : CommandWord.wf { rsvd := 1#24, opcode := 5#8 } = false := by decide
theorem test_opcode_zero_refused : CommandWord.wf { rsvd := 0#24, opcode := 0#8 } = false := by decide
theorem test_opcode_eleven_refused : CommandWord.wf { rsvd := 0#24, opcode := 0x0B#8 } = false := by decide
theorem test_opcode_bounds_admitted : CommandWord.wf { rsvd := 0#24, opcode := 1#8 } = true ∧
    CommandWord.wf { rsvd := 0#24, opcode := 0x0A#8 } = true := by decide
theorem test_width_refused : Config.wf { w := 1, psDepth := 8 } = false ∧ Config.wf { w := 33, psDepth := 8 } = false := by
  decide
theorem test_depth_refused : Config.wf { w := 16, psDepth := 0 } = false ∧
    Config.wf { w := 16, psDepth := 2 ^ 32 } = false := by decide
theorem test_parameter_bounds_admitted : Config.wf { w := 2, psDepth := 1 } = true ∧
    Config.wf { w := 32, psDepth := 2 ^ 32 - 1 } = true ∧ Config.wf Config.default = true := by decide

/-! ### Decoding: 30_encoding.md R83 and R84, and the encodings of 95_test_vectors.md part 3 -/

theorem test_modinv_word : decodeCommand 0x00000001#32 = .ok .modinv := by decide
theorem test_enum_word : decodeCommand 0x00000002#32 = .ok .enum := by decide
theorem test_padd_word : decodeCommand 0x00000003#32 = .ok .padd := by decide
theorem test_pdbl_word : decodeCommand 0x00000004#32 = .ok .pdbl := by decide
theorem test_smul_word : decodeCommand 0x00000005#32 = .ok .smul := by decide
theorem test_encode_word : decodeCommand 0x00000006#32 = .ok .encode := by decide
theorem test_dhss_word : decodeCommand 0x00000007#32 = .ok .dhss := by decide
theorem test_egenc_word : decodeCommand 0x00000008#32 = .ok .egenc := by decide
theorem test_pneg_word : decodeCommand 0x00000009#32 = .ok .pneg := by decide
theorem test_egdec_word : decodeCommand 0x0000000A#32 = .ok .egdec := by decide
theorem test_illegal_words : decodeCommand 0x00000000#32 = .error .opcodeZero ∧
    decodeCommand 0x0000000B#32 = .error .opcodeUnassigned ∧ decodeCommand 0x000000FF#32 = .error .opcodeUnassigned ∧
    decodeCommand 0x00000105#32 = .error .reservedNonzero ∧ decodeCommand 0x80000001#32 = .error .reservedNonzero := by
  decide
theorem test_table_word : decodeTableWord 32 0x8 = some .egenc ∧ decodeTableWord 32 0x108 = none := by decide

/-- Programs 1 and 4: `WR A, 1`, `CMD ENUM`, `WR PSADDR, 7`, `WR ESTICKY, 0xFFFFFFFF`. -/
theorem test_write_encodings :
    encodeTxn (scriptTxn (.wr .a 1#32)) = 0x4900000001#39 ∧ encodeTxn (scriptTxn (.cmd .enum)) = 0x4300000002#39 ∧
    encodeTxn (scriptTxn (.wr .psaddr 7#32)) = 0x6900000007#39 ∧
    (expandPseudo .clrerr).map (fun l => encodeTxn (scriptTxn l)) = [0x45FFFFFFFF#39] := by decide
/-- Programs 1 and 4: `RD STATUS`, `RD PSX`, and `CMD 0x105`. -/
theorem test_read_encodings :
    encodeTxn (scriptTxn (.rd .status)) = 0x0400000000#39 ∧ encodeTxn (scriptTxn (.rd .psx)) = 0x2A00000000#39 ∧
    encodeTxn (scriptTxn (.cmdWord 0x105#32)) = 0x4300000105#39 := by decide
/-- Program 1, line 3, read back: `WR P, 5`. -/
theorem test_decode_txn : decodeTxn 0x4800000005#39 = { wr := true, addr := 0x08#6, wdata := 5#32 } := by decide
/-- Program 3, lines 1 to 8: `CURVE 1, 1, 5`, `LDP1 2, 1`, `KEYS 2, 2`. -/
theorem test_pseudo_expansion :
    (expandPseudo (.curve 1#32 1#32 5#32) ++ expandPseudo (.ldp1 2#32 1#32) ++ expandPseudo (.keys 2#32 2#32)).map
      (fun l => encodeTxn (scriptTxn l)) =
    [0x4900000001#39, 0x4A00000001#39, 0x4800000005#39, 0x4C00000002#39, 0x4D00000001#39, 0x4E00000000#39,
      0x5400000002#39, 0x5500000002#39] := by decide
/-- Program 2, lines 27 to 29: `RDR 3`; and 30_encoding.md R97: `LDP2 INF` is `WR P2T, 1`. -/
theorem test_rdr_expansion :
    (expandPseudo (.rdr .r3) ++ expandPseudo .ldp2Inf).map (fun l => encodeTxn (scriptTxn l)) =
    [0x2000000000#39, 0x2100000000#39, 0x2200000000#39, 0x5200000001#39] := by decide

/-! ### Commands: 95_test_vectors.md part 2 -/

/-- VI1. -/
theorem test_modinv_inverse :
    seen (exec .modinv { k5 with opa := 2#32 }) (fun t => (t.rs, word .status t)) = some (3#32, 0x00000001#32) := by
  decide +kernel
/-- VI2. -/
theorem test_modinv_of_zero : seen (exec .modinv k5) (fun t => (word .status t, t.rs, word .esticky t)) =
    some (0x00000012#32, 0#32, 0x00000002#32) := by decide +kernel

/-- VN1, with entry 7 of K5. -/
theorem test_enum_k5 :
    seen (exec .enum k5) (fun t => (word .status t, word .pscount t, word .psx { t with psAddr := 7#32 },
      word .psy { t with psAddr := 7#32 })) = some (0x00000101#32, 8#32, 4#32, 3#32) := by decide +kernel
/-- VN11. -/
theorem test_enum_overflow :
    seen (exec .enum (withDepth 7 k5)) (fun t => (word .status t, word .pscount t, word .esticky t)) =
      some (0x00000092#32, 0#32, 0x00000200#32) := by decide +kernel

/-- VG1. -/
theorem test_pneg_k17 : seen (exec .pneg { k17 with p1 := affReg 5#32 1#32 }) (fun t => (t.r1, word .status t)) =
    some (affReg 5#32 16#32, 0x00000001#32) := by decide +kernel
/-- VG6. -/
theorem test_pneg_without_curve :
    seen (exec .pneg { State.reset with p1 := affReg 5#32 1#32 }) (fun t => (t.r1, word .status t)) =
      some (PointReg.zero, 0x00000022#32) := by decide +kernel

/-- VG10. -/
theorem test_padd_chord :
    seen (exec .padd { k17 with p1 := affReg 5#32 1#32, p2 := affReg 6#32 3#32 }) (fun t => (t.r1, word .status t)) =
      some (affReg 10#32 6#32, 0x00000001#32) := by decide +kernel
/-- VG18. -/
theorem test_padd_not_invertible :
    seen (exec .padd { k5 with p1 := affReg 2#32 1#32, p2 := affReg 2#32 2#32 }) (fun t => (t.r1, word .status t)) =
      some (PointReg.zero, 0x00000012#32) := by decide +kernel

/-- VG30. -/
theorem test_pdbl_k17 : seen (exec .pdbl { k17 with p1 := affReg 5#32 1#32 }) (fun t => (t.r1, word .status t)) =
    some (affReg 6#32 3#32, 0x00000001#32) := by decide +kernel
/-- VG36. -/
theorem test_pdbl_composite :
    seen (exec .pdbl { onCurveState 1#32 1#32 9#32 with p1 := affReg 1#32 3#32 }) (fun t => (t.r1, word .status t)) =
      some (PointReg.zero, 0x00000012#32) := by decide +kernel

/-- The tabulated multiples of (5, 1) on K17: 13 of it is (16, 4). -/
theorem test_smul_by_13 : seen (exec .smul { k17 with p1 := affReg 5#32 1#32, k1 := 13#32 }) (fun t => t.r1) =
    some (affReg 16#32 4#32) := by decide +kernel
/-- The same table: 19 of it is the identity. -/
theorem test_smul_by_order :
    seen (exec .smul { k17 with p1 := affReg 5#32 1#32, k1 := 19#32 }) (fun t => (t.r1, word .status t)) =
      some (infReg, 0x00000001#32) := by decide +kernel

/-- VK11. -/
theorem test_encode_second_offset :
    seen (exec .encode { k7 with msg := 2#32 }) (fun t => (t.r1, t.rm, t.rh, t.rj)) =
      some (affReg 0#32 1#32, 2#32, 3#32, 1#32) := by decide +kernel
/-- VK12. -/
theorem test_encode_exhausted :
    seen (exec .encode { k7 with msg := 3#32 }) (fun t => (word .status t, word .pscount t, word .esticky t)) =
      some (0x00000152#32, 4#32, 0x00000020#32) := by decide +kernel

/-- VD1: 27·G = 8·G, with 3·G and 9·G. -/
theorem test_dhss_k17 :
    seen (exec .dhss { k17 with p1 := affReg 5#32 1#32, k1 := 3#32, k2 := 9#32 })
      (fun t => (t.r1, t.r2, t.r3, word .status t)) =
      some (affReg 13#32 7#32, affReg 10#32 6#32, affReg 7#32 6#32, 0x00000301#32) := by decide +kernel
/-- VD16. -/
theorem test_dhss_base_off_curve :
    seen (exec .dhss { k5 with k1 := 1#32, k2 := 3#32 }) (fun t => (t.r1, word .status t)) =
      some (PointReg.zero, 0x00000132#32) := by decide +kernel

/-- VC10. -/
theorem test_egenc_k5 :
    seen (exec .egenc { k5 with p1 := affReg 2#32 1#32, k1 := 2#32, k2 := 2#32, msg := 1#32 })
      (fun t => ((t.r1, t.r2, t.r3), (t.rm, t.rh, t.rj), word .status t)) =
      some ((affReg 3#32 4#32, affReg 2#32 4#32, affReg 0#32 1#32), (1#32, 5#32, 0#32), 0x00000101#32) := by
  decide +kernel
/-- VC23: MessageNotEncodable comes before PointNotOnCurve. -/
theorem test_egenc_error_order :
    seen (exec .egenc { k17 with p1 := affReg 5#32 2#32, k1 := 3#32, k2 := 9#32, msg := 7#32 })
      (fun t => (t.r1, word .status t)) = some (PointReg.zero, 0x00000152#32) := by decide +kernel

/-- Program 3, line 30, in a fresh session. -/
theorem test_egdec_k5 :
    seen (exec .egdec { k5 with p1 := affReg 3#32 4#32, p2 := affReg 2#32 4#32, k2 := 2#32 })
      (fun t => (t.r1, word .status t)) = some (affReg 0#32 1#32, 0x00000001#32) := by decide +kernel
/-- VC33: a P1 that is the identity. -/
theorem test_egdec_identity :
    seen (exec .egdec { k17 with p1 := infReg, p2 := affReg 5#32 1#32, k2 := 11#32 }) (fun t => t.r1) =
      some (affReg 13#32 7#32) := by decide +kernel

/-! ### The bus: 95_test_vectors.md section 2.7 -/

/-- VF1. -/
theorem test_reset_constants : (word .id State.reset, word .capw State.reset, word .capd State.reset) =
    (0x45434448#32, 0x00000010#32, 0x00020000#32) := by decide +kernel
/-- VF3: IllegalCommand comes before the test of P. -/
theorem test_illegal_command_after_reset :
    seen (step (hostWrite .cmd 0#32 State.reset)) (fun t => (word .status t, word .esticky t)) =
      some (0x00000082#32, 0x00000100#32) := by decide +kernel
/-- VF5: CMD keeps the illegal word. -/
theorem test_illegal_word_kept :
    seen (step (hostWrite .cmd 0x00000101#32 State.reset)) (fun t => (word .status t, word .cmd t)) =
      some (0x00000082#32, 0x00000101#32) := by decide +kernel
/-- VF8: bits 31:16 of P are ignored. -/
theorem test_coordinate_keeps_low_bits :
    seen (step (hostWrite .p 0x00010005#32 State.reset)) (word .p) = some 0x00000005#32 := by decide +kernel
/-- VF9, VF10. -/
theorem test_tag_keeps_bit_zero : seen (step (hostWrite .p1t 0xFFFFFFFE#32 State.reset)) (word .p1t) = some 0#32 ∧
    seen (step (hostWrite .p1t 3#32 State.reset)) (word .p1t) = some 1#32 := by decide +kernel
/-- VF12, VF14. -/
theorem test_read_only : seen (step (hostWrite .id 0#32 State.reset)) (word .id) = some 0x45434448#32 ∧
    seen (step (hostWrite .r1x 7#32 State.reset)) (word .r1x) = some 0#32 := by decide +kernel
/-- VF15: offsets 0x18 and 0xFC. -/
theorem test_unmapped : busRead k5Enumerated 0x06#6 = 0#32 ∧ busRead k5Enumerated 0x3F#6 = 0#32 := by decide +kernel
/-- VF17. -/
theorem test_sticky_write_one_to_clear :
    seen (step (hostWrite .esticky 0x00000002#32 { State.reset with esticky := 0x00000136#32 })) (word .esticky) =
      some 0x00000134#32 := by decide +kernel
/-- VF20. -/
theorem test_memo_survives_modinv_error :
    seen (exec .modinv k5Enumerated) (word .status) = some 0x00000112#32 := by decide +kernel
/-- VF21, VN13: a write of the value already there drops the memo. -/
theorem test_curve_write_drops_memo :
    seen (step (hostWrite .b 1#32 k5Enumerated)) (fun t => (word .status t, word .pscount t, word .psx t)) =
      some (0x00000001#32, 0#32, 0#32) := by decide +kernel
/-- VN15, VN16. -/
theorem test_window :
    seen (step (hostWrite .psaddr 3#32 k5Enumerated)) (fun t => (word .psx t, word .psy t)) = some (2#32, 4#32) ∧
    seen (step (hostWrite .psaddr 8#32 k5Enumerated)) (fun t => (word .psx t, word .psy t)) = some (0#32, 0#32) := by
  decide +kernel
/-- Program 1, line 5: a read returns its word. -/
theorem test_read_status :
    seen (step { k5Enumerated with inbox := [.txn { wr := false, addr := 0x04#6, wdata := 0#32 }] }) (·.rdata) =
      some (some 0x00000101#32) := by decide +kernel
/-- The first instruction after reset, placed as the host places it: Program 4, line 1. -/
theorem test_first_instruction :
    seen (step (State.reset.withFetchWord 32 0x00000001)) (word .status) = some 0x00000022#32 := by decide +kernel

/-! ### Witnesses: the statements' hypotheses are met

Each theorem names the statement; it shows, for each clause, a state and operands that meet its hypotheses. -/

theorem memoInv_of_invalid {s : State} (hv : s.status.psValid = false) (hc : s.psCount = 0#32) : MemoInv s :=
  ⟨fun h => absurd h (by simp [hv]), fun _ => hc⟩

theorem memoInv_k5Enumerated : MemoInv k5Enumerated := by
  unfold MemoInv HoldsPoints State.points; decide +kernel

/-- The invariant does not read PSADDR. -/
theorem memoInv_psAddr {s : State} (h : MemoInv s) (v : Word) : MemoInv { s with psAddr := v } := h

/-- The least power of two, for numerals. -/
theorem leastPower {m v : Nat} (h : npo2 m = v) : IsLeastPowerOfTwo m v := h ▸ npo2_spec m

theorem exec_afterCommand (i : Instr) (s : State) : exec i s = .next (afterCommand i s) := by cases i <;> rfl

theorem k17_onContract : CurveOnContract 2 2 17 := ⟨by norm_num, by decide, by decide⟩

theorem k5_onContract : CurveOnContract 1 1 5 := ⟨by norm_num, by decide, by decide⟩

/-- K17 with the base point and the keys of VD1 and VC1. -/
def k17Keys : State := { k17 with p1 := affReg 5#32 1#32, k1 := 3#32, k2 := 9#32, msg := 3#32 }

/-- A composite modulus, off-contract: y² = x³ + x modulo 9, with the base point (2, 1). -/
def mod9 (k1 k2 : Word) : State :=
  { onCurveState 1#32 0#32 9#32 with p1 := affReg 2#32 1#32, k1 := k1, k2 := k2, msg := 1#32 }

/-- A composite modulus, off-contract: y² = x³ modulo 4. -/
def mod4 (g : PointReg) (k1 k2 : Word) : State :=
  { onCurveState 0#32 0#32 4#32 with p1 := g, k1 := k1, k2 := k2, msg := 1#32 }

/-- E3, the empty curve of 95_test_vectors.md. -/
def e3 : State := onCurveState 2#32 2#32 3#32

/-- The premises that the statements about commands with a point set share, on a state whose memo is dropped. -/
def SetPremises (s : State) : Prop := s.cfg.wf = true ∧ MemoInv s ∧ PointSetAvailable s ∧ 2 ≤ s.p.toNat

theorem setPremises_of_dropped {s : State} (hw : s.cfg.wf = true) (hv : s.status.psValid = false) (hc : s.psCount = 0#32)
    (ha : 1 ≤ s.points.length ∧ s.points.length ≤ s.cfg.psDepth) (hp : 2 ≤ s.p.toNat) : SetPremises s :=
  ⟨hw, memoInv_of_invalid hv hc, Or.inr ha, hp⟩

theorem setPremises_k17Keys : SetPremises k17Keys :=
  setPremises_of_dropped (by decide) (by decide) (by decide) (by decide +kernel) (by decide)

theorem setPremises_mod9 (k1 k2 : Word) : SetPremises (mod9 k1 k2) := by
  have h : (mod9 k1 k2).points = enumPoints 1 0 9 := rfl
  exact setPremises_of_dropped (by decide : Config.default.wf = true) rfl rfl
    (by rw [h]; exact ⟨by decide +kernel, (by decide +kernel : _ ≤ 2 ^ 17)⟩) (by decide : 2 ≤ 9)

theorem setPremises_mod4 (g : PointReg) (k1 k2 : Word) : SetPremises (mod4 g k1 k2) := by
  have h : (mod4 g k1 k2).points = enumPoints 0 0 4 := rfl
  exact setPremises_of_dropped (by decide : Config.default.wf = true) rfl rfl
    (by rw [h]; exact ⟨by decide +kernel, (by decide +kernel : _ ≤ 2 ^ 17)⟩) (by decide : 2 ≤ 4)

/-! #### The step and the bus -/

theorem witness_StepRunsTheDecodedCommand :
    (State.reset.withFetchWord 32 0x0000000A).inbox =
      .txn { wr := true, addr := 0x03#6, wdata := 0x0000000A#32 } :: [] ∧
    decodeCommand 0x0000000A#32 = .ok .egdec := by decide
/-- One word for each disjunct, at its boundary. -/
theorem witness_IllegalWordRaisesIllegalCommand :
    (∀ w, (hostWrite .cmd w k5).inbox = .txn { wr := true, addr := 0x03#6, wdata := w } :: []) ∧
    (0x100#32).toNat / 256 ≠ 0 ∧ (0x00#32).toNat % 256 = 0x00 ∧ 0x0B ≤ (0x0B#32).toNat % 256 :=
  ⟨fun _ => rfl, by decide, by decide, by decide⟩
theorem witness_ReadsReturnTheRegister :
    ({ k5 with inbox := [.txn { wr := false, addr := 0x3F#6, wdata := 7#32 }, .reset] } : State).inbox =
      .txn { wr := false, addr := 0x3F#6, wdata := 7#32 } :: [.reset] := by decide
/-- The last entry, the index after it, a point set that is not valid, and the last entry again on the invariant. -/
theorem witness_WindowShowsTheEntry :
    (k5Enumerated.status.psValid = true ∧ 7 < k5Enumerated.psCount.toNat ∧
      psRead k5Enumerated.ps 7 = some { x := 4#32, y := 3#32 }) ∧
    k5Enumerated.psCount.toNat ≤ 8 ∧ k5.status.psValid = false ∧
    MemoInv { k5Enumerated with psAddr := 7#32 } ∧ k5Enumerated.points[7]? = some (4, 3) :=
  ⟨by decide +kernel, by decide +kernel, by decide, memoInv_psAddr memoInv_k5Enumerated _, by decide +kernel⟩
theorem witness_CurveWritesDropTheMemo : ∀ r ∈ [RegName.p, .a, .b],
    (hostWrite r 0xFFFFFFFF#32 k5).inbox = .txn { wr := true, addr := r.index, wdata := 0xFFFFFFFF#32 } :: [] := by decide
theorem witness_OperandWritesStoreTheirBits :
    ∀ r ∈ [RegName.p1x, .p1y, .p1t, .p2x, .p2y, .p2t, .k1, .k2, .msg, .opa, .psaddr],
    (hostWrite r 0xFFFFFFFF#32 k5).inbox = .txn { wr := true, addr := r.index, wdata := 0xFFFFFFFF#32 } :: [] := by decide
/-- The first and the last unmapped slots of 20_memory.md R70 and its range, and a read-only register. -/
theorem witness_UnmappedAndReadOnlyIgnoreWrites :
    (∀ addr ∈ [0x06#6, 0x23#6, 0x2C#6, 0x3F#6], regAt addr = none) ∧
    (regAt RegName.psy.index = some .psy ∧ regClass .psy = .readOnly) ∧
    (hostWrite .psy 7#32 k5).inbox = .txn { wr := true, addr := RegName.psy.index, wdata := 7#32 } :: [] := by decide
theorem witness_StickyLogIsWriteOneToClear :
    (hostWrite .esticky 0x136#32 k5).inbox =
      .txn { wr := true, addr := RegName.esticky.index, wdata := 0x136#32 } :: [] := by decide
theorem witness_IdleKeepsAllState : k5Enumerated.inbox = [] := by decide +kernel
theorem witness_ResetInputClearsTheRegisters : (presentInput .reset k5Enumerated).inbox = .reset :: [] := by decide +kernel
/-- Both alternatives of the conclusion occur. -/
theorem witness_OnlyAProtocolBreachStops : step k5 = .next k5 ∧
    step (presentInput .protocolBreach k5) = .fault .busProtocolBreach := ⟨rfl, rfl⟩

/-! #### The command frame -/

theorem witness_SmallModulusIsInvalidCurve :
    State.reset.p.toNat < 2 ∧ (onCurveState 1#32 1#32 1#32).p.toNat < 2 := by decide

/-- Codes 2 (small modulus, empty curve), 9, 1, 4, 5 and 3, over commands with and without a point set. -/
theorem witness_ErrorsArePrecise :
    ∀ c ∈ [(Instr.modinv, k5, 1#4), (.smul, State.reset, 2#4), (.enum, e3, 2#4), (.enum, withDepth 7 k5, 9#4),
      (.dhss, withDepth 7 k5, 9#4), (.encode, { k5 with msg := 5#32 }, 4#4), (.encode, { k7 with msg := 3#32 }, 5#4),
      (.dhss, k5, 3#4), (.dhss, mod9 2#32 2#32, 1#4)],
    c.2.1.cfg.wf = true ∧ MemoInv c.2.1 ∧ exec c.1 c.2.1 = .next (afterCommand c.1 c.2.1) ∧
      (afterCommand c.1 c.2.1).status.err = true ∧ (afterCommand c.1 c.2.1).status.errCode = c.2.2 := by
  have h : ∀ c ∈ [(Instr.modinv, k5, 1#4), (.smul, State.reset, 2#4), (.enum, e3, 2#4), (.enum, withDepth 7 k5, 9#4),
      (.dhss, withDepth 7 k5, 9#4), (.encode, { k5 with msg := 5#32 }, 4#4), (.encode, { k7 with msg := 3#32 }, 5#4),
      (.dhss, k5, 3#4), (.dhss, mod9 2#32 2#32, 1#4)],
      c.2.1.cfg.wf = true ∧ (c.2.1.status.psValid = false ∧ c.2.1.psCount = 0#32) ∧
        (afterCommand c.1 c.2.1).status.err = true ∧ (afterCommand c.1 c.2.1).status.errCode = c.2.2 := by decide +kernel
  intro c hc
  obtain ⟨h1, h2, h3⟩ := h c hc
  exact ⟨h1, memoInv_of_invalid h2.1 h2.2, exec_afterCommand _ _, h3⟩
/-- The clause about a memo that was valid before: an error of ENCODE on an enumerated K7. -/
theorem witness_ErrorsArePrecise_validMemo :
    MemoInv { k7Enumerated with msg := 3#32 } ∧ k7Enumerated.status.psValid = true ∧
    (afterCommand .encode { k7Enumerated with msg := 3#32 }).status.errCode = 5#4 := by
  unfold MemoInv HoldsPoints State.points; decide +kernel
theorem witness_CommandsKeepOperandsAndMemo : ∀ i ∈ [Instr.modinv, .padd, .pdbl, .smul, .pneg, .egdec, .enum],
    exec i k5Enumerated = .next (afterCommand i k5Enumerated) := fun i _ => exec_afterCommand i _
/-- The commands of each clause: ENCODE, MODINV, DHSS, and one of the others. -/
theorem witness_ResultsAreInRange :
    (∀ i ∈ [Instr.encode, .egenc, .modinv, .dhss, .padd, .enum], exec i { k17Keys with opa := 2#32 } =
      .next (afterCommand i { k17Keys with opa := 2#32 })) ∧ MemoInv { k17Keys with opa := 2#32 } ∧
    ∀ i ∈ [Instr.encode, .egenc, .modinv, .dhss, .padd, .enum],
      (afterCommand i { k17Keys with opa := 2#32 }).status.done = true :=
  ⟨fun i _ => exec_afterCommand i _, memoInv_of_invalid (by decide) (by decide), by decide +kernel⟩

/-! #### MODINV, ENUM -/

/-- The boundaries P = 1 and P = 2, a gcd that is not 1 for a composite P, and a prime P. -/
theorem witness_ModinvIsTheInverse :
    (onCurveState 1#32 1#32 1#32).p.toNat < 2 ∧ (2 ≤ 2 ∧ Nat.gcd (3 % 2) 2 = 1) ∧ Nat.gcd (6 % 9) 9 ≠ 1 ∧
    k5.p.toNat.Prime := ⟨by decide, by decide, by decide, by change Nat.Prime 5; norm_num⟩
theorem witness_EnumListIsTheCurve : (2 ≤ 2 ∧ Nat.Prime 2) ∧ 2 ≤ 8 := ⟨⟨by decide, by norm_num⟩, by decide⟩
/-- The frame's error; a set that exactly fills the memory; the empty curve; one point too many. -/
theorem witness_EnumStoresThePoints :
    State.reset.p.toNat < 2 ∧
    (2 ≤ (withDepth 8 k5).p.toNat ∧ 1 ≤ (withDepth 8 k5).points.length ∧
      (withDepth 8 k5).points.length ≤ (withDepth 8 k5).cfg.psDepth) ∧
    (2 ≤ e3.p.toNat ∧ e3.points.length = 0) ∧ (withDepth 7 k5).cfg.psDepth < (withDepth 7 k5).points.length := by
  decide +kernel
theorem witness_PrimeModulusNeverOverflows : (withDepth 10 k5).p.toNat.Prime ∧
    2 * (withDepth 10 k5).p.toNat ≤ (withDepth 10 k5).cfg.psDepth ∧
    exec .enum (withDepth 10 k5) = .next (afterCommand .enum (withDepth 10 k5)) :=
  ⟨by change Nat.Prime 5; norm_num, by decide, exec_afterCommand _ _⟩

/-! #### The point group -/

theorem witness_PnegNegates : State.reset.p.toNat < 2 ∧
    (2 ≤ k5.p.toNat ∧ ({ k5 with p1 := infReg } : State).p1.t = true) ∧
    ({ k5 with p1 := affReg 3#32 0#32 } : State).p1.t = false := by decide
/-- A state for each row of the cases: VG16, VG17, VG15, VG12, and for the slope VG18 (no inverse), VG13 (tangent) and VG10
(chord), with the numbers that 95_test_vectors.md gives for them. -/
theorem witness_PaddFollowsTheCases :
    State.reset.p.toNat < 2 ∧ 2 ≤ k17.p.toNat ∧
    (({ k17 with p1 := infReg, p2 := infReg } : State).p1.t = true ∧ infReg.t = true ∧ (affReg 5#32 1#32).t = false) ∧
    (5 = 5 ∧ (1 + 16) % 17 = 0) ∧
    (¬ (2 = 2 ∧ (1 + 2) % 5 = 0) ∧ ((0 : Int) = ((2 : Int) - 2) % 5 ∧ (1 : Int) = ((2 : Int) - 1) % 5) ∧ Nat.gcd 0 5 ≠ 1) ∧
    (¬ (5 = 5 ∧ (1 + 1) % 17 = 0) ∧ (2 = 2 * 1 % 17 ∧ 9 = (3 * 5 * 5 + k17.a.toNat) % 17) ∧ 2 * 9 % 17 = 1 ∧
      13 = 9 * 9 % 17 ∧ (6 : Int) = (13 * 13 - 5 - 5) % 17 ∧ (3 : Int) = (13 * (5 - 6) - 1) % 17) ∧
    (¬ (5 = 6 ∧ (1 + 3) % 17 = 0) ∧ ((1 : Int) = ((6 : Int) - 5) % 17 ∧ (2 : Int) = ((3 : Int) - 1) % 17) ∧
      1 * 1 % 17 = 1 ∧ 2 = 2 * 1 % 17 ∧ (10 : Int) = (2 * 2 - 5 - 6) % 17 ∧ (6 : Int) = (2 * (5 - 10) - 1) % 17) := by
  decide
theorem witness_PaddOfNegationIsIdentity : 2 ≤ k17Keys.p.toNat ∧
    exec .pneg k17Keys = .next (afterCommand .pneg k17Keys) := ⟨by decide, exec_afterCommand _ _⟩
/-- The frame's error, the identity, a vertical tangent (Z5), no inverse (VG36), the tangent of VG30, and a prime P. -/
theorem witness_PdblFollowsTheCases :
    State.reset.p.toNat < 2 ∧ infReg.t = true ∧ 2 * 0 % 5 = 0 ∧
    ((affReg 1#32 3#32).t = false ∧ 2 * 3 % 9 ≠ 0 ∧ Nat.gcd (2 * 3 % 9) 9 ≠ 1) ∧
    (2 * 1 % 17 ≠ 0 ∧ (2 * 1 % 17) * 9 % 17 = 1 ∧ 13 = (3 * 5 * 5 + k17.a.toNat) % 17 * 9 % 17 ∧
      (6 : Int) = (13 * 13 - 2 * 5) % 17 ∧ (3 : Int) = (13 * (5 - 6) - 1) % 17) ∧ Nat.Prime 17 :=
  ⟨by decide, by decide, by decide, by decide, by decide, by norm_num⟩
theorem witness_SmulByOneAndTwo : 2 ≤ k17Keys.p.toNat ∧ ({ k17Keys with k1 := 1#32 } : State).k1 = 1#32 ∧
    k17Keys.p1.t = false ∧ ({ k17Keys with k1 := 2#32 } : State).k1 = 2#32 := by decide
theorem witness_SmulRunsDoubleAndAdd : 2 ≤ k17Keys.p.toNat ∧ ({ k17Keys with k1 := 0#32 } : State).k1 = 0#32 ∧
    ({ k17Keys with p1 := infReg } : State).p1.t = true ∧ (k17Keys.k1 ≠ 0#32 ∧ k17Keys.p1.t = false) := by decide
theorem witness_SmulIsRepeatedAddition : CurveOnContract k17Keys.a.toNat k17Keys.b.toNat k17Keys.p.toNat ∧
    PointOnCurve k17Keys.a.toNat k17Keys.b.toNat k17Keys.p.toNat (rdpoint k17Keys.p1 k17Keys.p.toNat) :=
  ⟨k17_onContract, (by unfold OnCurve; decide : OnCurve 2 2 17 5 1)⟩
theorem witness_SmulDistributesOverAddition : CurveOnContract k17Keys.a.toNat k17Keys.b.toNat k17Keys.p.toNat ∧
    PointOnCurve k17Keys.a.toNat k17Keys.b.toNat k17Keys.p.toNat (rdpoint k17Keys.p1 k17Keys.p.toNat) ∧
    (4#32).toNat + (18#32).toNat < 2 ^ 32 ∧
    exec .smul { k17Keys with k1 := 4#32 } = .next (afterCommand .smul { k17Keys with k1 := 4#32 }) ∧
    exec .smul { k17Keys with k1 := 18#32 } = .next (afterCommand .smul { k17Keys with k1 := 18#32 }) :=
  ⟨k17_onContract, witness_SmulIsRepeatedAddition.2, by decide, exec_afterCommand _ _, exec_afterCommand _ _⟩

/-! #### ENCODE -/

theorem witness_CapacityIsTheLeastPowerOfTwo : 5 ≤ 2 ^ 3 ∧ 4 ≤ 2 ^ 2 := by decide
/-- VK11: offset 1 wins, on K7 with message 2. -/
theorem witness_EncodeFindsTheFirstOffset :
    SetPremises { k7 with msg := 2#32 } ∧ IsLeastPowerOfTwo 2 2 ∧ 2 ≤ 7 ∧ 3 = 7 / 2 ∧ 1 < 3 ∧ 0 = (2 * 3 + 1) % 7 ∧
    OnCurve 1 1 7 0 1 ∧ (∀ y', y' < 1 → ¬ OnCurve 1 1 7 0 y') ∧
    (∀ j' y', j' < 1 → ¬ OnCurve 1 1 7 ((2 * 3 + j') % 7) y') := by
  refine ⟨setPremises_of_dropped (by decide) (by decide) (by decide) (by decide +kernel) (by decide), leastPower (by decide),
    by decide, by decide, by decide, by decide, by unfold OnCurve; decide, by unfold OnCurve; decide, ?_⟩
  have h : ∀ j' < 1, ∀ y' < 7, ¬ OnCurve 1 1 7 ((2 * 3 + j') % 7) y' := by unfold OnCurve; decide
  exact fun j' y' hj hy => h j' hj y' hy.2.1 hy
/-- VK6 (8 > 5), and the boundary M = P: message 8 with P = 8. -/
theorem witness_MessageTooLargeExactlyAboveP :
    (2 ≤ k5.p.toNat ∧ IsLeastPowerOfTwo (5#32).toNat 8 ∧ k5.p.toNat < 8) ∧
    (IsLeastPowerOfTwo (8#32).toNat 8 ∧ 8 ≤ (onCurveState 1#32 1#32 8#32).p.toNat ∧
      exec .encode { onCurveState 1#32 1#32 8#32 with msg := 8#32 } =
        .next (afterCommand .encode { onCurveState 1#32 1#32 8#32 with msg := 8#32 })) :=
  ⟨⟨by decide, leastPower (by decide), by decide⟩, leastPower (by decide), by decide, exec_afterCommand _ _⟩
/-- VK12, the source's boundary example: K7 with message 3. -/
theorem witness_MessageNotEncodableAfterTheSearch :
    SetPremises { k7 with msg := 3#32 } ∧ IsLeastPowerOfTwo 3 4 ∧ 4 ≤ 7 ∧ 1 = 7 / 4 ∧
    (∀ j y, j < 1 → ¬ OnCurve 1 1 7 ((3 * 1 + j) % 7) y) := by
  refine ⟨setPremises_of_dropped (by decide) (by decide) (by decide) (by decide +kernel) (by decide), leastPower (by decide),
    by decide, by decide, ?_⟩
  have h : ∀ j < 1, ∀ y < 7, ¬ OnCurve 1 1 7 ((3 * 1 + j) % 7) y := by unfold OnCurve; decide
  exact fun j y hj hy => h j hj y hy.2.1 hy
theorem witness_EncodeOfZeroAndOne : SetPremises k17Keys ∧ SetPremises k5Enumerated :=
  ⟨setPremises_k17Keys, by decide +kernel, memoInv_k5Enumerated, Or.inl (by decide +kernel), by decide +kernel⟩

/-! #### DHSS, EGENC, EGDEC -/

/-- VD1. No operands are known on which the derivations differ. -/
theorem witness_DhssWritesTheSecret :
    SetPremises k17Keys ∧ k17Keys.p1.t = false ∧ 5 = k17Keys.p1.x.toNat % k17Keys.p.toNat ∧
    1 = k17Keys.p1.y.toNat % k17Keys.p.toNat ∧ OnCurve 2 2 17 5 1 ∧ smul (.aff 5 1) 3 2 17 = .ok (.aff 10 6) ∧
    smul (.aff 5 1) 9 2 17 = .ok (.aff 7 6) ∧ smul (.aff 7 6) 3 2 17 = .ok (.aff 13 7) ∧
    smul (.aff 10 6) 9 2 17 = .ok (.aff 13 7) :=
  ⟨setPremises_k17Keys, by decide, by decide, by decide, by unfold OnCurve; decide, by rfl, by rfl, by rfl, by rfl⟩
/-- Each of the four multiplications fails somewhere: K1·G and K2·G modulo 4, and K1·(K2·G) and K2·(K1·G) modulo 9. -/
theorem witness_DhssFailsWithItsMultiplications :
    (SetPremises (mod4 (affReg 1#32 1#32) 2#32 0#32) ∧ OnCurve 0 0 4 1 1 ∧
      smul (.aff 1 1) 2 0 4 = .error .notInvertible) ∧
    SetPremises (mod4 (affReg 1#32 1#32) 0#32 2#32) ∧
    (SetPremises (mod9 3#32 2#32) ∧ OnCurve 1 0 9 2 1 ∧ smul (.aff 2 1) 2 1 9 = .ok (.aff 0 3) ∧
      smul (.aff 0 3) 3 1 9 = .error .notInvertible) ∧ SetPremises (mod9 2#32 3#32) :=
  ⟨⟨setPremises_mod4 _ _ _, by unfold OnCurve; decide, by rfl⟩, setPremises_mod4 _ _ _,
    ⟨setPremises_mod9 _ _, by unfold OnCurve; decide, by rfl, by rfl⟩, setPremises_mod9 _ _⟩
/-- VD10 (the identity), VD11 ((5, 2) is off K17), and an ENCODE that succeeds. -/
theorem witness_BasePointIsValidated :
    SetPremises k17Keys ∧ ({ k17Keys with p1 := infReg } : State).p1.t = true ∧
    ¬ OnCurve 2 2 17 (5 % 17) (2 % 17) ∧
    exec .encode k17Keys = .next (afterCommand .encode k17Keys) ∧ (afterCommand .encode k17Keys).status.done = true :=
  ⟨setPremises_k17Keys, by decide, by unfold OnCurve; decide, exec_afterCommand _ _, by decide +kernel⟩
/-- E3 (VD13, VK25), and K5 with seven entries (VK28); message 1 has M = 1. -/
theorem witness_PointSetUnavailable :
    (MemoInv e3 ∧ e3.status.psValid = false ∧ 2 ≤ e3.p.toNat ∧ e3.points.length = 0 ∧ npo2 1 ≤ 3) ∧
    (MemoInv (withDepth 7 k5) ∧ (withDepth 7 k5).status.psValid = false ∧
      (withDepth 7 k5).cfg.psDepth < (withDepth 7 k5).points.length ∧ npo2 1 ≤ 5) :=
  ⟨⟨memoInv_of_invalid (by decide) (by decide), by decide, by decide, by decide +kernel, by decide⟩,
    memoInv_of_invalid (by decide) (by decide), by decide, by decide +kernel, by decide⟩
theorem witness_DhssAgreesOnContract : SetPremises k17Keys ∧
    CurveOnContract k17Keys.a.toNat k17Keys.b.toNat k17Keys.p.toNat ∧ k17Keys.p1.t = false ∧
    OnCurve 2 2 17 (k17Keys.p1.x.toNat % k17Keys.p.toNat) (k17Keys.p1.y.toNat % k17Keys.p.toNat) :=
  ⟨setPremises_k17Keys, k17_onContract, by decide, by unfold OnCurve; decide⟩
/-- VC1: message 3 encodes as (13, 7) at offset 1; the ciphertext is a doubling. -/
theorem witness_EgencWritesTheCiphertext :
    SetPremises k17Keys ∧ IsLeastPowerOfTwo k17Keys.msg.toNat 4 ∧ (4 ≤ 17 ∧ 4 = 17 / 4 ∧ 1 < 4 ∧ 13 = (3 * 4 + 1) % 17) ∧
    OnCurve 2 2 17 13 7 ∧ (∀ y', y' < 7 → ¬ OnCurve 2 2 17 13 y') ∧
    (∀ j' y', j' < 1 → ¬ OnCurve 2 2 17 ((3 * 4 + j') % 17) y') ∧ OnCurve 2 2 17 5 1 ∧
    smul (.aff 5 1) 9 2 17 = .ok (.aff 7 6) ∧ smul (.aff 7 6) 3 2 17 = .ok (.aff 13 7) ∧
    padd (.aff 13 7) (.aff 13 7) 2 17 = .ok (.aff 10 11) ∧ smul (.aff 5 1) 3 2 17 = .ok (.aff 10 6) := by
  refine ⟨setPremises_k17Keys, leastPower (by decide), by decide, by unfold OnCurve; decide, by unfold OnCurve; decide, ?_,
    by unfold OnCurve; decide, by rfl, by rfl, by rfl, by rfl⟩
  have h : ∀ j' < 1, ∀ y' < 17, ¬ OnCurve 2 2 17 ((3 * 4 + j') % 17) y' := by unfold OnCurve; decide
  exact fun j' y' hj hy => h j' hj y' hy.2.1 hy
/-- The four failures, with message 1, which has M = 1 and its point at abscissa 0 with ordinate 0 on both curves. -/
theorem witness_EgencWritesTheCiphertext_failures :
    IsLeastPowerOfTwo 1 1 ∧ (OnCurve 0 0 4 ((1 * 4 + 0) % 4) 0 ∧ OnCurve 1 0 9 ((1 * 9 + 0) % 9) 0) ∧
    (SetPremises (mod4 (affReg 1#32 1#32) 0#32 2#32) ∧ smul (.aff 1 1) 2 0 4 = .error .notInvertible) ∧
    SetPremises (mod4 (affReg 1#32 1#32) 2#32 0#32) ∧
    (SetPremises (mod9 3#32 2#32) ∧ smul (.aff 2 1) 2 1 9 = .ok (.aff 0 3) ∧
      smul (.aff 0 3) 3 1 9 = .error .notInvertible) ∧
    (SetPremises (mod4 (affReg 0#32 2#32) 1#32 1#32) ∧ OnCurve 0 0 4 0 2 ∧ smul (.aff 0 2) 1 0 4 = .ok (.aff 0 2) ∧
      padd (.aff 0 0) (.aff 0 2) 0 4 = .error .notInvertible) :=
  ⟨leastPower (by decide), by unfold OnCurve; decide, ⟨setPremises_mod4 _ _ _, by rfl⟩, setPremises_mod4 _ _ _,
    ⟨setPremises_mod9 _ _, by rfl, by rfl⟩, setPremises_mod4 _ _ _, by unfold OnCurve; decide, by rfl, by rfl⟩
/-- The frame's error; Program 3; a multiplication that fails modulo 4; an addition that fails on K5 (VG18's operands). -/
theorem witness_EgdecWritesTheMessagePoint :
    State.reset.p.toNat < 2 ∧
    (smul (.aff 2 4) 2 1 5 = .ok (.aff 2 1) ∧ padd (.aff 3 4) (pneg (.aff 2 1) 5) 1 5 = .ok (.aff 0 1)) ∧
    smul (.aff 1 1) 2 0 4 = .error .notInvertible ∧
    (smul (.aff 2 2) 1 1 5 = .ok (.aff 2 2) ∧ padd (.aff 2 1) (pneg (.aff 2 2) 5) 1 5 = .error .notInvertible) :=
  ⟨by decide, ⟨by rfl, by rfl⟩, by rfl, by rfl, by rfl⟩
theorem witness_DecryptionRecoversThePoint : k17Keys.cfg.wf = true ∧ MemoInv k17Keys ∧
    CurveOnContract k17Keys.a.toNat k17Keys.b.toNat k17Keys.p.toNat ∧
    exec .egenc k17Keys = .next (afterCommand .egenc k17Keys) ∧ (afterCommand .egenc k17Keys).status.done = true :=
  ⟨by decide, setPremises_k17Keys.2.1, k17_onContract, exec_afterCommand _ _, by decide +kernel⟩

/-! #### The invariants -/

/-- A step that validates the memo, and one that starts from a valid one. -/
theorem witness_StepKeepsTheMemoInvariant :
    (k5.cfg.wf = true ∧ MemoInv k5 ∧ ∃ t, step (hostWrite .cmd 2#32 k5) = .next t ∧ t.status.psValid = true) ∧
    (MemoInv k5Enumerated ∧ ∃ t, step (hostWrite .b 1#32 k5Enumerated) = .next t ∧ t.status.psValid = false) :=
  ⟨⟨by decide, memoInv_of_invalid (by decide) (by decide), _, rfl, by decide +kernel⟩, memoInv_k5Enumerated, _, rfl,
    by decide +kernel⟩
theorem witness_StepKeepsTheCanonicalForm :
    psWf k5Enumerated.cfg.psDepth k5Enumerated.ps = true ∧ step k5Enumerated = .next k5Enumerated :=
  ⟨by decide +kernel, rfl⟩
theorem witness_StepKeepsTheStatusInvariant :
    (StatusInv k5Enumerated ∧ StickyInv k5Enumerated ∧ ResultsInv k5Enumerated) ∧ step k5Enumerated = .next k5Enumerated := by
  refine ⟨?_, rfl⟩
  unfold StatusInv StickyInv ResultsInv
  decide +kernel
theorem witness_StepKeepsTheWidths : WidthInv k5Enumerated ∧ step k5Enumerated = .next k5Enumerated := by
  refine ⟨?_, rfl⟩
  unfold WidthInv ResultPointOk
  decide +kernel
theorem witness_MemoNeverChangesResults : MemoInv k5Enumerated ∧ k5Enumerated.status.psValid = true :=
  ⟨memoInv_k5Enumerated, by decide +kernel⟩
/-- Two states that differ in an entry of PS behind PSCOUNT, and two that differ in entry 0 with no valid point set. -/
theorem witness_HiddenEntriesAreNeverObserved :
    SameButHiddenEntries k5Enumerated { k5Enumerated with ps := psWrite k5Enumerated.ps 8 { x := 1#32, y := 1#32 } } ∧
    k5Enumerated.ps ≠ psWrite k5Enumerated.ps 8 { x := 1#32, y := 1#32 } ∧
    SameButHiddenEntries k5 { k5 with ps := [(0, { x := 1#32, y := 1#32 })] } := by
  refine ⟨⟨rfl, fun _ => ?_⟩, by decide +kernel, rfl, fun h => absurd h (by decide)⟩
  have h : ∀ i < k5Enumerated.psCount.toNat,
      psRead (psWrite k5Enumerated.ps 8 { x := 1#32, y := 1#32 }) i = psRead k5Enumerated.ps i := by decide +kernel
  exact h

end Sys2Proof.Tests
end

namespace Sys2Proof.Machine

/-! ## Every step keeps an invariant: the five things to show

A step takes one input; what it can then do is `StepCase`. An invariant of the state is kept by every step when it does not
look at the host's inputs, and reset, a store, an illegal word and a command keep it. -/

/-- What makes an invariant one that every step keeps, one field per kind of step (10_state.md R20). -/
structure KeptByInputs (I : State → Prop) : Prop where
  ports : ∀ {u : State} (rest : List HostInput) (d : Option Word), I u → I { u with inbox := rest, rdata := d }
  reset : ∀ {u : State}, I u → I (applyReset u)
  store : ∀ {u : State} (r : RegName) (w : Word), r ≠ .cmd → I u → I (regWrite r w u)
  illegal : ∀ {u : State} (w : Word), I u → I (u.failed w ErrKind.illegalCommand.code)
  command : ∀ {i : Instr} {u t : State}, I u → exec i u = .next t → I t

theorem KeptByInputs.step {I : State → Prop} (k : KeptByInputs I) {s t : State} (hs : I s) (h : step s = .next t) : I t := by
  cases step_cases h with
  | idle _ ht => exact ht ▸ hs
  | reset rest _ ht => exact ht ▸ k.reset (k.ports rest s.rdata hs)
  | read x rest _ _ ht => exact ht ▸ k.ports rest _ hs
  | store x r rest _ _ _ hr ht => exact ht ▸ k.store r _ hr (k.ports rest none hs)
  | unmapped x rest _ _ _ ht => exact ht ▸ k.ports rest none hs
  | illegal x e rest _ _ _ _ ht => exact ht ▸ k.illegal _ (k.ports rest none hs)
  | command x i rest _ _ _ _ ht => exact k.command (k.ports rest none hs) ht

theorem ne_invalidScalar_of_mayRaise {i : Instr} {e : ErrKind} (h : e ∈ mayRaise i) : e ≠ .invalidScalar := by
  rintro rfl
  cases i <;> simp [mayRaise] at h

/-- A command keeps what `enumerate` and both ends of a command keep, when that does not depend on the values of the results
(30_encoding.md R90, 60_exceptions.md R190). -/
theorem exec_keeps {I : State → Prop} (henum : ∀ {u : State}, I u → I (enumerate u).1)
    (hok : ∀ {u : State} (w : Word) (r : Results), I u → I (u.succeeded w r))
    (herr : ∀ {u : State} (w : Word) {e : ErrKind}, e ≠ .invalidScalar → I u → I (u.failed w e.code))
    {i : Instr} {s t : State} (hs : I s) (h : exec i s = .next t) : I t := by
  obtain ⟨u, hu, ht⟩ := exec_end h
  have hI : I u := by
    rcases hu with rfl | rfl
    · exact hs
    · exact henum hs
  rcases ht with ⟨r, rfl⟩ | ⟨e, he, rfl⟩
  · exact hok _ r hI
  · exact herr _ (ne_invalidScalar_of_mayRaise he) hI

/-! ## The invariant of the memo (10_state.md R45) -/

theorem memoInv_dropMemo (s : State) : MemoInv (dropMemo s) :=
  ⟨fun h => Bool.noConfusion h, fun _ => rfl⟩

/-- A store to P, A or B drops the memo, and any other store leaves all that the invariant reads (10_state.md R32). -/
theorem regWrite_memoInv {s : State} (r : RegName) (w : Word) (h : MemoInv s) : MemoInv (regWrite r w s) := by
  cases r with
  | p => exact memoInv_dropMemo _
  | a => exact memoInv_dropMemo _
  | b => exact memoInv_dropMemo _
  | _ => exact h

theorem regWrite_cfg (r : RegName) (w : Word) (s : State) : (regWrite r w s).cfg = s.cfg := by
  cases r <;> rfl

theorem enumerate_cfg (s : State) : (enumerate s).1.cfg = s.cfg := by
  rw [enumerate_frame]

/-- The invariant of the memo, with the premise on the parameters under which `enumerate` keeps it. -/
def LegalMemo (s : State) : Prop := s.cfg.wf = true ∧ MemoInv s

theorem enumerate_legalMemo {s : State} (h : LegalMemo s) : LegalMemo (enumerate s).1 :=
  ⟨by rw [enumerate_cfg]; exact h.1, enumerate_memoInv h.1⟩

theorem legalMemo_keptByInputs : KeptByInputs LegalMemo where
  ports _ _ h := h
  reset h := ⟨h.1, memoInv_dropMemo _⟩
  store r w _ h := ⟨by rw [regWrite_cfg]; exact h.1, regWrite_memoInv r w h.2⟩
  illegal _ h := h
  command := exec_keeps enumerate_legalMemo (fun _ _ h => h) fun _ _ _ h => h

/-- Settles O52: only `enumerate` validates the memo, and then it holds the points; a write to P, A or B drops it. -/
theorem stepKeepsTheMemoInvariant : Obligations.StepKeepsTheMemoInvariant := by
  intro s t hw hs h
  exact (legalMemo_keptByInputs.step ⟨hw, hs⟩ h).2

/-! ## STATUS, ESTICKY and the results -/

/-- STATUS at the end of a command that raised (60_exceptions.md R185, R190). -/
theorem statusInv_failed (w : Word) {e : ErrKind} (he : e ≠ .invalidScalar) (s : State) :
    StatusInv (s.failed w e.code) := by
  refine ⟨by simp [State.failed], by simp [State.failed], fun _ => ?_, by simp [State.failed]⟩
  revert he
  simp only [State.failed]
  cases e <;> decide

theorem statusInv_succeeded (w : Word) (r : Results) (s : State) : StatusInv (s.succeeded w r) := by
  simp [StatusInv, State.succeeded]

/-- `raise` sets one of the bits 1 to 5 and 8 to 10 of the log (60_exceptions.md R190, R192). -/
theorem stickyInv_failed (w : Word) {e : ErrKind} (he : e ≠ .invalidScalar) {s : State} (h : StickyInv s) :
    StickyInv (s.failed w e.code) := by
  have hbit : 1#32 <<< e.code &&& ~~~0x0000073E#32 = 0#32 := by revert he; cases e <;> decide
  have h : s.esticky &&& ~~~0x0000073E#32 = 0#32 := h
  simp only [StickyInv, State.failed, BitVec.and_or_distrib_right, h, hbit]
  rfl

theorem resultsInv_failed (w : Word) (c : Nat) (s : State) : ResultsInv (s.failed w c) :=
  fun _ => ⟨rfl, rfl, rfl, rfl, rfl, rfl, rfl⟩

theorem resultsInv_succeeded (w : Word) (r : Results) (s : State) : ResultsInv (s.succeeded w r) :=
  fun h => by cases h

/-- A host write to the log sets no bit (10_state.md R31). -/
theorem stickyInv_stickyWrite {s : State} (w : Word) (h : StickyInv s) :
    StickyInv { s with esticky := stickyWrite w s.esticky } := by
  have h : s.esticky &&& ~~~0x0000073E#32 = 0#32 := h
  simp only [StickyInv, stickyWrite]
  rw [BitVec.and_assoc, BitVec.and_comm (~~~(w &&& stickyMask)), ← BitVec.and_assoc, h, BitVec.zero_and]

/-- The three invariants of `StepKeepsTheStatusInvariant` together. -/
def ReportInv (s : State) : Prop := StatusInv s ∧ StickyInv s ∧ ResultsInv s

theorem reportInv_failed (w : Word) {e : ErrKind} (he : e ≠ .invalidScalar) {s : State} (h : ReportInv s) :
    ReportInv (s.failed w e.code) := by
  obtain ⟨-, hsticky, -⟩ := h
  exact ⟨statusInv_failed w he s, stickyInv_failed w he hsticky, resultsInv_failed w _ s⟩

theorem reportInv_succeeded (w : Word) (r : Results) {s : State} (h : ReportInv s) : ReportInv (s.succeeded w r) := by
  obtain ⟨-, hsticky, -⟩ := h
  exact ⟨statusInv_succeeded w r s, hsticky, resultsInv_succeeded w r s⟩

theorem regWrite_reportInv {s : State} (r : RegName) (w : Word) (h : ReportInv s) : ReportInv (regWrite r w s) := by
  cases r with
  | esticky =>
    obtain ⟨hstatus, hsticky, hresults⟩ := h
    exact ⟨hstatus, stickyInv_stickyWrite w hsticky, hresults⟩
  | _ => exact h

theorem enumerate_reportInv {s : State} (h : ReportInv s) : ReportInv (enumerate s).1 := by
  rw [enumerate_frame]
  exact h

theorem resetOf_reportInv (c : Config) : ReportInv (State.resetOf c) :=
  ⟨by simp [StatusInv, State.resetOf, Status.reset], by simp [StickyInv, State.resetOf],
    fun _ => ⟨rfl, rfl, rfl, rfl, rfl, rfl, rfl⟩⟩

theorem reportInv_keptByInputs : KeptByInputs ReportInv where
  ports _ _ h := h
  reset {u} _ := resetOf_reportInv u.cfg
  store r w _ h := regWrite_reportInv r w h
  illegal w h := reportInv_failed w (by decide) h
  command := exec_keeps enumerate_reportInv (fun w r h => reportInv_succeeded w r h) fun w _ he h => reportInv_failed w he h

/-- Settles O54: the frame clears the results before it raises, and no command raises code 6. -/
theorem stepKeepsTheStatusInvariant : Obligations.StepKeepsTheStatusInvariant :=
  fun _ _ hs h => reportInv_keptByInputs.step hs h

/-! ## The canonical form of the point-set memory -/

/-- The canonical form of the state's own memory. -/
def CanonicalPs (s : State) : Prop := psWf s.cfg.psDepth s.ps = true

theorem enumerate_canonicalPs {s : State} (h : CanonicalPs s) : CanonicalPs (enumerate s).1 := by
  unfold CanonicalPs
  rw [enumerate_cfg]
  exact enumerate_psWf h

theorem canonicalPs_keptByInputs : KeptByInputs CanonicalPs where
  ports _ _ h := h
  reset h := h
  store r w _ h := by cases r <;> exact h
  illegal _ h := h
  command := exec_keeps enumerate_canonicalPs (fun _ _ h => h) fun _ _ _ h => h

/-- Settles O53: the memory is written by `enumerate` alone, at indexes below PS_DEPTH. -/
theorem stepKeepsTheCanonicalForm : Obligations.StepKeepsTheCanonicalForm :=
  fun _ _ hs h => canonicalPs_keptByInputs.step hs h

end Sys2Proof.Machine

namespace Sys2Proof.Machine

/-! ## Words and the register map -/

/-- A concatenation as a number: the left part counts `2 ^ n`. -/
theorem toNat_append_eq_add {m n : Nat} (x : BitVec m) (y : BitVec n) : (x ++ y).toNat = x.toNat * 2 ^ n + y.toNat := by
  rw [BitVec.toNat_append, ← Nat.shiftLeft_add_eq_or_of_lt y.isLt, Nat.shiftLeft_eq]

/-- The layout of STATUS as a sum of its fields (10_state.md R29). -/
theorem toWord_toNat (st : Status) :
    st.toWord.toNat = st.done.toNat + 2 * st.err.toNat + 16 * st.errCode.toNat + 256 * st.psValid.toNat +
      512 * st.agree.toNat := by
  simp only [Status.toWord, toNat_append_eq_add, BitVec.toNat_ofBool, BitVec.toNat_ofNat]
  omega

/-- The register at a word index has that index (10_state.md R47). -/
theorem index_of_regAt {addr : BusAddr} {r : RegName} (h : regAt addr = some r) : r.index = addr := by
  have key : ∀ addr : BusAddr, ∀ r ∈ regAt addr, r.index = addr := by decide
  exact key addr r h

theorem regAt_eq_some_iff {addr : BusAddr} {r : RegName} : regAt addr = some r ↔ r.index = addr :=
  ⟨index_of_regAt, fun h => h ▸ regAt_index r⟩

theorem offset_eq_iff {addr : BusAddr} {r : RegName} : r.offset = 4 * addr.toNat ↔ r.index = addr := by
  rw [RegName.offset, ← BitVec.toNat_inj]
  omega

/-- Settles O6: the map has each register at its own word index. -/
theorem registerMap : Obligations.RegisterMap := by
  refine ⟨fun addr r => regAt_eq_some_iff.trans offset_eq_iff.symm, ?_⟩
  decide

/-! ## Reads -/

/-- A read of a register's own slot answers the register (20_memory.md R63). -/
@[simp] theorem busRead_index (s : State) (r : RegName) : busRead s r.index = regRead s r := by
  rw [busRead, regAt_index]

/-- Settles O10: the reserved fields of the word are 0 and add nothing. -/
theorem statusLayout : Obligations.StatusLayout := by
  intro s
  rw [busRead_index]
  exact toWord_toNat s.status

/-- The implemented bits of ESTICKY (10_state.md R31). -/
theorem stickyMask_getLsbD {i : Nat} (hi : i < 32) :
    stickyMask.getLsbD i = (decide (1 ≤ i ∧ i ≤ 6) || decide (8 ≤ i ∧ i ≤ 10)) := by
  revert i
  decide

theorem windowEntry_of_valid {s : State} (hv : s.status.psValid = true) (hlt : s.psAddr.toNat < s.psCount.toNat) :
    windowEntry s = psRead s.ps s.psAddr.toNat := if_pos ⟨hv, hlt⟩

theorem windowEntry_eq_none {s : State} (h : s.status.psValid = false ∨ s.psCount.toNat ≤ s.psAddr.toNat) :
    windowEntry s = none := by
  refine if_neg fun ⟨hv, hlt⟩ => ?_
  rcases h with h | h
  · rw [h] at hv; cases hv
  · omega

/-- What PSX and PSY read, from what the window shows (10_state.md R41). -/
theorem window_read_some {s : State} {e : PsEntry} (h : windowEntry s = some e) :
    busRead s RegName.psx.index = e.x ∧ busRead s RegName.psy.index = e.y := by
  simp [regRead, h]

theorem window_read_none {s : State} (h : windowEntry s = none) :
    busRead s RegName.psx.index = 0#32 ∧ busRead s RegName.psy.index = 0#32 := by
  simp [regRead, h]

/-- Settles O11: on the invariant of the memo entry PSADDR is the point of that number. -/
theorem windowShowsTheEntry : Obligations.WindowShowsTheEntry := by
  refine ⟨fun s e hv hlt he => window_read_some ((windowEntry_of_valid hv hlt).trans he),
    fun s h => window_read_none (windowEntry_eq_none h), fun s pt hs hv hpt => ?_⟩
  obtain ⟨-, -, hh⟩ := hs.1 hv
  obtain ⟨hn, hr⟩ := holdsPoints_iff.1 hh
  have hm : pt ∈ s.points := List.mem_of_getElem? hpt
  have hlt : s.psAddr.toNat < s.psCount.toNat := by
    rw [hn]
    exact (List.getElem?_eq_some_iff.1 hpt).1
  have he : windowEntry s = some (psEntry pt) := by rw [windowEntry_of_valid hv hlt, hr _ hlt, hpt]; rfl
  obtain ⟨hx, hy⟩ := window_read_some he
  rw [hx, hy]
  exact ⟨psEntry_x hm s.p.isLt.le, psEntry_y hm s.p.isLt.le⟩

/-! ## Writes -/

/-- A write to a register other than CMD only stores (20_memory.md R64). -/
theorem busWrite_store {addr : BusAddr} {r : RegName} (h : regAt addr = some r) (hc : r ≠ .cmd) (w : Word) (s : State) :
    busWrite addr w s = .next (regWrite r w s) := by
  unfold busWrite
  rw [h]
  cases r with
  | cmd => exact absurd rfl hc
  | _ => rfl

/-- A step that takes a write to a register other than CMD stores the word and takes the input (20_memory.md R64). -/
theorem step_store {s : State} {r : RegName} {w : Word} {rest : List HostInput} (hc : r ≠ .cmd)
    (h : s.inbox = .txn { wr := true, addr := r.index, wdata := w } :: rest) :
    step s = .next (regWrite r w { s with inbox := rest, rdata := none }) :=
  (step_write h).trans (busWrite_store (regAt_index r) hc w _)

/-- Settles O12: a store to one of the three is the register write and `dropMemo`. -/
theorem curveWritesDropTheMemo : Obligations.CurveWritesDropTheMemo := by
  intro s w rest r h
  refine ⟨?_, ?_, ?_⟩ <;> rintro rfl <;> exact step_store (by decide) h

/-- Settles O15: both the write and the read go through the mask of the implemented bits. -/
theorem stickyLogIsWriteOneToClear : Obligations.StickyLogIsWriteOneToClear := by
  refine ⟨fun s w rest h => ⟨stickyWrite w s.esticky, step_store (by decide) h, fun i hi => ?_⟩, fun s i hi => ?_⟩
  · simp only [stickyWrite, BitVec.getLsbD_and, BitVec.getLsbD_not, hi, decide_true, Bool.true_and, stickyMask_getLsbD hi]
  · simp [regRead, stickyRead, stickyMask_getLsbD hi]

/-- Settles O7: slot 0x03 is CMD, and a write to CMD of a legal word is `exec`. -/
theorem stepRunsTheDecodedCommand : Obligations.StepRunsTheDecodedCommand := by
  intro s w i rest h hd
  have hcmd : regAt 0x03#6 = some .cmd := regAt_index .cmd
  simp only [step_write h, busWrite, hcmd, commandWrite, hd]

/-! ## Reset -/

/-- After reset every register but the three constants reads 0 (10_state.md R47). -/
theorem regRead_reset_eq_zero {r : RegName} (hid : r ≠ .id) (hw : r ≠ .capw) (hd : r ≠ .capd) :
    regRead State.reset r = 0#32 := by
  cases r with
  | id => exact absurd rfl hid
  | capw => exact absurd rfl hw
  | capd => exact absurd rfl hd
  | _ => rfl

/-- After reset every slot behind CAPD reads 0 (10_state.md R47, 20_memory.md R70). -/
theorem busRead_reset_eq_zero {addr : BusAddr} (h : 3 ≤ addr.toNat) : busRead State.reset addr = 0#32 := by
  unfold busRead
  cases hr : regAt addr with
  | none => rfl
  | some r =>
    rw [← index_of_regAt hr] at h
    refine regRead_reset_eq_zero ?_ ?_ ?_ <;> rintro rfl <;> exact absurd h (by decide)

/-- Settles O17: the constants are in the first three slots, and every slot behind them reads 0. -/
theorem resetValues : Obligations.ResetValues := by
  refine ⟨rfl, rfl, rfl, fun _ => busRead_reset_eq_zero, ?_⟩
  exact ⟨rfl, rfl, rfl, rfl, rfl, rfl, rfl, rfl, rfl, rfl, rfl, rfl, rfl, rfl, rfl, rfl, rfl, rfl, rfl, rfl, rfl⟩

end Sys2Proof.Machine

namespace Sys2Proof.Machine

/-! ## What a command leaves alone (10_state.md R40) -/

/-- The six commands of 10_state.md R40 that neither write nor consult the point set. -/
theorem usesPointSet_eq_false {i : Instr} (h : i ∈ [Instr.modinv, .padd, .pdbl, .smul, .pneg, .egdec]) :
    usesPointSet i = false := by
  revert h
  cases i <;> decide

/-- Settles O23: a command ends in its own state with another memo and other results. -/
theorem commandsKeepOperandsAndMemo : Obligations.CommandsKeepOperandsAndMemo := by
  intro i s t h
  obtain ⟨ps, n, v, hkeep, ⟨r, ht⟩ | ⟨e, -, ht⟩⟩ := exec_spec i s
  all_goals
    obtain rfl := Host.Outcome.next.inj (h.symm.trans ht)
    refine ⟨⟨rfl, rfl, rfl, rfl, rfl, rfl, rfl, rfl, rfl, rfl, rfl, rfl, rfl⟩, fun hi => ?_⟩
    rw [hkeep (usesPointSet_eq_false hi)]
    exact ⟨rfl, rfl, rfl⟩

/-! ## What the commands put in the result registers -/

/-- A computation that may fail, in two parts: it succeeded when both did. -/
theorem bind_eq_ok {α β : Type} {x : Except ErrKind α} {f : α → Except ErrKind β} {b : β} (h : x >>= f = .ok b) :
    ∃ a, x = .ok a ∧ f a = .ok b := by
  cases x with
  | error e => cases h
  | ok a => exact ⟨a, rfl, h⟩

/-- Coordinates below `p` are below anything that is at least `p`. -/
theorem PointReduced.mono {p n : Nat} {R : Point} (h : PointReduced p R) (hn : p ≤ n) : PointReduced n R := by
  cases R with
  | inf => trivial
  | aff x y => exact ⟨h.1.trans_le hn, h.2.trans_le hn⟩

/-- A sum is one of the operands, or its coordinates are residues, whatever the operands are (42_point_group.md R122, R123). -/
theorem padd_ok_cases {P Q R : Point} {a p : Nat} (hp : 2 ≤ p) (h : padd P Q a p = .ok R) :
    R = P ∨ R = Q ∨ PointReduced p R := by
  have hslope : ∀ {d : Nat} {f : Nat → Nat} {x1 y1 x2 : Nat},
      (inv d p).map (fun di => slopeResult (f di) x1 y1 x2 p) = .ok R → PointReduced p R := by
    intro d f x1 y1 x2 h
    cases hd : inv d p with
    | error e => rw [hd] at h; cases h
    | ok di =>
      rw [hd] at h
      exact Except.ok.inj h ▸ slopeResult_reduced _ _ _ _ (by omega)
  cases P with
  | inf => rw [padd_inf_left] at h; exact .inr (.inl (Except.ok.inj h).symm)
  | aff x1 y1 =>
    cases Q with
    | inf => rw [padd_inf_right] at h; exact .inl (Except.ok.inj h).symm
    | aff x2 y2 =>
      refine .inr (.inr ?_)
      by_cases h1 : x1 = x2 ∧ (y1 + y2) % p = 0
      · obtain ⟨rfl, h1⟩ := h1
        rw [padd_inverse a h1] at h
        exact Except.ok.inj h ▸ trivial
      · by_cases h2 : x1 = x2 ∧ y1 = y2
        · obtain ⟨rfl, rfl⟩ := h2
          rw [padd_double a (by rw [two_mul]; exact fun h => h1 ⟨rfl, h⟩)] at h
          exact hslope h
        · rw [padd_distinct a h1 h2] at h
          exact hslope h

theorem padd_ok_reduced {P Q R : Point} {a p : Nat} (hp : 2 ≤ p) (hP : PointReduced p P) (hQ : PointReduced p Q)
    (h : padd P Q a p = .ok R) : PointReduced p R := by
  rcases padd_ok_cases hp h with rfl | rfl | hR
  · exact hP
  · exact hQ
  · exact hR

/-- The encoding once the point set is there: the search and its outputs, from the state `ensurePS` left
(43_message_codec.md R153, R154). -/
def encodeOnSet (t : State) : Except ErrKind Encoded :=
  (ksearch t t.msg.toNat (t.p.toNat / npo2 t.msg.toNat) t.p.toNat).map fun q =>
    { qm := .aff q.1.x.toNat q.1.y.toNat, cap := npo2 t.msg.toNat, h := t.p.toNat / npo2 t.msg.toNat, j := q.2 }

/-- Encoding a message is the size test, then `ensurePS`, then the search (43_message_codec.md R154). -/
theorem encodeMessage_eq (s : State) :
    encodeMessage s = if s.p.toNat < npo2 s.msg.toNat then (s, .error .messageTooLarge)
      else ((ensurePS s).1, (ensurePS s).2 >>= fun _ => encodeOnSet (ensurePS s).1) := by
  have hmsg : (ensurePS s).1.msg = s.msg := by rw [ensurePS_frame]
  have hp : (ensurePS s).1.p = s.p := by rw [ensurePS_frame]
  unfold encodeMessage encodeOnSet
  rw [hmsg, hp]
  simp only
  split
  · rfl
  · cases ensurePS s with
    | mk t r =>
      cases r with
      | error e => rfl
      | ok u =>
        simp only [bind, Except.bind]
        cases ksearch t s.msg.toNat (s.p.toNat / npo2 s.msg.toNat) s.p.toNat <;> rfl

/-- What a message that was encoded comes with: the outputs of 43_message_codec.md R154, and an entry that the lookup found. -/
theorem encodeOnSet_ok {t : State} {en : Encoded} (h : encodeOnSet t = .ok en) :
    en.cap = npo2 t.msg.toNat ∧ en.cap ≤ t.p.toNat ∧ en.h = t.p.toNat / en.cap ∧ en.j < en.h ∧
      ∃ x e, firstWithX t x = some e ∧ en.qm = .aff e.x.toNat e.y.toNat := by
  unfold encodeOnSet at h
  cases hk : ksearch t t.msg.toNat (t.p.toNat / npo2 t.msg.toNat) t.p.toNat with
  | error e => rw [hk] at h; cases h
  | ok q =>
    rw [hk] at h
    obtain rfl := Except.ok.inj h
    obtain ⟨hj, he, -⟩ := (ksearch_eq_ok_iff ..).1 hk
    refine ⟨rfl, ?_, rfl, hj, _, q.1, he, rfl⟩
    exact ((Nat.div_pos_iff).1 (Nat.zero_lt_of_lt hj)).2

/-- An entry that the lookup finds is listed below PSCOUNT (41_point_enumerator.md R115). -/
theorem psRead_of_firstWithX {s : State} {x : Nat} {e : PsEntry} (h : firstWithX s x = some e) :
    ∃ i, i < s.psCount.toNat ∧ psRead s.ps i = some e := by
  obtain ⟨i, hi, he⟩ := List.exists_of_findSome?_eq_some h
  refine ⟨i, List.mem_range.1 hi, ?_⟩
  cases hr : psRead s.ps i with
  | none => rw [hr] at he; cases he
  | some f =>
    rw [hr] at he
    simp only at he
    split at he
    · exact he
    · cases he

/-- The results of each command that succeeded, on the state `t` its body left (10_state.md R39, R40). -/
inductive BodyResults (t : State) : Instr → Results → Prop
  | inverse {x : Nat} : x < t.p.toNat → BodyResults t .modinv { rs := regWord x }
  | none : BodyResults t .enum {}
  | point {i : Instr} {R : Point} : i ∈ [Instr.padd, .pdbl, .smul, .pneg, .egdec] → PointReduced t.p.toNat R →
      BodyResults t i (resultPoint R)
  | encoded {en : Encoded} : encodeOnSet t = .ok en → BodyResults t .encode (encodeResults en)
  | secret {S dAG dBG : Point} : PointReduced t.p.toNat S → PointReduced t.p.toNat dAG → PointReduced t.p.toNat dBG →
      BodyResults t .dhss { r1 := wrpoint S, r2 := wrpoint dAG, r3 := wrpoint dBG, agree := true }
  | ciphertext {en : Encoded} {c dAG : Point} : encodeOnSet t = .ok en → (c = en.qm ∨ PointReduced t.p.toNat c) →
      PointReduced t.p.toNat dAG →
      BodyResults t .egenc { r1 := wrpoint c, r2 := wrpoint dAG, r3 := wrpoint en.qm,
                             rm := regWord en.cap, rh := regWord en.h, rj := regWord en.j }

/-! ### One lemma a body -/

section
variable {s : State} {r : Results} (hp : 2 ≤ s.p.toNat)
include hp

theorem operand_reduced (q : PointReg) : PointReduced s.p.toNat (rdpoint q s.p.toNat) := rdpoint_reduced q (by omega)

theorem modinvBody_results (h : modinvBody s = .ok r) : BodyResults s .modinv r := by
  obtain ⟨x, hx, h⟩ := bind_eq_ok h
  exact Except.ok.inj h ▸ .inverse ((inv_eq_ok_iff hp).1 hx).1

theorem pnegBody_results (h : pnegBody s = .ok r) : BodyResults s .pneg r :=
  Except.ok.inj h ▸ .point (by simp) (pneg_reduced (by omega) (operand_reduced hp s.p1))

theorem paddBody_results (h : paddBody s = .ok r) : BodyResults s .padd r := by
  obtain ⟨R, hR, h⟩ := bind_eq_ok h
  exact Except.ok.inj h ▸ .point (by simp) (padd_ok_reduced hp (operand_reduced hp s.p1) (operand_reduced hp s.p2) hR)

theorem pdblBody_results (h : pdblBody s = .ok r) : BodyResults s .pdbl r := by
  obtain ⟨R, hR, h⟩ := bind_eq_ok h
  rw [pdbl_eq_padd] at hR
  exact Except.ok.inj h ▸ .point (by simp) (padd_ok_reduced hp (operand_reduced hp s.p1) (operand_reduced hp s.p1) hR)

theorem smulBody_results (h : smulBody s = .ok r) : BodyResults s .smul r := by
  obtain ⟨R, hR, h⟩ := bind_eq_ok h
  exact Except.ok.inj h ▸ .point (by simp) (smul_ok_reduced hp (operand_reduced hp s.p1) hR)

theorem egdecBody_results (h : egdecBody s = .ok r) : BodyResults s .egdec r := by
  obtain ⟨S, hS, h⟩ := bind_eq_ok h
  obtain ⟨R, hR, h⟩ := bind_eq_ok h
  have hS := smul_ok_reduced hp (operand_reduced hp s.p2) hS
  exact Except.ok.inj h ▸
    .point (by simp) (padd_ok_reduced hp (operand_reduced hp s.p1) (pneg_reduced (by omega) hS) hR)

theorem dhssOnSet_results (h : dhssOnSet s = .ok r) : BodyResults s .dhss r := by
  obtain ⟨-, -, h⟩ := bind_eq_ok h
  obtain ⟨ag, hag, h⟩ := bind_eq_ok h
  obtain ⟨dAG, h1, hag⟩ := bind_eq_ok hag
  obtain ⟨dBG, h2, hag⟩ := bind_eq_ok hag
  obtain ⟨S1, h3, hag⟩ := bind_eq_ok hag
  obtain ⟨S2, -, hag⟩ := bind_eq_ok hag
  obtain rfl := Except.ok.inj hag
  have hA := smul_ok_reduced hp (operand_reduced hp s.p1) h1
  have hB := smul_ok_reduced hp (operand_reduced hp s.p1) h2
  split at h
  · exact Except.ok.inj h ▸ .secret (smul_ok_reduced hp hB h3) hA hB
  · cases h

theorem egencOnSet_results {en : Encoded} (hen : encodeOnSet s = .ok en) (h : egencOnSet s en = .ok r) :
    BodyResults s .egenc r := by
  obtain ⟨-, -, h⟩ := bind_eq_ok h
  obtain ⟨dBG, h1, h⟩ := bind_eq_ok h
  obtain ⟨shared, h2, h⟩ := bind_eq_ok h
  obtain ⟨c, h3, h⟩ := bind_eq_ok h
  obtain ⟨dAG, h4, h⟩ := bind_eq_ok h
  have hG := operand_reduced hp s.p1
  have hshared := smul_ok_reduced hp (smul_ok_reduced hp hG h1) h2
  have hc : c = en.qm ∨ PointReduced s.p.toNat c := by
    rcases padd_ok_cases hp h3 with hc | rfl | hc
    · exact .inl hc
    · exact .inr hshared
    · exact .inr hc
  exact Except.ok.inj h ▸ .ciphertext hen hc (smul_ok_reduced hp hG h4)

end

/-- A message that was encoded was encoded on the state that `ensurePS` left (43_message_codec.md R154). -/
theorem encodeOnSet_of_encodeMessage {s : State} {en : Encoded} (h : (encodeMessage s).2 = .ok en) :
    encodeOnSet (encodeMessage s).1 = .ok en := by
  rw [encodeMessage_eq] at h ⊢
  split at h
  · cases h
  · next hle =>
    rw [if_neg hle]
    obtain ⟨-, -, h⟩ := bind_eq_ok h
    exact h

/-- Two states that can differ in the memo alone (10_state.md R46). -/
def SameButMemo (s t : State) : Prop := t = s.memoChanged t.ps t.psCount t.status.psValid

theorem SameButMemo.p_eq {s t : State} (h : SameButMemo s t) : t.p = s.p := by
  rw [h]
  rfl

theorem SameButMemo.msg_eq {s t : State} (h : SameButMemo s t) : t.msg = s.msg := by
  rw [h]
  rfl

theorem sameButMemo_enumerate (s : State) : SameButMemo s (enumerate s).1 := enumerate_frame s

theorem sameButMemo_ensurePS (s : State) : SameButMemo s (ensurePS s).1 := ensurePS_frame s

theorem sameButMemo_encodeMessage (s : State) : SameButMemo s (encodeMessage s).1 := encodeMessage_frame s

/-- A body changes nothing but the memo (30_encoding.md R90). -/
theorem sameButMemo_bodyOf (i : Instr) (s : State) : SameButMemo s (bodyOf i s).1 := by
  rcases bodyOf_state i s with h | h
  · rw [h]; rfl
  · rw [h]; exact sameButMemo_enumerate s

/-- What a body that succeeded hands to `Complete` (10_state.md R39, R40). -/
theorem bodyOf_results {i : Instr} {s : State} {r : Results} (hp : 2 ≤ s.p.toNat) (h : (bodyOf i s).2 = .ok r) :
    BodyResults (bodyOf i s).1 i r := by
  cases i with
  | modinv => exact modinvBody_results hp h
  | padd => exact paddBody_results hp h
  | pdbl => exact pdblBody_results hp h
  | smul => exact smulBody_results hp h
  | pneg => exact pnegBody_results hp h
  | egdec => exact egdecBody_results hp h
  | enum =>
    rw [bodyOf_enum_eq] at h
    cases hr : (enumerate s).2 with
    | error e => rw [hr] at h; cases h
    | ok _ => rw [hr] at h; exact Except.ok.inj h ▸ .none
  | encode =>
    rw [bodyOf_encode_eq] at h ⊢
    cases hr : (encodeMessage s).2 with
    | error e => rw [hr] at h; cases h
    | ok en => rw [hr] at h; exact Except.ok.inj h ▸ .encoded (encodeOnSet_of_encodeMessage hr)
  | dhss =>
    rw [bodyOf_dhss_eq] at h ⊢
    cases hr : (ensurePS s).2 with
    | error e => rw [hr] at h; cases h
    | ok _ => rw [hr] at h; exact dhssOnSet_results ((sameButMemo_ensurePS s).p_eq ▸ hp) h
  | egenc =>
    rw [bodyOf_egenc_eq] at h ⊢
    cases hr : (encodeMessage s).2 with
    | error e => rw [hr] at h; cases h
    | ok en =>
      rw [hr] at h
      exact egencOnSet_results ((sameButMemo_encodeMessage s).p_eq ▸ hp) (encodeOnSet_of_encodeMessage hr) h

/-- A command that ended with DONE = 1 had P ≥ 2 and a body that succeeded (30_encoding.md R90, R93). -/
theorem exec_done {i : Instr} {s t : State} (h : exec i s = .next t) (hd : t.status.done = true) :
    2 ≤ s.p.toNat ∧ ∃ r, t = (bodyOf i s).1.succeeded (encodeCommand i) r ∧ BodyResults (bodyOf i s).1 i r := by
  by_cases hp : s.p.toNat < 2
  · rw [exec_small hp] at h
    obtain rfl := Host.Outcome.next.inj h
    cases hd
  · have hp : 2 ≤ s.p.toNat := by omega
    rw [exec_large i hp] at h
    obtain rfl := Host.Outcome.next.inj h
    have hr : ∀ r, (bodyOf i s).2 = .ok r → BodyResults (bodyOf i s).1 i r := fun _ => bodyOf_results hp
    revert hd hr
    cases bodyOf i s with
    | mk u r =>
      cases r with
      | error e => exact fun hd => by cases hd
      | ok r => exact fun _ hr => ⟨hp, r, rfl, hr r rfl⟩

/-! ## The widths of the values (10_state.md R23, R38, R39, R43) -/

theorem regWord_toNat_le (n : Nat) : (regWord n).toNat ≤ n := by
  rw [regWord, BitVec.toNat_ofNat]
  exact Nat.mod_le _ _

theorem regWord_toNat {n : Nat} (h : n < 2 ^ 32) : (regWord n).toNat = n := by
  rw [regWord, BitVec.toNat_ofNat, Nat.mod_eq_of_lt h]

theorem keepLow_toNat_lt (w : Nat) (v : Word) : (keepLow w v).toNat < 2 ^ w :=
  (regWord_toNat_le _).trans_lt (Nat.mod_lt _ (Nat.two_pow_pos w))

/-- A point with coordinates below 2^W fits a result register (10_state.md R38). -/
theorem resultPointOk_wrpoint {w : Nat} {R : Point} (h : PointReduced (2 ^ w) R) : ResultPointOk w (wrpoint R) := by
  cases R with
  | inf => exact ⟨Nat.two_pow_pos w, Nat.two_pow_pos w, fun _ => ⟨rfl, rfl⟩⟩
  | aff x y => exact ⟨(regWord_toNat_le x).trans_lt h.1, (regWord_toNat_le y).trans_lt h.2, fun h => by cases h⟩

theorem resultPointOk_zero (w : Nat) : ResultPointOk w PointReg.zero :=
  ⟨Nat.two_pow_pos w, Nat.two_pow_pos w, fun h => by cases h⟩

/-- The part of `WidthInv` about the result registers, on the values themselves. -/
def ResultsFit (w : Nat) (r : Results) : Prop :=
  (ResultPointOk w r.r1 ∧ ResultPointOk w r.r2 ∧ ResultPointOk w r.r3) ∧
  (r.rm.toNat < 2 ^ w ∧ r.rh.toNat < 2 ^ w ∧ r.rj.toNat < 2 ^ w ∧ r.rs.toNat < 2 ^ w)

theorem resultsFit_none (w : Nat) : ResultsFit w {} :=
  have hz := resultPointOk_zero w
  have h0 := Nat.two_pow_pos w
  ⟨⟨hz, hz, hz⟩, h0, h0, h0, h0⟩

theorem widthInv_succeeded {s : State} (w : Word) {r : Results} (h : WidthInv s) (hr : ResultsFit s.cfg.w r) :
    WidthInv (s.succeeded w r) := by
  obtain ⟨hcurve, hops, -, -, hps⟩ := h
  exact ⟨hcurve, hops, hr.1, hr.2, hps⟩

theorem widthInv_failed {s : State} (w : Word) (c : Nat) (h : WidthInv s) : WidthInv (s.failed w c) :=
  widthInv_succeeded w (r := {}) h (resultsFit_none _)

/-- `enumerate` stores residues modulo P (41_point_enumerator.md R112). -/
theorem enumerate_widthInv {s : State} (h : WidthInv s) : WidthInv (enumerate s).1 := by
  obtain ⟨hcurve, hops, hpoints, hscalars, hps⟩ := h
  have hcells : ∀ c ∈ (enumerate s).1.ps, c.2.x.toNat < 2 ^ s.cfg.w ∧ c.2.y.toNat < 2 ^ s.cfg.w := by
    intro c hc
    rcases mem_enumerate hc with hc | ⟨pt, hpt, he⟩
    · exact hps c hc
    · obtain ⟨hx, hy, -⟩ := mem_enumPoints.1 hpt
      rw [he]
      exact ⟨(regWord_toNat_le _).trans_lt (hx.trans hcurve.1), (regWord_toNat_le _).trans_lt (hy.trans hcurve.1)⟩
  rw [enumerate_frame]
  exact ⟨hcurve, hops, hpoints, hscalars, hcells⟩

theorem bodyOf_widthInv {s : State} (i : Instr) (h : WidthInv s) : WidthInv (bodyOf i s).1 := by
  rcases bodyOf_state i s with hb | hb <;> rw [hb]
  · exact h
  · exact enumerate_widthInv h

/-- An encoded message fits: its point is an entry of PS, and M and h are at most P (43_message_codec.md R154). -/
theorem encodeOnSet_fits {t : State} {en : Encoded} (h : WidthInv t) (hen : encodeOnSet t = .ok en) :
    PointReduced (2 ^ t.cfg.w) en.qm ∧ en.cap < 2 ^ t.cfg.w ∧ en.h < 2 ^ t.cfg.w ∧ en.j < 2 ^ t.cfg.w := by
  obtain ⟨⟨hp, -⟩, -, -, -, hps⟩ := h
  obtain ⟨-, hcap, hh, hj, x, e, hx, hqm⟩ := encodeOnSet_ok hen
  obtain ⟨i, -, hi⟩ := psRead_of_firstWithX hx
  have hle : en.h ≤ t.p.toNat := hh ▸ Nat.div_le_self _ _
  exact ⟨hqm ▸ hps _ (mem_of_psRead hi), by omega, by omega, by omega⟩

/-- The results of a command that succeeded fit their registers (10_state.md R39). -/
theorem BodyResults.fit {t : State} {i : Instr} {r : Results} (hr : BodyResults t i r) (h : WidthInv t) :
    ResultsFit t.cfg.w r := by
  have hp : t.p.toNat < 2 ^ t.cfg.w := h.1.1
  have hz := resultPointOk_zero t.cfg.w
  have h0 := Nat.two_pow_pos t.cfg.w
  have hpoint : ∀ {R : Point}, PointReduced t.p.toNat R → ResultPointOk t.cfg.w (wrpoint R) :=
    fun hR => resultPointOk_wrpoint (hR.mono hp.le)
  have hword : ∀ {n : Nat}, n < 2 ^ t.cfg.w → (regWord n).toNat < 2 ^ t.cfg.w := (regWord_toNat_le _).trans_lt
  cases hr with
  | inverse hx => exact ⟨⟨hz, hz, hz⟩, h0, h0, h0, hword (hx.trans hp)⟩
  | none => exact resultsFit_none _
  | point _ hR => exact ⟨⟨hpoint hR, hz, hz⟩, h0, h0, h0, h0⟩
  | encoded hen =>
    obtain ⟨hqm, hcap, hh, hj⟩ := encodeOnSet_fits h hen
    exact ⟨⟨resultPointOk_wrpoint hqm, hz, hz⟩, hword hcap, hword hh, hword hj, h0⟩
  | secret hS hA hB => exact ⟨⟨hpoint hS, hpoint hA, hpoint hB⟩, h0, h0, h0, h0⟩
  | ciphertext hen hc hA =>
    obtain ⟨hqm, hcap, hh, hj⟩ := encodeOnSet_fits h hen
    refine ⟨⟨?_, hpoint hA, resultPointOk_wrpoint hqm⟩, hword hcap, hword hh, hword hj, h0⟩
    rcases hc with rfl | hc
    · exact resultPointOk_wrpoint hqm
    · exact hpoint hc

theorem exec_widthInv {i : Instr} {s t : State} (hs : WidthInv s) (h : exec i s = .next t) : WidthInv t := by
  cases hd : t.status.done with
  | true =>
    obtain ⟨-, r, rfl, hr⟩ := exec_done h hd
    have hb := bodyOf_widthInv i hs
    exact widthInv_succeeded _ hb (hr.fit hb)
  | false =>
    obtain ⟨u, hu, ⟨r, rfl⟩ | ⟨e, -, rfl⟩⟩ := exec_end h
    · cases hd
    · rcases hu with rfl | rfl
      · exact widthInv_failed _ _ hs
      · exact widthInv_failed _ _ (enumerate_widthInv hs)

/-- A store to a coordinate register keeps the low W bits, and no other store touches a value of limited width
(10_state.md R23). -/
theorem regWrite_widthInv {s : State} (r : RegName) (w : Word) (h : WidthInv s) : WidthInv (regWrite r w s) := by
  obtain ⟨⟨hp, ha, hb⟩, ⟨h1x, h1y, h2x, h2y⟩, hresults⟩ := h
  have hk := keepLow_toNat_lt s.cfg.w w
  cases r with
  | p => exact ⟨⟨hk, ha, hb⟩, ⟨h1x, h1y, h2x, h2y⟩, hresults⟩
  | a => exact ⟨⟨hp, hk, hb⟩, ⟨h1x, h1y, h2x, h2y⟩, hresults⟩
  | b => exact ⟨⟨hp, ha, hk⟩, ⟨h1x, h1y, h2x, h2y⟩, hresults⟩
  | p1x => exact ⟨⟨hp, ha, hb⟩, ⟨hk, h1y, h2x, h2y⟩, hresults⟩
  | p1y => exact ⟨⟨hp, ha, hb⟩, ⟨h1x, hk, h2x, h2y⟩, hresults⟩
  | p2x => exact ⟨⟨hp, ha, hb⟩, ⟨h1x, h1y, hk, h2y⟩, hresults⟩
  | p2y => exact ⟨⟨hp, ha, hb⟩, ⟨h1x, h1y, h2x, hk⟩, hresults⟩
  | _ => exact ⟨⟨hp, ha, hb⟩, ⟨h1x, h1y, h2x, h2y⟩, hresults⟩

theorem resetOf_widthInv (c : Config) : WidthInv (State.resetOf c) :=
  have hz := resultPointOk_zero c.w
  have h0 := Nat.two_pow_pos c.w
  ⟨⟨h0, h0, h0⟩, ⟨h0, h0, h0, h0⟩, ⟨hz, hz, hz⟩, ⟨h0, h0, h0, h0⟩, fun _ h => by cases h⟩

/-- Reset clears every register and keeps what PS holds (10_state.md R43, 70_reset_and_hazards.md R210). -/
theorem applyReset_widthInv {s : State} (h : WidthInv s) : WidthInv (applyReset s) := by
  obtain ⟨-, -, -, -, hps⟩ := h
  obtain ⟨hcurve, hops, hpoints, hscalars, -⟩ := resetOf_widthInv s.cfg
  exact ⟨hcurve, hops, hpoints, hscalars, hps⟩

theorem exec_cfg {i : Instr} {s t : State} (h : exec i s = .next t) : t.cfg = s.cfg := by
  obtain ⟨⟨hcfg, -⟩, -⟩ := commandsKeepOperandsAndMemo i s t h
  exact hcfg

theorem widthInv_keptByInputs (c : Config) : KeptByInputs fun u => WidthInv u ∧ u.cfg = c where
  ports _ _ h := h
  reset h := ⟨applyReset_widthInv h.1, h.2⟩
  store r w _ h := ⟨regWrite_widthInv r w h.1, (regWrite_cfg r w _).trans h.2⟩
  illegal w h := ⟨widthInv_failed w _ h.1, h.2⟩
  command h ht := ⟨exec_widthInv h.1 ht, (exec_cfg ht).trans h.2⟩

/-- Settles O55: sums are residues or one of the operands, and what the point set holds is below 2^W. -/
theorem stepKeepsTheWidths : Obligations.StepKeepsTheWidths :=
  fun s _ hs h => (widthInv_keptByInputs s.cfg).step ⟨hs, rfl⟩ h

/-! ## The state after reset -/

/-- Settles O56: every register is 0 after reset, no memo is valid and PS lists nothing. -/
theorem resetMeetsTheInvariants : Obligations.ResetMeetsTheInvariants := by
  intro c
  obtain ⟨hstatus, hsticky, hresults⟩ := resetOf_reportInv c
  exact ⟨reset_psWf c, memoInv_dropMemo (State.resetOf c), hstatus, hsticky, hresults, resetOf_widthInv c⟩

/-! ## The ranges of the results (10_state.md R38, R39, R40) -/

/-- Under the invariant of the memo the lookup finds points of the curve alone (41_point_enumerator.md R115). -/
theorem firstWithX_reduced {t : State} {x : Nat} {e : PsEntry} (h : MemoInv t) (he : firstWithX t x = some e) :
    PointReduced t.p.toNat (.aff e.x.toNat e.y.toNat) := by
  obtain ⟨i, hi, hr⟩ := psRead_of_firstWithX he
  cases hv : t.status.psValid with
  | false => rw [h.2 hv] at hi; exact absurd hi (Nat.not_lt_zero i)
  | true =>
    obtain ⟨hn, hall⟩ := holdsPoints_iff.1 (h.1 hv).2.2
    rw [hall i hi, Option.map_eq_some_iff] at hr
    obtain ⟨pt, hpt, rfl⟩ := hr
    have hm : pt ∈ t.points := List.mem_of_getElem? hpt
    rw [psEntry_x hm t.p.isLt.le, psEntry_y hm t.p.isLt.le]
    obtain ⟨hx, hy, -⟩ := mem_enumPoints.1 hm
    exact ⟨hx, hy⟩

/-- A result point as O24 states it: residues under tag 0, zeros under tag 1. -/
def PointInRange (p : Nat) (r : PointReg) : Prop :=
  (r.t = false → r.x.toNat < p ∧ r.y.toNat < p) ∧ (r.t = true → r.x = 0#32 ∧ r.y = 0#32)

theorem pointInRange_wrpoint {p : Nat} {R : Point} (h : PointReduced p R) : PointInRange p (wrpoint R) := by
  cases R with
  | inf => exact ⟨fun h => (by cases h), fun _ => ⟨rfl, rfl⟩⟩
  | aff x y =>
    exact ⟨fun _ => ⟨(regWord_toNat_le x).trans_lt h.1, (regWord_toNat_le y).trans_lt h.2⟩, fun h => by cases h⟩

theorem pointInRange_zero {p : Nat} (hp : 0 < p) : PointInRange p PointReg.zero :=
  ⟨fun _ => ⟨hp, hp⟩, fun h => by cases h⟩

/-- The scalars of 43_message_codec.md R154 as the registers show them: they fit, so they are the numbers themselves. -/
theorem encodeOnSet_scalars {t : State} {en : Encoded} (h : encodeOnSet t = .ok en) :
    IsLeastPowerOfTwo t.msg.toNat (regWord en.cap).toNat ∧ (regWord en.cap).toNat ≤ t.p.toNat ∧
      (regWord en.h).toNat = t.p.toNat / (regWord en.cap).toNat ∧ 1 ≤ (regWord en.h).toNat ∧
      (regWord en.j).toNat < (regWord en.h).toNat := by
  obtain ⟨hcap, hle, hh, hj, -⟩ := encodeOnSet_ok h
  have hp := t.p.isLt
  have hhp : en.h ≤ t.p.toNat := hh ▸ Nat.div_le_self _ _
  rw [regWord_toNat (n := en.cap) (by omega), regWord_toNat (n := en.h) (by omega), regWord_toNat (n := en.j) (by omega)]
  exact ⟨hcap ▸ npo2_spec _, hle, hh, by omega, hj⟩

section
variable {t : State} {i : Instr} {r : Results} (hr : BodyResults t i r)
include hr

theorem BodyResults.points_inRange (hp : 2 ≤ t.p.toNat) (h : MemoInv t) :
    ∀ q ∈ [r.r1, r.r2, r.r3], PointInRange t.p.toNat q := by
  have hz : PointInRange t.p.toNat PointReg.zero := pointInRange_zero (by omega)
  have hqm : ∀ {en : Encoded}, encodeOnSet t = .ok en → PointReduced t.p.toNat en.qm := by
    intro en hen
    obtain ⟨-, -, -, -, x, e, hx, hqm⟩ := encodeOnSet_ok hen
    exact hqm ▸ firstWithX_reduced h hx
  simp only [List.forall_mem_cons, List.not_mem_nil, false_implies, implies_true, and_true]
  cases hr with
  | inverse _ => exact ⟨hz, hz, hz⟩
  | none => exact ⟨hz, hz, hz⟩
  | point _ hR => exact ⟨pointInRange_wrpoint hR, hz, hz⟩
  | encoded hen => exact ⟨pointInRange_wrpoint (hqm hen), hz, hz⟩
  | secret hS hA hB => exact ⟨pointInRange_wrpoint hS, pointInRange_wrpoint hA, pointInRange_wrpoint hB⟩
  | ciphertext hen hc hA =>
    refine ⟨pointInRange_wrpoint ?_, pointInRange_wrpoint hA, pointInRange_wrpoint (hqm hen)⟩
    rcases hc with rfl | hc
    · exact hqm hen
    · exact hc

/-- Whether the command was one of the two that encode, its scalars are those of the encoding or 0 (10_state.md R40). -/
theorem BodyResults.scalars :
    (i ∈ [Instr.encode, .egenc] → IsLeastPowerOfTwo t.msg.toNat r.rm.toNat ∧ r.rm.toNat ≤ t.p.toNat ∧
      r.rh.toNat = t.p.toNat / r.rm.toNat ∧ 1 ≤ r.rh.toNat ∧ r.rj.toNat < r.rh.toNat) ∧
    (i ∉ [Instr.encode, .egenc] → r.rm = 0#32 ∧ r.rh = 0#32 ∧ r.rj = 0#32) := by
  cases hr with
  | inverse _ => exact ⟨by simp, fun _ => ⟨rfl, rfl, rfl⟩⟩
  | none => exact ⟨by simp, fun _ => ⟨rfl, rfl, rfl⟩⟩
  | secret _ _ _ => exact ⟨by simp, fun _ => ⟨rfl, rfl, rfl⟩⟩
  | point hi _ =>
    refine ⟨fun h => absurd h ?_, fun _ => ⟨rfl, rfl, rfl⟩⟩
    revert hi
    cases i <;> decide
  | encoded hen => exact ⟨fun _ => encodeOnSet_scalars hen, by simp⟩
  | ciphertext hen _ _ => exact ⟨fun _ => encodeOnSet_scalars hen, by simp⟩

/-- RS holds a residue after MODINV and 0 after the others (10_state.md R39, R40). -/
theorem BodyResults.rs_spec (hp : 2 ≤ t.p.toNat) : r.rs.toNat < t.p.toNat ∧ (i ≠ .modinv → r.rs = 0#32) := by
  have h0 : (0#32).toNat < t.p.toNat := by rw [BitVec.toNat_ofNat]; omega
  cases hr with
  | inverse hx => exact ⟨(regWord_toNat_le _).trans_lt hx, fun h => absurd rfl h⟩
  | _ => exact ⟨h0, fun _ => rfl⟩

/-- AGREE is the mark of a DHSS that succeeded (10_state.md R29). -/
theorem BodyResults.agree_iff : r.agree = true ↔ i = .dhss := by
  cases hr with
  | point hi _ => revert hi; cases i <;> simp [resultPoint]
  | secret _ _ _ => simp
  | inverse _ => simp
  | none => simp
  | encoded _ => simp [encodeResults]
  | ciphertext _ _ _ => simp

end

theorem bodyOf_memoInv {s : State} (i : Instr) (hw : s.cfg.wf = true) (h : MemoInv s) : MemoInv (bodyOf i s).1 := by
  rcases bodyOf_state i s with hb | hb <;> rw [hb]
  · exact h
  · exact enumerate_memoInv hw

/-- Settles O24: the results of each body, and the memo its search ran on. -/
theorem resultsAreInRange : Obligations.ResultsAreInRange := by
  intro i s t hw hs h hd
  obtain ⟨hp, r, rfl, hr⟩ := exec_done h hd
  have hsame := sameButMemo_bodyOf i s
  have hpeq := hsame.p_eq
  have hscalars := hr.scalars
  have hpoints := hr.points_inRange (hpeq ▸ hp) (bodyOf_memoInv i hw hs)
  have hrs := hr.rs_spec (hpeq ▸ hp)
  rw [hpeq] at hscalars hpoints hrs
  rw [hsame.msg_eq] at hscalars
  exact ⟨hpoints, hscalars.1, hscalars.2, hrs.1, hrs.2, hr.agree_iff⟩

end Sys2Proof.Machine

namespace Sys2Proof.Machine

/-! ## Two runs of a command on states that differ in the memo

Everything a body reads but the memo is equal in two states of `SameButMemo`, and of the memo it sees only whether
`ensurePS` succeeds and what the lookups then find. -/

/-- From two states, `enumerate` and `ensurePS` end alike, in states related by `R` like the two they started from, and once
the point set is there its valid entries are the same. -/
structure RunsAlike (R : State → State → Prop) (s t : State) : Prop where
  registers : SameButMemo s t
  start : R s t
  enumerated : R (enumerate s).1 (enumerate t).1
  enumerateResult : (enumerate t).2 = (enumerate s).2
  ensured : R (ensurePS s).1 (ensurePS t).1
  ensureResult : (ensurePS t).2 = (ensurePS s).2
  entries : (ensurePS s).2 = .ok () →
    SameButHiddenEntries (ensurePS s).1 (ensurePS t).1 ∧ (ensurePS s).1.status.psValid = true

/-- A valid point set with its hidden entries replaced: the valid ones are the same. -/
theorem SameButHiddenEntries.exists_ps {s t : State} (h : SameButHiddenEntries s t) (hv : s.status.psValid = true) :
    ∃ m, t = { s with ps := m } ∧ ∀ i, i < s.psCount.toNat → psRead m i = psRead s.ps i :=
  ⟨t.ps, h.1, h.2 hv⟩

/-- A search sees its function on the members of the list alone. -/
theorem findSome?_eq_of_forall_mem {α β : Type} {l : List α} {f g : α → Option β} (h : ∀ a ∈ l, f a = g a) :
    l.findSome? f = l.findSome? g := by
  induction l with
  | nil => rfl
  | cons a l ih =>
    rw [List.findSome?_cons, List.findSome?_cons, h a (List.mem_cons_self ..),
      ih fun b hb => h b (List.mem_cons_of_mem _ hb)]

/-! ### The lookups see valid entries alone (41_point_enumerator.md R115) -/

section
variable {s : State} {m : PsMem} (h : ∀ i, i < s.psCount.toNat → psRead m i = psRead s.ps i)
include h

theorem inPS_congr (x y : Nat) : inPS { s with ps := m } x y = inPS s x y := by
  rw [Bool.eq_iff_iff, inPS, inPS, List.any_eq_true, List.any_eq_true]
  refine exists_congr fun i => and_congr_right fun hi => ?_
  simp only [h i (List.mem_range.1 hi)]

theorem firstWithX_congr (x : Nat) : firstWithX { s with ps := m } x = firstWithX s x :=
  findSome?_eq_of_forall_mem fun i hi => by simp only [h i (List.mem_range.1 hi)]

theorem ksearchFrom_congr (msg cap p left j : Nat) :
    ksearchFrom { s with ps := m } msg cap p left j = ksearchFrom s msg cap p left j := by
  induction left generalizing j with
  | zero => rfl
  | succ left ih => simp only [ksearchFrom, firstWithX_congr h, ih]

theorem checkBase_congr (G : Point) : checkBase { s with ps := m } G = checkBase s G := by
  cases G with
  | inf => rfl
  | aff x y => simp only [checkBase, inPS_congr h]

theorem encodeOnSet_congr : encodeOnSet { s with ps := m } = encodeOnSet s := by
  simp only [encodeOnSet, ksearch, ksearchFrom_congr h]

theorem dhssOnSet_congr : dhssOnSet { s with ps := m } = dhssOnSet s := by
  simp only [dhssOnSet, checkBase_congr h]

theorem egencOnSet_congr (en : Encoded) : egencOnSet { s with ps := m } en = egencOnSet s en := by
  simp only [egencOnSet, checkBase_congr h]

end

/-! ### The bodies -/

section
variable {R : State → State → Prop} {s t : State} (h : RunsAlike R s t)
include h

theorem encodeMessage_alike :
    R (encodeMessage s).1 (encodeMessage t).1 ∧ (encodeMessage t).2 = (encodeMessage s).2 ∧
      ∀ en, (encodeMessage s).2 = .ok en →
        egencOnSet (encodeMessage t).1 en = egencOnSet (encodeMessage s).1 en := by
  rw [encodeMessage_eq, encodeMessage_eq, h.registers.p_eq, h.registers.msg_eq]
  split
  · exact ⟨h.start, rfl, fun _ he => by cases he⟩
  · rw [h.ensureResult]
    cases he : (ensurePS s).2 with
    | error e => exact ⟨h.ensured, rfl, fun _ he => by cases he⟩
    | ok _ =>
      obtain ⟨hsame, hv⟩ := h.entries he
      obtain ⟨m, ht, hm⟩ := hsame.exists_ps hv
      refine ⟨h.ensured, ?_, fun en _ => ?_⟩ <;> rw [ht]
      · exact encodeOnSet_congr hm
      · exact egencOnSet_congr hm en

theorem bodyOf_alike (i : Instr) : R (bodyOf i s).1 (bodyOf i t).1 ∧ (bodyOf i t).2 = (bodyOf i s).2 := by
  obtain ⟨henc, hres, heg⟩ := encodeMessage_alike h
  have hpure : ∀ f : State → Except ErrKind Results, f (s.memoChanged t.ps t.psCount t.status.psValid) = f s →
      R (pureBody f s).1 (pureBody f t).1 ∧ (pureBody f t).2 = (pureBody f s).2 :=
    fun f hf => ⟨h.start, (congrArg f h.registers).trans hf⟩
  cases i with
  | modinv => exact hpure _ rfl
  | padd => exact hpure _ rfl
  | pdbl => exact hpure _ rfl
  | smul => exact hpure _ rfl
  | pneg => exact hpure _ rfl
  | egdec => exact hpure _ rfl
  | enum =>
    rw [bodyOf_enum_eq, bodyOf_enum_eq, h.enumerateResult]
    exact ⟨h.enumerated, rfl⟩
  | encode =>
    rw [bodyOf_encode_eq, bodyOf_encode_eq, hres]
    exact ⟨henc, rfl⟩
  | dhss =>
    rw [bodyOf_dhss_eq, bodyOf_dhss_eq, h.ensureResult]
    refine ⟨h.ensured, ?_⟩
    cases he : (ensurePS s).2 with
    | error e => rfl
    | ok _ =>
      obtain ⟨hsame, hv⟩ := h.entries he
      obtain ⟨m, ht, hm⟩ := hsame.exists_ps hv
      rw [ht]
      exact dhssOnSet_congr hm
  | egenc =>
    rw [bodyOf_egenc_eq, bodyOf_egenc_eq, hres]
    refine ⟨henc, ?_⟩
    cases he : (encodeMessage s).2 with
    | error e => rfl
    | ok en => exact heg en he

/-- Two runs of a command from states on which the memo runs alike end alike, when the ends of a command keep the relation. -/
theorem exec_alike (hend : ∀ {u v : State} (i : Instr) (r : Except ErrKind Results), R u v →
      R (commandEnd i (u, r)) (commandEnd i (v, r))) (i : Instr) :
    ∃ u v, exec i s = .next u ∧ exec i t = .next v ∧ R u v := by
  by_cases hp : s.p.toNat < 2
  · exact ⟨_, _, exec_small hp, exec_small (h.registers.p_eq ▸ hp), hend i (.error .invalidCurve) h.start⟩
  · have hp : 2 ≤ s.p.toNat := by omega
    obtain ⟨hR, hres⟩ := bodyOf_alike h i
    have ht : bodyOf i t = ((bodyOf i t).1, (bodyOf i s).2) := by rw [← hres]
    refine ⟨_, _, exec_large i hp, exec_large i (h.registers.p_eq ▸ hp), ?_⟩
    rw [ht]
    exact hend i (bodyOf i s).2 hR

end

/-! ## Dropping the memo (10_state.md R46) -/

theorem SameButMemo.commandEnd {s t : State} (i : Instr) (r : Except ErrKind Results) (h : SameButMemo s t) :
    SameButMemo (commandEnd i (s, r)) (commandEnd i (t, r)) := by
  unfold SameButMemo at h ⊢
  rw [h]
  cases r <;> rfl

theorem enumerate_of_fits {s : State} (h1 : 1 ≤ s.points.length) (h2 : s.points.length ≤ s.cfg.psDepth) :
    (enumerate s).2 = .ok () ∧ MemoComputed s (enumerate s).1 := by
  rcases enumerate_spec s with ⟨-, -, h⟩ | ⟨h, -⟩ | ⟨h, -⟩
  · exact h
  · omega
  · omega

theorem enumerate_of_overflow {s : State} (h : s.cfg.psDepth < s.points.length) :
    (enumerate s).2 = .error .setOverflow ∧ (enumerate s).1 = { dropMemo s with ps := (enumerate s).1.ps } := by
  rcases enumerate_spec s with ⟨-, h', -⟩ | ⟨-, h⟩ | ⟨h', -⟩
  · omega
  · exact h
  · omega

theorem enumerate_of_empty {s : State} (h : s.points.length = 0) :
    (enumerate s).2 = .error .invalidCurve ∧ (enumerate s).1 = dropMemo s := by
  rcases enumerate_spec s with ⟨h', -⟩ | ⟨h', -⟩ | ⟨-, h⟩
  · omega
  · omega
  · exact h

/-- `enumerate` drops the memo itself (41_point_enumerator.md R112). -/
theorem enumerate_dropMemo (s : State) : enumerate (dropMemo s) = enumerate s := rfl

/-- A memo that is not valid is dropped already (10_state.md R45). -/
theorem dropMemo_eq_self {s : State} (h : MemoInv s) (hv : s.status.psValid = false) : dropMemo s = s := by
  have hc := h.2 hv
  obtain ⟨cfg, cmd, ⟨done, err, errCode, psValid, agree⟩, _⟩ := s
  subst hv hc
  rfl

/-- `ensurePS` on a valid memo does nothing (41_point_enumerator.md R114). -/
theorem ensurePS_of_valid {s : State} (hv : s.status.psValid = true) : ensurePS s = (s, .ok ()) := by
  rw [ensurePS, if_pos hv]

theorem ensurePS_dropMemo (s : State) : ensurePS (dropMemo s) = enumerate s := rfl

/-- Recomputing a valid memo that meets its invariant succeeds and gives the same valid entries (10_state.md R45, R46). -/
theorem enumerate_of_valid {s : State} (h : MemoInv s) (hv : s.status.psValid = true) :
    (enumerate s).2 = .ok () ∧ SameButHiddenEntries s (enumerate s).1 := by
  obtain ⟨h1, h2, hh⟩ := h.1 hv
  obtain ⟨hn, hr⟩ := holdsPoints_iff.1 hh
  obtain ⟨hok, hheld, -, hu⟩ := enumerate_of_fits (s := s) (by omega) (by omega)
  obtain ⟨-, hr'⟩ := holdsPoints_iff.1 hheld
  have hcount : BitVec.ofNat 32 s.points.length = s.psCount := by rw [← hn]; simp
  have hstatus : { s.status with psValid := true } = s.status := by rw [← hv]
  rw [State.withMemo, hcount, hstatus] at hu
  exact ⟨hok, hu, fun _ i hi => (hr' i (hn ▸ hi)).trans (hr i hi).symm⟩

theorem runsAlike_dropMemo {s : State} (h : MemoInv s) (hv : s.status.psValid = true) :
    RunsAlike SameButMemo s (dropMemo s) := by
  obtain ⟨hok, hsame⟩ := enumerate_of_valid h hv
  have hs := ensurePS_of_valid hv
  have ht := ensurePS_dropMemo s
  exact
    { registers := rfl, start := rfl
      enumerated := by rw [enumerate_dropMemo]; rfl
      enumerateResult := by rw [enumerate_dropMemo]
      ensured := by rw [hs, ht]; exact sameButMemo_enumerate s
      ensureResult := by rw [hs, ht]; exact hok
      entries := by rw [hs, ht]; exact fun _ => ⟨hsame, hv⟩ }

/-- Settles O57: a valid memo holds what `enumerate` would compute, and a memo that is not valid is dropped already. -/
theorem memoNeverChangesResults : Obligations.MemoNeverChangesResults := by
  intro i s hs
  suffices h : ∃ t u, exec i s = .next t ∧ exec i (dropMemo s) = .next u ∧ SameButMemo t u from h
  cases hv : s.status.psValid with
  | false =>
    rw [dropMemo_eq_self hs hv]
    obtain ⟨_, _, _, -, ⟨_, ht⟩ | ⟨_, -, ht⟩⟩ := exec_spec i s <;> exact ⟨_, _, ht, ht, rfl⟩
  | true => exact exec_alike (runsAlike_dropMemo hs hv) SameButMemo.commandEnd i

/-! ## Hidden entries (93_implementation_defined.md U11) -/

theorem SameButHiddenEntries.sameButMemo {s t : State} (h : SameButHiddenEntries s t) : SameButMemo s t := by
  unfold SameButMemo
  rw [h.1]
  rfl

theorem SameButHiddenEntries.commandEnd {s t : State} (i : Instr) (r : Except ErrKind Results)
    (h : SameButHiddenEntries s t) : SameButHiddenEntries (commandEnd i (s, r)) (commandEnd i (t, r)) := by
  obtain ⟨ht, hr⟩ := h
  rw [ht] at hr ⊢
  cases r <;> exact ⟨rfl, hr⟩

/-- Two memos just computed for one curve have the same valid entries, whatever the memory held before
(41_point_enumerator.md R112). -/
theorem MemoComputed.sameButHiddenEntries {s u v : State} {m : PsMem} (hu : MemoComputed s u)
    (hv : MemoComputed { s with ps := m } v) : SameButHiddenEntries u v := by
  obtain ⟨h1, -, h3⟩ := hu
  obtain ⟨k1, -, k3⟩ := hv
  have hcount : u.psCount.toNat ≤ s.points.length := by
    rw [h3]
    exact regWord_toNat_le _
  refine ⟨?_, fun _ i hi => ?_⟩
  · rw [h3]
    exact k3
  · have hi := hi.trans_le hcount
    exact ((holdsPoints_iff.1 k1).2 i hi).trans ((holdsPoints_iff.1 h1).2 i hi).symm

/-- With no valid point set every entry is hidden (10_state.md R43). -/
theorem sameButHiddenEntries_of_invalid {s : State} (hv : s.status.psValid = false) (m : PsMem) :
    SameButHiddenEntries s { s with ps := m } := ⟨rfl, fun h => by rw [hv] at h; cases h⟩

/-- What the memory held before does not matter to what `enumerate` answers or makes valid (41_point_enumerator.md R112). -/
theorem enumerate_hidden (s : State) (m : PsMem) :
    (enumerate { s with ps := m }).2 = (enumerate s).2 ∧
      SameButHiddenEntries (enumerate s).1 (enumerate { s with ps := m }).1 := by
  rcases enumerate_spec s with ⟨h1, h2, hok, hu⟩ | ⟨h, herr, hu⟩ | ⟨h, herr, hu⟩
  · obtain ⟨hok', hv⟩ := enumerate_of_fits (s := { s with ps := m }) h1 h2
    exact ⟨hok'.trans hok.symm, hu.sameButHiddenEntries hv⟩
  · obtain ⟨herr', hv⟩ := enumerate_of_overflow (s := { s with ps := m }) h
    rw [hu, hv]
    exact ⟨herr'.trans herr.symm, sameButHiddenEntries_of_invalid (s := { dropMemo s with ps := _ }) rfl _⟩
  · obtain ⟨herr', hv⟩ := enumerate_of_empty (s := { s with ps := m }) h
    rw [hu, hv]
    exact ⟨herr'.trans herr.symm, sameButHiddenEntries_of_invalid (s := dropMemo s) rfl m⟩

theorem enumerate_ok_psValid {s : State} (h : (enumerate s).2 = .ok ()) : (enumerate s).1.status.psValid = true := by
  rcases enumerate_spec s with ⟨-, -, -, -, -, hu⟩ | ⟨-, herr, -⟩ | ⟨-, herr, -⟩
  · rw [hu]; rfl
  · rw [herr] at h; cases h
  · rw [herr] at h; cases h

theorem ensurePS_of_invalid {s : State} (hv : s.status.psValid = false) : ensurePS s = enumerate s := by
  rw [ensurePS, hv]
  rfl

theorem runsAlike_hidden {s t : State} (h : SameButHiddenEntries s t) : RunsAlike SameButHiddenEntries s t := by
  have ht := h.1
  obtain ⟨hres, hsame⟩ := enumerate_hidden s t.ps
  rw [← ht] at hres hsame
  have hvt : t.status.psValid = s.status.psValid := by rw [ht]
  cases hv : s.status.psValid with
  | true =>
    have es := ensurePS_of_valid hv
    have et := ensurePS_of_valid (hvt.trans hv)
    exact
      { registers := h.sameButMemo, start := h, enumerated := hsame, enumerateResult := hres
        ensured := by rw [es, et]; exact h
        ensureResult := by rw [es, et]
        entries := by rw [es, et]; exact fun _ => ⟨h, hv⟩ }
  | false =>
    have es := ensurePS_of_invalid hv
    have et := ensurePS_of_invalid (hvt.trans hv)
    exact
      { registers := h.sameButMemo, start := h, enumerated := hsame, enumerateResult := hres
        ensured := by rw [es, et]; exact hsame
        ensureResult := by rw [es, et]; exact hres
        entries := by rw [es, et]; exact fun hok => ⟨hsame, enumerate_ok_psValid hok⟩ }

/-! ### Reads, writes and reset on states that differ in hidden entries -/

theorem SameButHiddenEntries.ports {s t : State} (rest : List HostInput) (d : Option Word)
    (h : SameButHiddenEntries s t) :
    SameButHiddenEntries { s with inbox := rest, rdata := d } { t with inbox := rest, rdata := d } := by
  obtain ⟨ht, hr⟩ := h
  rw [ht] at hr ⊢
  exact ⟨rfl, hr⟩

/-- The window shows a valid entry or nothing (10_state.md R41). -/
theorem SameButHiddenEntries.windowEntry_eq {s t : State} (h : SameButHiddenEntries s t) :
    windowEntry t = windowEntry s := by
  obtain ⟨ht, hr⟩ := h
  rw [ht]
  by_cases hw : s.status.psValid = true ∧ s.psAddr.toNat < s.psCount.toNat
  · rw [windowEntry_of_valid hw.1 hw.2]
    exact (if_pos hw).trans (hr hw.1 _ hw.2)
  · exact (if_neg hw).trans (if_neg hw).symm

theorem SameButHiddenEntries.busRead_eq {s t : State} (h : SameButHiddenEntries s t) (addr : BusAddr) :
    busRead t addr = busRead s addr := by
  unfold busRead
  cases regAt addr with
  | none => rfl
  | some r =>
    cases r with
    | psx => simp only [regRead, h.windowEntry_eq]
    | psy => simp only [regRead, h.windowEntry_eq]
    | _ => simp only; rw [h.1]; rfl

theorem SameButHiddenEntries.regWrite {s t : State} (r : RegName) (w : Word) (h : SameButHiddenEntries s t) :
    SameButHiddenEntries (regWrite r w s) (regWrite r w t) := by
  obtain ⟨ht, hr⟩ := h
  rw [ht] at hr ⊢
  cases r with
  | p => exact sameButHiddenEntries_of_invalid rfl t.ps
  | a => exact sameButHiddenEntries_of_invalid rfl t.ps
  | b => exact sameButHiddenEntries_of_invalid rfl t.ps
  | _ => exact ⟨rfl, hr⟩

theorem SameButHiddenEntries.applyReset {s t : State} (h : SameButHiddenEntries s t) :
    SameButHiddenEntries (applyReset s) (applyReset t) := by
  rw [h.1]
  exact sameButHiddenEntries_of_invalid rfl t.ps

theorem SameButHiddenEntries.failed {s t : State} (w : Word) (c : Nat) (h : SameButHiddenEntries s t) :
    SameButHiddenEntries (s.failed w c) (t.failed w c) := by
  obtain ⟨ht, hr⟩ := h
  rw [ht] at hr ⊢
  exact ⟨rfl, hr⟩

/-- A write on two states that differ in hidden entries (20_memory.md R64). -/
theorem SameButHiddenEntries.busWrite {s t : State} (addr : BusAddr) (w : Word) (h : SameButHiddenEntries s t) :
    ∃ u v, busWrite addr w s = .next u ∧ busWrite addr w t = .next v ∧ SameButHiddenEntries u v := by
  cases hr : regAt addr with
  | none => exact ⟨s, t, by rw [Machine.busWrite, hr], by rw [Machine.busWrite, hr], h⟩
  | some r =>
    by_cases hc : r = .cmd
    · subst hc
      simp only [Machine.busWrite, hr, commandWrite]
      cases decodeCommand w with
      | ok i => exact exec_alike (runsAlike_hidden h) SameButHiddenEntries.commandEnd i
      | error e => exact ⟨_, _, rfl, rfl, h.failed w 8⟩
    · exact ⟨_, _, busWrite_store hr hc w s, busWrite_store hr hc w t, h.regWrite r w⟩

theorem step_idle {s : State} (h : s.inbox = []) : step s = .next s := by
  rw [step, stepInput, h]

theorem step_reset {s : State} {rest : List HostInput} (h : s.inbox = .reset :: rest) :
    step s = .next (applyReset { s with inbox := rest }) := by
  rw [step, stepInput, h]
  rfl

theorem step_protocolBreach {s : State} {rest : List HostInput} (h : s.inbox = .protocolBreach :: rest) :
    step s = .fault .busProtocolBreach := by
  rw [step, stepInput, h]
  rfl

/-- Settles O58: no read, no lookup and no `enumerate` depends on a hidden entry. -/
theorem hiddenEntriesAreNeverObserved : Obligations.HiddenEntriesAreNeverObserved := by
  intro s t h
  have hin : t.inbox = s.inbox := by rw [h.1]
  cases hs : s.inbox with
  | nil => exact .inl ⟨s, t, step_idle hs, step_idle (hin.trans hs), h⟩
  | cons input rest =>
    have ht := hin.trans hs
    cases input with
    | protocolBreach => exact .inr ⟨_, step_protocolBreach hs, step_protocolBreach ht⟩
    | reset =>
      refine .inl ⟨_, _, step_reset hs, step_reset ht, ?_⟩
      have hd : t.rdata = s.rdata := by rw [h.1]
      exact SameButHiddenEntries.applyReset (hd ▸ h.ports rest s.rdata)
    | txn x =>
      obtain ⟨wr, addr, w⟩ := x
      cases wr with
      | false =>
        refine .inl ⟨_, _, step_read hs, step_read ht, ?_⟩
        rw [h.busRead_eq addr]
        exact h.ports rest _
      | true =>
        rw [step_write hs, step_write ht]
        exact .inl ((h.ports rest none).busWrite addr w)

end Sys2Proof.Machine

namespace Sys2Proof.Machine

/-! ## The register map as the host sees it (20_memory.md R61 to R70) -/

/-- A tag register reads as its bit (10_state.md R23). -/
@[simp] theorem tagWord_toNat (t : Bool) : (tagWord t).toNat = t.toNat := by cases t <;> rfl

/-- Settles O9: a read is `regRead` of the register, which answers a field of the state or a constant. -/
theorem readsReturnTheRegister : Obligations.ReadsReturnTheRegister := by
  refine ⟨fun s addr wdata rest h => step_read h, fun s => ?_⟩
  simp [regRead, idWord, regWord]

/-- The bit that a tag register stores, as a number (10_state.md R23). -/
theorem keepTag_eq_decide (w : Word) : keepTag w = decide (w.toNat % 2 = 1) := by
  simp [keepTag, BitVec.getLsbD, Nat.testBit_zero]

/-- Settles O13: none of the eleven registers is CMD, so a write to it is its store. -/
theorem operandWritesStoreTheirBits : Obligations.OperandWritesStoreTheirBits := by
  intro s w rest r h
  rw [← keepTag_eq_decide]
  refine ⟨?_, ?_, ?_, ?_, ?_, ?_, ?_, ?_, ?_, ?_, ?_⟩ <;> rintro rfl <;> exact step_store (by decide) h

/-- The unmapped slots of 20_memory.md R70, by byte offset. -/
theorem regAt_eq_none_iff (addr : BusAddr) : regAt addr = none ↔
    (4 * addr.toNat ∈ [0x18, 0x1C, 0x2C, 0x3C, 0x4C, 0x6C, 0x7C, 0x8C] ∨ 0xB0 ≤ 4 * addr.toNat) := by
  revert addr
  decide

theorem busRead_unmapped {addr : BusAddr} (h : regAt addr = none) (s : State) : busRead s addr = 0#32 := by
  rw [busRead, h]

theorem busWrite_unmapped {addr : BusAddr} (h : regAt addr = none) (w : Word) (s : State) :
    busWrite addr w s = .next s := by
  rw [busWrite, h]

/-- A read-only register ignores a store (10_state.md R23). -/
theorem regWrite_readOnly {r : RegName} (h : regClass r = .readOnly) (w : Word) (s : State) : regWrite r w s = s := by
  cases r with
  | p | a | b | p1x | p1y | p2x | p2y | p1t | p2t | k1 | k2 | msg | opa | psaddr | cmd | esticky => cases h
  | _ => rfl

/-- Settles O14: a write to an unmapped slot stores nothing, and the store of a read-only register is the identity. -/
theorem unmappedAndReadOnlyIgnoreWrites : Obligations.UnmappedAndReadOnlyIgnoreWrites := by
  refine ⟨regAt_eq_none_iff, fun s addr h => busRead_unmapped h s, fun s addr w rest h hr => ?_⟩
  rw [step_write h]
  obtain hnone | ⟨r, hr, hclass⟩ := hr
  · exact busWrite_unmapped hnone w _
  · have hc : r ≠ .cmd := by rintro rfl; cases hclass
    rw [busWrite_store hr hc, regWrite_readOnly hclass]

/-! ## No command and no transaction stops the machine (20_memory.md R62, 60_exceptions.md R195) -/

theorem exec_answers_next (i : Instr) (s : State) : ∃ t, exec i s = .next t := by
  by_cases hp : s.p.toNat < 2
  · exact ⟨_, exec_small hp⟩
  · exact ⟨_, exec_large i (by omega)⟩

/-- A write is ignored, is a store, or is a command, legal or not; each ends (20_memory.md R64, 30_encoding.md R90, R92). -/
theorem busWrite_answers_next (addr : BusAddr) (w : Word) (s : State) : ∃ t, busWrite addr w s = .next t := by
  cases hr : regAt addr with
  | none => exact ⟨s, busWrite_unmapped hr w s⟩
  | some r =>
    by_cases hc : r = .cmd
    · subst hc
      simp only [busWrite, hr, commandWrite]
      cases decodeCommand w with
      | ok i => exact exec_answers_next i s
      | error e => exact ⟨_, rfl⟩
    · exact ⟨_, busWrite_store hr hc w s⟩

/-- Settles O19: a case for each input of the host; the breach is the one that is no transaction and no reset. -/
theorem onlyAProtocolBreachStops : Obligations.OnlyAProtocolBreachStops := by
  intro s
  cases hs : s.inbox with
  | nil => exact .inl ⟨s, step_idle hs⟩
  | cons input rest =>
    cases input with
    | protocolBreach => exact .inr ⟨rfl, step_protocolBreach hs⟩
    | reset => exact .inl ⟨_, step_reset hs⟩
    | txn x =>
      obtain ⟨wr, addr, w⟩ := x
      cases wr with
      | false => exact .inl ⟨_, step_read hs⟩
      | true =>
        rw [step_write hs]
        exact .inl (busWrite_answers_next addr w _)

end Sys2Proof.Machine

namespace Sys2Proof.Machine

/-! ## The command word and its decoder (30_encoding.md R82 to R85) -/

@[simp] theorem commandFields_rsvd_toNat (w : Word) : (commandFields w).rsvd.toNat = w.toNat / 256 := by
  have hw := w.isLt
  simp only [commandFields, BitVec.extractLsb'_toNat, Nat.shiftRight_eq_div_pow]
  omega

@[simp] theorem commandFields_opcode_toNat (w : Word) : (commandFields w).opcode.toNat = w.toNat % 256 := by
  simp [commandFields, BitVec.extractLsb'_toNat]

/-- The reserved field of a command word adds nothing to it (30_encoding.md R82). -/
@[simp] theorem encodeCommand_toNat (i : Instr) : (encodeCommand i).toNat = i.opcode.toNat := by
  rw [encodeCommand, toNat_append_eq_add]
  simp

/-- A word is a command's word when its two fields are (30_encoding.md R82). -/
theorem eq_encodeCommand_iff {w : Word} {i : Instr} :
    w = encodeCommand i ↔ (commandFields w).rsvd = 0#24 ∧ (commandFields w).opcode = i.opcode := by
  have hop := i.opcode.isLt
  simp only [← BitVec.toNat_inj, commandFields_rsvd_toNat, commandFields_opcode_toNat, encodeCommand_toNat,
    BitVec.toNat_ofNat]
  omega

@[simp] theorem decodeOpcode_opcode (i : Instr) : decodeOpcode i.opcode = .ok i := by cases i <;> rfl

/-- The opcode map is one to one (30_encoding.md R83): each row of `decodeOpcode` reads one opcode. -/
theorem decodeOpcode_eq_ok_iff {op : BitVec 8} {i : Instr} : decodeOpcode op = .ok i ↔ op = i.opcode := by
  refine ⟨fun h => ?_, fun h => h ▸ decodeOpcode_opcode i⟩
  unfold decodeOpcode at h
  split at h <;> cases h <;> exact BitVec.eq_of_toNat_eq ‹_›

/-- The unassigned opcodes (30_encoding.md R84). -/
theorem decodeOpcode_error_iff {op : BitVec 8} :
    (∃ e, decodeOpcode op = .error e) ↔ op.toNat = 0x00 ∨ 0x0B ≤ op.toNat := by
  unfold decodeOpcode
  split <;> simp_all
  -- the rows of the map are closed by their own number; what is left is the catch-all row
  omega

/-- The decoder matches the whole word (30_encoding.md R83). -/
theorem decodeCommand_eq_ok_iff {w : Word} {i : Instr} : decodeCommand w = .ok i ↔ w = encodeCommand i := by
  rw [eq_encodeCommand_iff, decodeCommand]
  split
  case isTrue hr => rw [decodeOpcode_eq_ok_iff, and_iff_right hr]
  case isFalse hr => exact ⟨fun h => (nomatch h), fun h => absurd h.1 hr⟩

/-- The illegal words (30_encoding.md R84). -/
theorem decodeCommand_error_iff {w : Word} : (∃ e, decodeCommand w = .error e) ↔
    (w.toNat / 256 ≠ 0 ∨ w.toNat % 256 = 0x00 ∨ 0x0B ≤ w.toNat % 256) := by
  have hrsvd : (commandFields w).rsvd = 0#24 ↔ w.toNat / 256 = 0 := by
    rw [← BitVec.toNat_inj, commandFields_rsvd_toNat]
    rfl
  rw [decodeCommand]
  split
  case isTrue hr => rw [decodeOpcode_error_iff, commandFields_opcode_toNat, or_iff_right (not_not.2 (hrsvd.1 hr))]
  case isFalse hr => exact ⟨fun _ => .inl (mt hrsvd.2 hr), fun _ => ⟨_, rfl⟩⟩

/-- Settles O1: both fields of the word are matched, the reserved one against 0 and the opcode against its row. -/
theorem decoderMatchesTheWholeWord : Obligations.DecoderMatchesTheWholeWord :=
  ⟨fun _ _ => decodeCommand_eq_ok_iff, rfl, rfl, rfl, rfl, rfl, rfl, rfl, rfl, rfl, rfl⟩

/-- Settles O3: a cause for the reserved field, and the two of the opcode. -/
theorem illegalWordsAreRefused : Obligations.IllegalWordsAreRefused :=
  fun _ => decodeCommand_error_iff

/-- Settles O2: the four words are command words, and each of the other three is refused at its own test. -/
theorem sampleWordsDecode : Obligations.SampleWordsDecode := by
  refine ⟨decodeCommand_eq_ok_iff.2 rfl, decodeCommand_eq_ok_iff.2 rfl, decodeCommand_eq_ok_iff.2 rfl,
    decodeCommand_eq_ok_iff.2 rfl, ?_⟩
  decide

/-! ## The 39-bit form of a transaction (30_encoding.md R81, R96) -/

/-- The layout `{wr, addr, wdata}` as a number. -/
theorem encodeTxn_toNat (t : BusTxn) :
    (encodeTxn t).toNat = t.wr.toNat * 2 ^ 38 + t.addr.toNat * 2 ^ 32 + t.wdata.toNat := by
  rw [encodeTxn, toNat_append_eq_add, toNat_append_eq_add, BitVec.toNat_ofBool]
  omega

@[simp] theorem decodeTxn_wr_toNat (n : TxnBits) : (decodeTxn n).wr.toNat = n.toNat / 2 ^ 38 := by
  have hn := n.isLt
  simp only [decodeTxn, BitVec.getLsbD, Nat.toNat_testBit]
  omega

@[simp] theorem decodeTxn_addr_toNat (n : TxnBits) : (decodeTxn n).addr.toNat = n.toNat / 2 ^ 32 % 2 ^ 6 := by
  simp only [decodeTxn, BitVec.extractLsb'_toNat, Nat.shiftRight_eq_div_pow]

@[simp] theorem decodeTxn_wdata_toNat (n : TxnBits) : (decodeTxn n).wdata.toNat = n.toNat % 2 ^ 32 := by
  simp only [decodeTxn, BitVec.extractLsb'_toNat, Nat.shiftRight_zero]

/-- A transaction is its three fields as numbers. -/
theorem busTxn_ext {t u : BusTxn} (hwr : t.wr.toNat = u.wr.toNat) (haddr : t.addr.toNat = u.addr.toNat)
    (hwdata : t.wdata.toNat = u.wdata.toNat) : t = u := by
  obtain ⟨wr, addr, wdata⟩ := t
  obtain ⟨wr', addr', wdata'⟩ := u
  rw [BusTxn.mk.injEq]
  exact ⟨Function.LeftInverse.injective Bool.ofNat_toNat hwr, BitVec.eq_of_toNat_eq haddr, BitVec.eq_of_toNat_eq hwdata⟩

theorem decodeTxn_encodeTxn (t : BusTxn) : decodeTxn (encodeTxn t) = t := by
  have hwr := t.wr.toNat_lt
  have haddr := t.addr.isLt
  have hwdata := t.wdata.isLt
  have hn := encodeTxn_toNat t
  apply busTxn_ext
  · rw [decodeTxn_wr_toNat]; omega
  · rw [decodeTxn_addr_toNat]; omega
  · rw [decodeTxn_wdata_toNat]; omega

theorem encodeTxn_decodeTxn (n : TxnBits) : encodeTxn (decodeTxn n) = n := by
  apply BitVec.eq_of_toNat_eq
  rw [encodeTxn_toNat, decodeTxn_wr_toNat, decodeTxn_addr_toNat, decodeTxn_wdata_toNat]
  omega

/-- Settles O4: the three fields are read off the number by division, and add up to it again. -/
theorem transactionFormat : Obligations.TransactionFormat :=
  ⟨encodeTxn_toNat, decodeTxn_encodeTxn, encodeTxn_decodeTxn⟩

/-- The word index of a register from its byte offset (20_memory.md R61). -/
theorem offset_div_four (r : RegName) : r.offset / 4 = r.index.toNat :=
  Nat.mul_div_cancel_left _ (by decide)

/-- Settles O5: the layout of the transaction of each line; both `CMD` lines write slot 0x03. -/
theorem scriptLinesEncode : Obligations.ScriptLinesEncode := by
  refine ⟨fun r v => ?_, fun r => ?_, fun i => ?_, fun n => rfl⟩
  · rw [encodeTxn_toNat, offset_div_four]
    simp [scriptTxn]
  · rw [encodeTxn_toNat, offset_div_four]
    simp [scriptTxn]
  · rw [encodeTxn_toNat]
    simp [scriptTxn, commandTxn, RegName.index]

/-! ## The errors of the frame before a body (30_encoding.md R92, R93) -/

/-- A write to CMD of a word that is no command (30_encoding.md R92). -/
theorem commandWrite_of_error {w : Word} {e : DecodeError} (h : decodeCommand w = .error e) (s : State) :
    commandWrite w s = .next (s.failed w ErrKind.illegalCommand.code) := by
  rw [commandWrite, h]
  exact congrArg Host.Outcome.next (raise_begin w .illegalCommand s)

/-- A bus write to slot 0x03 is a write to CMD (10_state.md R47, 20_memory.md R64). -/
theorem busWrite_cmd (w : Word) (s : State) : busWrite 0x03#6 w s = commandWrite w s := rfl

/-- Settles O8: the decoder refuses the word, and the frame raises before it looks at P. -/
theorem illegalWordRaisesIllegalCommand : Obligations.IllegalWordRaisesIllegalCommand := by
  intro s w rest h hw
  obtain ⟨e, he⟩ := decodeCommand_error_iff.2 hw
  rw [step_write h, busWrite_cmd]
  exact commandWrite_of_error he _

/-- Settles O20: the modulus test of the frame comes before every body. -/
theorem smallModulusIsInvalidCurve : Obligations.SmallModulusIsInvalidCurve :=
  fun _ _ => exec_small

end Sys2Proof.Machine

namespace Sys2Proof.Machine

/-! ## MODINV (40_field_arithmetic.md R102) -/

/-- STATUS tells a success from a failure: ERR is 0 after the one and 1 after the other (60_exceptions.md R194). -/
theorem succeeded_ne_failed (w v : Word) (r : Results) (c : Nat) (s : State) : s.succeeded w r ≠ s.failed v c :=
  fun h => Bool.false_ne_true (congrArg (fun t : State => t.status.err) h)

/-- The answer of `MODINV` for the inverse of OPA modulo P (40_field_arithmetic.md R102). -/
theorem exec_modinv_of_inverse {s : State} {x : Nat} (hp : 2 ≤ s.p.toNat) (hx : x < s.p.toNat)
    (hinv : s.opa.toNat * x % s.p.toNat = 1) :
    exec .modinv s = .next (s.succeeded 0x00000001#32 { rs := BitVec.ofNat 32 x }) := by
  rw [exec_modinv_eq hp, (inv_eq_ok_iff hp).2 ⟨hx, hinv⟩]

/-- `MODINV` raises `NotInvertible` exactly where OPA and P share a factor above 1 (40_field_arithmetic.md R100, R102). -/
theorem exec_modinv_eq_failed_iff {s : State} (hp : 2 ≤ s.p.toNat) :
    exec .modinv s = .next (s.failed 0x00000001#32 1) ↔ Nat.gcd s.opa.toNat s.p.toNat ≠ 1 := by
  rw [exec_modinv_eq hp]
  cases hr : inv s.opa.toNat s.p.toNat with
  | ok x =>
    have hg : Nat.gcd s.opa.toNat s.p.toNat = 1 := (exists_inv_iff hp).1 ⟨x, hr⟩
    exact iff_of_false (fun h => succeeded_ne_failed _ _ _ _ _ (Host.Outcome.next.inj h)) (not_not.2 hg)
  | error e =>
    obtain ⟨rfl, hg⟩ := (inv_eq_error_iff hp).1 hr
    exact iff_of_true rfl hg

/-- Settles O25: `inv` answers the one inverse where the gcd is 1, and fails elsewhere; for a prime P the gcd is not 1
exactly at the multiples of P. -/
theorem modinvIsTheInverse : Obligations.ModinvIsTheInverse := by
  intro s
  have hred : Nat.gcd (s.opa.toNat % s.p.toNat) s.p.toNat = Nat.gcd s.opa.toNat s.p.toNat := by
    rw [← Nat.gcd_rec, Nat.gcd_comm]
  rw [hred]
  refine ⟨exec_small, fun hp hg => ?_, fun hp => (exec_modinv_eq_failed_iff hp).2, fun hprime => ?_⟩
  · obtain ⟨x, hx⟩ := (exists_inv_iff hp).2 hg
    obtain ⟨hlt, hinv⟩ := (inv_eq_ok_iff hp).1 hx
    refine ⟨x, hlt, hinv, fun y hy hyinv => ?_, exec_modinv_of_inverse hp hlt hinv⟩
    have hy' : inv s.opa.toNat s.p.toNat = .ok y := (inv_eq_ok_iff hp).2 ⟨hy, hyinv⟩
    exact Except.ok.inj (hy'.symm.trans hx)
  · rw [exec_modinv_eq_failed_iff hprime.two_le, hprime.dvd_iff_not_coprime, Nat.coprime_comm]

end Sys2Proof.Machine

namespace Sys2Proof.Machine

/-! ## The enumerated list (41_point_enumerator.md R111) -/

/-- Modulo a prime, two different residues with one square add up to the modulus. -/
theorem add_eq_of_mul_self_mod_eq {p y z : Nat} (hp : p.Prime) (hyz : y < z) (hz : z < p) (h : y * y % p = z * z % p) :
    y + z = p := by
  have hdvd : p ∣ (z + y) * (z - y) := by
    rw [← Nat.mul_self_sub_mul_self_eq]
    exact (Nat.modEq_iff_dvd' (Nat.mul_self_le_mul_self hyz.le)).1 h
  rcases hp.dvd_mul.1 hdvd with hadd | hsub
  · exact (Nat.add_comm y z).trans (Nat.eq_of_dvd_of_lt_two_mul (by omega) hadd (by omega))
  · exact absurd (Nat.le_of_dvd (by omega) hsub) (by omega)

/-- Modulo a prime, an abscissa carries at most two points (41_point_enumerator.md R112): of three ordinates in ascending
order the first would complete both others to `p`. -/
theorem length_ordinates_le_two {p : Nat} (hp : p.Prime) (a b x : Nat) :
    ((List.range p).filter fun y => onCurveTest a b p x y).length ≤ 2 := by
  have hmem : ∀ y ∈ (List.range p).filter fun y => onCurveTest a b p x y,
      y < p ∧ y * y % p = (x * x * x + a * x + b) % p := by
    simp [onCurveTest_iff]
  have hasc : ((List.range p).filter fun y => onCurveTest a b p x y).Pairwise (· < ·) :=
    List.pairwise_lt_range.filter _
  match (List.range p).filter fun y => onCurveTest a b p x y, hmem, hasc with
  | [], _, _ | [_], _, _ | [_, _], _, _ => simp
  | y :: z :: z' :: _, hmem, hasc =>
    obtain ⟨hy, hysq⟩ := hmem y (by simp)
    obtain ⟨hz, hzsq⟩ := hmem z (by simp)
    obtain ⟨hz', hzsq'⟩ := hmem z' (by simp)
    have hyz : y < z := List.rel_of_pairwise_cons hasc (by simp)
    have hyz' : y < z' := List.rel_of_pairwise_cons hasc (by simp)
    have hzz' : z < z' := List.rel_of_pairwise_cons hasc.of_cons (by simp)
    have h := add_eq_of_mul_self_mod_eq hp hyz hz (hysq.trans hzsq.symm)
    have h' := add_eq_of_mul_self_mod_eq hp hyz' hz' (hysq.trans hzsq'.symm)
    omega

/-- A curve over a prime modulus has at most two points for each abscissa (41_point_enumerator.md R112). -/
theorem length_enumPoints_le {p : Nat} (hp : p.Prime) (a b : Nat) : (enumPoints a b p).length ≤ 2 * p := by
  rw [enumPoints, List.length_flatMap]
  refine (List.sum_le_card_nsmul _ 2 fun n hn => ?_).trans_eq (by simp [Nat.mul_comm])
  obtain ⟨x, -, rfl⟩ := List.mem_map.1 hn
  rw [List.length_map]
  exact length_ordinates_le_two hp a b x

/-- Settles O26: membership and order are those of the scan; the length is at most two for each abscissa. -/
theorem enumListIsTheCurve : Obligations.EnumListIsTheCurve :=
  fun a b p _ => ⟨fun _ _ => mem_enumPoints, enumPoints_ascending a b p, fun hp => length_enumPoints_le hp a b⟩

/-! ## ENUM (41_point_enumerator.md R112, R113) -/

theorem exec_enum_of_ok {s : State} (hp : 2 ≤ s.p.toNat) (h : (enumerate s).2 = .ok ()) :
    exec .enum s = .next ((enumerate s).1.succeeded 0x00000002#32 {}) := by
  rw [exec_large .enum hp, bodyOf_enum_eq, h]
  rfl

theorem exec_enum_of_error {s : State} {e : ErrKind} (hp : 2 ≤ s.p.toNat) (h : (enumerate s).2 = .error e) :
    exec .enum s = .next ((enumerate s).1.failed 0x00000002#32 e.code) := by
  rw [exec_large .enum hp, bodyOf_enum_eq, h]
  rfl

/-- Settles O27: `ENUM` ends as `enumerate` does, which answers by the number of points. -/
theorem enumStoresThePoints : Obligations.EnumStoresThePoints := by
  intro s
  refine ⟨exec_small, fun hp h1 h2 => ?_, fun hp h => ?_, fun hp h => ?_⟩
  · obtain ⟨hok, hholds, hrest, hstate⟩ := enumerate_of_fits h1 h2
    refine ⟨(enumerate s).1.ps, hholds, hrest, ?_⟩
    rw [← hstate]
    exact exec_enum_of_ok hp hok
  · obtain ⟨herr, hstate⟩ := enumerate_of_empty h
    refine ⟨s.ps, ?_⟩
    rw [exec_enum_of_error hp herr, hstate]
    rfl
  · obtain ⟨herr, hstate⟩ := enumerate_of_overflow h
    refine ⟨(enumerate s).1.ps, ?_⟩
    rw [exec_enum_of_error hp herr, hstate]
    rfl

/-! ## The commands that find no point set (41_point_enumerator.md R114) -/

theorem ensurePS_of_empty {s : State} (hs : MemoInv s) (hv : s.status.psValid = false) (hn : s.points.length = 0) :
    ensurePS s = (s, .error .invalidCurve) := by
  obtain ⟨herr, hstate⟩ := enumerate_of_empty hn
  rw [dropMemo_eq_self hs hv] at hstate
  rw [ensurePS_of_invalid hv]
  exact Prod.ext hstate herr

theorem ensurePS_of_overflow {s : State} (hs : MemoInv s) (hv : s.status.psValid = false)
    (hn : s.cfg.psDepth < s.points.length) :
    ensurePS s = ({ s with ps := (enumerate s).1.ps }, .error .setOverflow) := by
  obtain ⟨herr, hstate⟩ := enumerate_of_overflow hn
  rw [dropMemo_eq_self hs hv] at hstate
  rw [ensurePS_of_invalid hv]
  exact Prod.ext hstate herr

section
variable {s t : State} {e : ErrKind} (h : ensurePS s = (t, .error e))
include h

/-- Encoding ends with the error of `ensurePS` once the message passes the size test (43_message_codec.md R154). -/
theorem encodeMessage_of_ensurePS_error (hm : npo2 s.msg.toNat ≤ s.p.toNat) : encodeMessage s = (t, .error e) := by
  rw [encodeMessage_eq, if_neg (Nat.not_lt.2 hm), h]
  rfl

/-- What the commands that consult the point set do without one: DHSS at once, ENCODE and EGENC once the message passes the
size test (41_point_enumerator.md R114). -/
theorem exec_of_ensurePS_error (hp : 2 ≤ s.p.toNat) :
    exec .dhss s = .next (t.failed 0x00000007#32 e.code) ∧
      (npo2 s.msg.toNat ≤ s.p.toNat →
        exec .encode s = .next (t.failed 0x00000006#32 e.code) ∧
        exec .egenc s = .next (t.failed 0x00000008#32 e.code)) := by
  refine ⟨?_, fun hm => ⟨?_, ?_⟩⟩
  · rw [exec_large .dhss hp, bodyOf_dhss_eq, h]
    rfl
  · rw [exec_large .encode hp, bodyOf_encode_eq, encodeMessage_of_ensurePS_error h hm]
    rfl
  · rw [exec_large .egenc hp, bodyOf_egenc_eq, encodeMessage_of_ensurePS_error h hm]
    rfl

end

/-- Settles O47: the memo is not valid, so `ensurePS` ends as `enumerate` does, and its error is that of the commands. -/
theorem pointSetUnavailable : Obligations.PointSetUnavailable :=
  fun _ hs hv hp => ⟨fun hn => exec_of_ensurePS_error (ensurePS_of_empty hs hv hn) hp,
    fun hn => ⟨_, exec_of_ensurePS_error (ensurePS_of_overflow hs hv hn) hp⟩⟩

/-! ## The answers of the bodies that use the point set, as one computation after another (30_encoding.md R90) -/

theorem bodyOf_enum_answer (s : State) : (bodyOf .enum s).2 = (enumerate s).2 >>= fun _ => .ok {} := by
  rw [bodyOf_enum_eq]
  cases (enumerate s).2 <;> rfl

theorem bodyOf_dhss_answer (s : State) : (bodyOf .dhss s).2 = (ensurePS s).2 >>= fun _ => dhssOnSet (ensurePS s).1 := by
  rw [bodyOf_dhss_eq]
  cases (ensurePS s).2 <;> rfl

theorem bodyOf_encode_answer (s : State) : (bodyOf .encode s).2 =
    (encodeMessage s).2 >>= fun en => .ok (encodeResults en) := by
  rw [bodyOf_encode_eq]
  cases (encodeMessage s).2 <;> rfl

theorem bodyOf_egenc_answer (s : State) : (bodyOf .egenc s).2 = (encodeMessage s).2 >>= egencOnSet (encodeMessage s).1 := by
  rw [bodyOf_egenc_eq]
  cases (encodeMessage s).2 <;> rfl

/-! ## SetOverflow comes from `enumerate` alone (41_point_enumerator.md R112, 60_exceptions.md R191) -/

/-- A computation that failed, in two parts: one of the parts failed. -/
theorem bind_eq_error {α β : Type} {x : Except ErrKind α} {f : α → Except ErrKind β} {e : ErrKind}
    (h : x >>= f = .error e) : x = .error e ∨ ∃ a, x = .ok a ∧ f a = .error e := by
  cases x with
  | error e' => exact .inl (congrArg _ (Except.error.inj h))
  | ok a => exact .inr ⟨a, rfl, h⟩

/-- `ensurePS` fails only where it ran `enumerate` (41_point_enumerator.md R114). -/
theorem enumerate_error_of_ensurePS {s : State} {e : ErrKind} (h : (ensurePS s).2 = .error e) :
    (enumerate s).2 = .error e := by
  unfold ensurePS at h
  split at h
  · cases h
  · exact h

theorem raises_encodeOnSet (t : State) : Raises [.messageNotEncodable] (encodeOnSet t) := fun e he => by
  unfold encodeOnSet at he
  cases hk : ksearch t t.msg.toNat (t.p.toNat / npo2 t.msg.toNat) t.p.toNat with
  | error e' =>
    rw [hk] at he
    obtain rfl := Except.error.inj he
    simp [((ksearch_eq_error_iff ..).1 hk).1]
  | ok q => rw [hk] at he; cases he

theorem enumerate_setOverflow_of_encodeMessage {s : State} (h : (encodeMessage s).2 = .error .setOverflow) :
    (enumerate s).2 = .error .setOverflow := by
  rw [encodeMessage_eq] at h
  split at h
  · cases h
  · rcases bind_eq_error h with h | ⟨_, -, h⟩
    · exact enumerate_error_of_ensurePS h
    · exact absurd (raises_encodeOnSet _ _ h) (by simp)

/-- Of the body's parts only `enumerate` raises SetOverflow (60_exceptions.md R191). -/
theorem enumerate_setOverflow_of_bodyOf {i : Instr} {s : State} (hp : 2 ≤ s.p.toNat)
    (h : (bodyOf i s).2 = .error .setOverflow) : (enumerate s).2 = .error .setOverflow := by
  cases i with
  | modinv => exact absurd (raises_modinvBody hp _ h) (by simp)
  | padd => exact absurd (raises_paddBody hp _ h) (by simp)
  | pdbl => exact absurd (raises_pdblBody hp _ h) (by simp)
  | smul => exact absurd (raises_smulBody hp _ h) (by simp)
  | egdec => exact absurd (raises_egdecBody hp _ h) (by simp)
  | pneg => cases h
  | enum =>
    rw [bodyOf_enum_answer] at h
    rcases bind_eq_error h with h | ⟨_, -, h⟩
    · exact h
    · cases h
  | dhss =>
    rw [bodyOf_dhss_answer] at h
    rcases bind_eq_error h with h | ⟨_, -, h⟩
    · exact enumerate_error_of_ensurePS h
    · exact absurd (raises_dhssOnSet ((sameButMemo_ensurePS s).p_eq ▸ hp) _ h) (by simp)
  | encode =>
    rw [bodyOf_encode_answer] at h
    rcases bind_eq_error h with h | ⟨_, -, h⟩
    · exact enumerate_setOverflow_of_encodeMessage h
    · cases h
  | egenc =>
    rw [bodyOf_egenc_answer] at h
    rcases bind_eq_error h with h | ⟨en, -, h⟩
    · exact enumerate_setOverflow_of_encodeMessage h
    · exact absurd (raises_egencOnSet en ((sameButMemo_encodeMessage s).p_eq ▸ hp) _ h) (by simp)

/-- Code 9 is that of `SetOverflow` alone (60_exceptions.md R185). -/
theorem setOverflow_of_commandEnd_errCode {i : Instr} {q : State × Except ErrKind Results}
    (h : (commandEnd i q).status.errCode = 9#4) : q.2 = .error .setOverflow := by
  obtain ⟨t, r⟩ := q
  cases r with
  | ok r => exact absurd (show 0#4 = 9#4 from h) (by decide)
  | error e =>
    have hcode : BitVec.ofNat 4 e.code = 9#4 := h
    have he : e = .setOverflow := by revert hcode; cases e <;> decide
    exact congrArg _ he

/-- Settles O28: only `enumerate` raises SetOverflow, on more than PS_DEPTH points, and a prime P has at most 2·P. -/
theorem primeModulusNeverOverflows : Obligations.PrimeModulusNeverOverflows := by
  intro i s t hprime hdepth h hcode
  have hp := hprime.two_le
  rw [exec_large i hp] at h
  obtain rfl := Host.Outcome.next.inj h
  have hover : (enumerate s).2 = .error .setOverflow :=
    enumerate_setOverflow_of_bodyOf hp (setOverflow_of_commandEnd_errCode hcode)
  have hlen : s.points.length ≤ 2 * s.p.toNat := length_enumPoints_le hprime _ _
  rcases enumerate_spec s with ⟨-, -, hok, -⟩ | ⟨hlt, -, -⟩ | ⟨-, hempty, -⟩
  · rw [hok] at hover; cases hover
  · omega
  · rw [hempty] at hover; cases hover

end Sys2Proof.Machine

namespace Sys2Proof.Machine

/-! ## The operands and the end of the commands of the point group (42_point_group.md R121 to R128) -/

theorem rdpoint_of_tag {r : PointReg} (h : r.t = true) (p : Nat) : rdpoint r p = .inf := if_pos h

theorem rdpoint_of_affine {r : PointReg} (h : r.t = false) (p : Nat) :
    rdpoint r p = .aff (r.x.toNat % p) (r.y.toNat % p) := if_neg (by simp [h])

section
variable {s : State} {P : Point} {r : Except ErrKind Point} (hp : 2 ≤ s.p.toNat) (hP : rdpoint s.p1 s.p.toNat = P)
include hp hP

/-- PADD by its two operands and the answer of `padd` (42_point_group.md R125). -/
theorem exec_padd_of_operands {Q : Point} (hQ : rdpoint s.p2 s.p.toNat = Q) (hr : padd P Q s.a.toNat s.p.toNat = r) :
    exec .padd s = .next (pointEnd 0x00000003#32 s r) := by
  rw [exec_padd_eq hp, hP, hQ, hr]

/-- PDBL by its operand and the answer of `pdbl` (42_point_group.md R126). -/
theorem exec_pdbl_of_operand (hr : pdbl P s.a.toNat s.p.toNat = r) :
    exec .pdbl s = .next (pointEnd 0x00000004#32 s r) := by
  rw [exec_pdbl_eq hp, hP, hr]

/-- SMUL by its operand, its scalar and the answer of `smul` (42_point_group.md R128). -/
theorem exec_smul_of_operand {k : Nat} (hk : s.k1.toNat = k) (hr : smul P k s.a.toNat s.p.toNat = r) :
    exec .smul s = .next (pointEnd 0x00000005#32 s r) := by
  rw [exec_smul_eq hp, hP, hk, hr]

end

/-- Settles O29: `pneg` on an identity and on an affine operand. -/
theorem pnegNegates : Obligations.PnegNegates := by
  intro s
  refine ⟨exec_small, fun hp ht => ?_, fun hp ht => ?_⟩
  · rw [exec_pneg_eq hp, rdpoint_of_tag ht]
    rfl
  · rw [exec_pneg_eq hp, rdpoint_of_affine ht]
    rfl

/-! ## The point of a slope (42_point_group.md R122, R123) -/

theorem floorMod_eq_of_natCast_eq {n : Int} {x p : Nat} (h : (x : Int) = n % p) : floorMod n p = x := by
  rw [floorMod, ← h, Int.toNat_natCast]

/-- The last part of `padd` and of `pdbl`: the point of the slope `num · d^-1`, or the error of `inv`. -/
def slopePoint (d num x1 y1 x2 p : Nat) : Except ErrKind Point :=
  (inv d p).map fun di => slopeResult (num * di % p) x1 y1 x2 p

/-- `padd` on two affine operands that are no inverse pair, the tangent and the chord alike. -/
theorem padd_eq_slopePoint {x1 y1 x2 y2 a p d num : Nat} (hpair : ¬ (x1 = x2 ∧ (y1 + y2) % p = 0))
    (htangent : x1 = x2 ∧ y1 = y2 → d = 2 * y1 % p ∧ num = (3 * x1 * x1 + a) % p)
    (hchord : ¬ (x1 = x2 ∧ y1 = y2) → (d : Int) = ((x2 : Int) - x1) % p ∧ (num : Int) = ((y2 : Int) - y1) % p) :
    padd (.aff x1 y1) (.aff x2 y2) a p = slopePoint d num x1 y1 x2 p := by
  by_cases heq : x1 = x2 ∧ y1 = y2
  · obtain ⟨rfl, rfl⟩ := htangent heq
    obtain ⟨rfl, rfl⟩ := heq
    exact padd_double a fun h => hpair ⟨rfl, by rwa [← two_mul]⟩
  · obtain ⟨hd, hnum⟩ := hchord heq
    rw [padd_distinct a hpair heq, floorMod_eq_of_natCast_eq hd, floorMod_eq_of_natCast_eq hnum]
    rfl

theorem slopePoint_of_gcd_ne_one {d p : Nat} (num x1 y1 x2 : Nat) (hp : 2 ≤ p) (h : Nat.gcd d p ≠ 1) :
    slopePoint d num x1 y1 x2 p = .error .notInvertible := by
  rw [slopePoint, (inv_eq_error_iff hp).2 ⟨rfl, h⟩]
  rfl

/-- Any inverse of the denominator gives the slope, reduced or not. -/
theorem slopePoint_of_inverse {d di num lam x1 y1 x2 x3 y3 p : Nat} (hp : 2 ≤ p) (hdi : d * di % p = 1)
    (hlam : lam = num * di % p) (hx3 : (x3 : Int) = ((lam : Int) * lam - x1 - x2) % p)
    (hy3 : (y3 : Int) = ((lam : Int) * ((x1 : Int) - x3) - y1) % p) :
    slopePoint d num x1 y1 x2 p = .ok (.aff x3 y3) := by
  have hinv : inv d p = .ok (di % p) := (inv_eq_ok_iff hp).2 ⟨Nat.mod_lt _ (by omega), by rwa [Nat.mul_mod_mod]⟩
  rw [slopePoint, hinv, Except.map, Nat.mul_mod_mod, ← hlam, slopeResult, floorMod_eq_of_natCast_eq hx3,
    floorMod_eq_of_natCast_eq hy3]

/-! ## PADD (42_point_group.md R125) -/

/-- Settles O30: `padd` on the operands by their tags; without tags, an inverse pair, and else `slopePoint`. -/
theorem paddFollowsTheCases : Obligations.PaddFollowsTheCases := by
  refine ⟨fun s => exec_small, ?_⟩
  rintro s _ x1 y1 x2 y2 rfl hp hx1 hy1 hx2 hy2
  have hleft (h : s.p1.t = false) : rdpoint s.p1 s.p.toNat = .aff x1 y1 := by rw [rdpoint_of_affine h, hx1, hy1]
  have hright (h : s.p2.t = false) : rdpoint s.p2 s.p.toNat = .aff x2 y2 := by rw [rdpoint_of_affine h, hx2, hy2]
  refine ⟨fun h1 h2 => ?_, fun h1 h2 => ?_, fun h1 h2 => ?_, fun h1 h2 hx hy => ?_,
    fun h1 h2 hpair d num htan hchord => ?_⟩
  · exact exec_padd_of_operands hp (rdpoint_of_tag h1 _) (rdpoint_of_tag h2 _) (padd_inf_left ..)
  · exact exec_padd_of_operands hp (rdpoint_of_tag h1 _) (hright h2) (padd_inf_left ..)
  · exact exec_padd_of_operands hp (hleft h1) (rdpoint_of_tag h2 _) (padd_inf_right ..)
  · exact exec_padd_of_operands hp (hleft h1) (hright h2) (by rw [hx, padd_inverse _ hy])
  · have hexec := exec_padd_of_operands hp (hleft h1) (hright h2) (padd_eq_slopePoint hpair htan hchord)
    refine ⟨fun hgcd => ?_, fun di lam x3 y3 hdi hlam hx3 hy3 => ?_⟩
    · rw [hexec, slopePoint_of_gcd_ne_one _ _ _ _ hp hgcd]
      rfl
    · rw [hexec, slopePoint_of_inverse hp hdi hlam hx3 hy3]
      rfl

/-! ### The first law of 42_point_group.md R132: swapped operands -/

theorem inv_eq_ok_iff_zmod {d p x : Nat} (hp : 2 ≤ p) : inv d p = .ok x ↔ x < p ∧ (d : ZMod p) * x = 1 := by
  have h := ZMod.natCast_eq_natCast_iff' (d * x) 1 p
  rw [Nat.cast_mul, Nat.cast_one, Nat.mod_eq_of_lt (a := 1) hp] at h
  rw [inv_eq_ok_iff hp, h]

theorem floorMod_congr_zmod {m n : Int} {p : Nat} (h : (m : ZMod p) = n) : floorMod m p = floorMod n p :=
  floorMod_congr ((ZMod.intCast_eq_intCast_iff' m n p).1 h)

/-- The inverse of the opposite is the opposite of the inverse. -/
theorem inv_of_add_eq_zero {d d' di p : Nat} (hp : 2 ≤ p) (hd : (d : ZMod p) + d' = 0) (h : inv d p = .ok di) :
    inv d' p = .ok (p - di) := by
  obtain ⟨hlt, hdi⟩ := (inv_eq_ok_iff_zmod hp).1 h
  have hpos : di ≠ 0 := by
    rintro rfl
    have := (inv_eq_ok_iff hp).1 h
    simp at this
  refine (inv_eq_ok_iff_zmod hp).2 ⟨by omega, ?_⟩
  rw [Nat.cast_sub hlt.le, ZMod.natCast_self]
  linear_combination hdi - di * hd

/-- The slope of a chord starts at either end: `λ(x1 − x2) = y1 − y2` makes the two ordinates one. -/
theorem slopeResult_swap {lam x1 y1 x2 y2 p : Nat} (h : (lam : ZMod p) * ((x1 : ZMod p) - x2) = (y1 : ZMod p) - y2) :
    slopeResult lam x1 y1 x2 p = slopeResult lam x2 y2 x1 p := by
  have hx : (lam : Int) * lam - x1 - x2 = (lam : Int) * lam - x2 - x1 := by ring
  have hy (x3 : Int) : floorMod ((lam : Int) * ((x1 : Int) - x3) - y1) p =
      floorMod ((lam : Int) * ((x2 : Int) - x3) - y2) p := by
    apply floorMod_congr_zmod
    push_cast
    linear_combination h
  rw [slopeResult, slopeResult, hx, hy]

/-- The point of a chord is the same from either end: numerator and denominator change sign together, and an inverse of the
one denominator gives one of the other. -/
theorem slopePoint_swap (x1 y1 x2 y2 : Nat) {p : Nat} (hp : 2 ≤ p) :
    slopePoint (floorMod ((x2 : Int) - x1) p) (floorMod ((y2 : Int) - y1) p) x1 y1 x2 p =
      slopePoint (floorMod ((x1 : Int) - x2) p) (floorMod ((y1 : Int) - y2) p) x2 y2 x1 p := by
  have hp0 : 0 < p := by omega
  have hopp : ((floorMod ((x2 : Int) - x1) p : Nat) : ZMod p) + (floorMod ((x1 : Int) - x2) p : Nat) = 0 := by
    rw [floorMod_zmod _ hp0, floorMod_zmod _ hp0]
    push_cast
    ring
  cases hd : inv (floorMod ((x2 : Int) - x1) p) p with
  | error e =>
    obtain ⟨rfl, hgcd⟩ := (inv_eq_error_iff hp).1 hd
    have hgcd' : Nat.gcd (floorMod ((x1 : Int) - x2) p) p ≠ 1 := fun h => by
      obtain ⟨di, hdi⟩ := (exists_inv_iff hp).2 h
      rw [inv_of_add_eq_zero hp (by rwa [add_comm]) hdi] at hd
      cases hd
    rw [slopePoint_of_gcd_ne_one _ _ _ _ hp hgcd, slopePoint_of_gcd_ne_one _ _ _ _ hp hgcd']
  | ok di =>
    obtain ⟨hlt, hdi⟩ := (inv_eq_ok_iff_zmod hp).1 hd
    rw [floorMod_zmod _ hp0] at hdi
    push_cast at hdi
    have hlam : floorMod ((y1 : Int) - y2) p * (p - di) % p = floorMod ((y2 : Int) - y1) p * di % p := by
      refine (ZMod.natCast_eq_natCast_iff' _ _ p).1 ?_
      rw [Nat.cast_mul, Nat.cast_mul, floorMod_zmod _ hp0, floorMod_zmod _ hp0, Nat.cast_sub hlt.le, ZMod.natCast_self]
      push_cast
      ring
    rw [slopePoint, slopePoint, hd, inv_of_add_eq_zero hp hopp hd, Except.map, Except.map, hlam]
    refine congrArg Except.ok (slopeResult_swap ?_)
    rw [ZMod.natCast_mod, Nat.cast_mul, floorMod_zmod _ hp0]
    push_cast
    linear_combination ((y1 : ZMod p) - y2) * hdi

/-- Addition is commutative, values and errors alike (42_point_group.md R132). -/
theorem padd_comm (P Q : Point) (a : Nat) {p : Nat} (hp : 2 ≤ p) : padd P Q a p = padd Q P a p := by
  cases P with
  | inf => rw [padd_inf_left, padd_inf_right]
  | aff x1 y1 =>
    cases Q with
    | inf => rw [padd_inf_left, padd_inf_right]
    | aff x2 y2 =>
      by_cases hpair : x1 = x2 ∧ (y1 + y2) % p = 0
      · obtain ⟨rfl, hy⟩ := hpair
        rw [padd_inverse a hy, padd_inverse a (by rwa [Nat.add_comm])]
      · by_cases heq : x1 = x2 ∧ y1 = y2
        · obtain ⟨rfl, rfl⟩ := heq
          rfl
        · have hpair' : ¬ (x2 = x1 ∧ (y2 + y1) % p = 0) := by rwa [eq_comm, Nat.add_comm]
          have heq' : ¬ (x2 = x1 ∧ y2 = y1) := by rwa [eq_comm (a := x2), eq_comm (a := y2)]
          rw [padd_distinct a hpair heq, padd_distinct a hpair' heq']
          exact slopePoint_swap x1 y1 x2 y2 hp

/-- The end of a point command leaves the operand points where they are. -/
theorem pointEnd_operands (w : Word) (s : State) (q1 q2 : PointReg) (r : Except ErrKind Point) :
    pointEnd w { s with p1 := q1, p2 := q2 } r = { pointEnd w s r with p1 := q1, p2 := q2 } := by
  cases r <;> rfl

/-- Settles O31: both commands end with the one value of `padd`. -/
theorem paddIsCommutative : Obligations.PaddIsCommutative := by
  intro s
  rcases lt_or_ge s.p.toNat 2 with hp | hp
  · exact ⟨_, exec_small hp, exec_small (s := { s with p1 := s.p2, p2 := s.p1 }) hp⟩
  · refine ⟨_, exec_padd_eq hp, ?_⟩
    rw [exec_padd_eq (s := { s with p1 := s.p2, p2 := s.p1 }) hp, pointEnd_operands, padd_comm _ _ _ hp]

/-! ### The fifth law of 42_point_group.md R132: the sum with the negation -/

/-- Settles O32: the negation that PNEG leaves in R1 reads back from P2, and adds up with P1 to the identity. -/
theorem paddOfNegationIsIdentity : Obligations.PaddOfNegationIsIdentity := by
  intro s t hp h
  rw [exec_pneg_eq hp] at h
  obtain rfl := Host.Outcome.next.inj h
  have hP := operand_reduced hp s.p1
  have hneg := pneg_reduced (by omega) hP
  exact exec_padd_of_operands (r := .ok .inf) hp rfl (rdpoint_wrpoint s.p.isLt.le hneg) (padd_pneg hP)

/-! ## PDBL (42_point_group.md R124, R126) -/

/-- Settles O33: `pdbl` is `padd` of a point with itself. -/
theorem pdblIsPaddOfEqualOperands : Obligations.PdblIsPaddOfEqualOperands := by
  intro s
  rcases lt_or_ge s.p.toNat 2 with hp | hp
  · exact ⟨_, exec_small (s := { s with p2 := s.p1 }) hp, exec_small hp⟩
  · refine ⟨_, exec_padd_eq (s := { s with p2 := s.p1 }) hp, ?_⟩
    rw [exec_pdbl_eq hp, pdbl_eq_padd]
    cases padd (rdpoint s.p1 s.p.toNat) (rdpoint s.p1 s.p.toNat) s.a.toNat s.p.toNat <;> rfl

theorem pdbl_of_vertical {x y p : Nat} (a : Nat) (h : 2 * y % p = 0) : pdbl (.aff x y) a p = .ok .inf := if_pos h

theorem pdbl_eq_slopePoint {x y p : Nat} (a : Nat) (h : 2 * y % p ≠ 0) :
    pdbl (.aff x y) a p = slopePoint (2 * y % p) ((3 * x * x + a) % p) x y x p := by
  rw [pdbl_eq_padd, padd_double a h]
  rfl

/-- Modulo a prime a doubling never fails (42_point_group.md R126). -/
theorem exists_pdbl_of_prime (P : Point) (a : Nat) {p : Nat} (hp : p.Prime) : ∃ R, pdbl P a p = .ok R := by
  cases P with
  | inf => exact ⟨.inf, rfl⟩
  | aff x y =>
    by_cases hv : 2 * y % p = 0
    · exact ⟨.inf, pdbl_of_vertical a hv⟩
    · obtain ⟨di, hdi⟩ := exists_inv_of_prime hp (a := 2 * y % p) (by rwa [Nat.mod_mod])
      exact ⟨_, by rw [pdbl_eq_slopePoint a hv, slopePoint, hdi]; rfl⟩

/-- Settles O34: `pdbl` on an identity, on a vertical tangent, and else `slopePoint`. -/
theorem pdblFollowsTheCases : Obligations.PdblFollowsTheCases := by
  refine ⟨fun s => exec_small, ?_⟩
  rintro s _ x1 y1 rfl hp hx1 hy1
  have hoperand (h : s.p1.t = false) : rdpoint s.p1 s.p.toNat = .aff x1 y1 := by rw [rdpoint_of_affine h, hx1, hy1]
  refine ⟨fun h => ?_, fun ht hv hgcd => ?_, fun di lam x3 y3 ht hv hdi hlam hx3 hy3 => ?_, fun hprime => ?_⟩
  · cases ht : s.p1.t with
    | true => exact exec_pdbl_of_operand hp (rdpoint_of_tag ht _) rfl
    | false => exact exec_pdbl_of_operand hp (hoperand ht) (pdbl_of_vertical _ (h.resolve_left (by simp [ht])))
  · rw [exec_pdbl_of_operand hp (hoperand ht) (pdbl_eq_slopePoint _ hv), slopePoint_of_gcd_ne_one _ _ _ _ hp hgcd]
    rfl
  · rw [exec_pdbl_of_operand hp (hoperand ht) (pdbl_eq_slopePoint _ hv),
      slopePoint_of_inverse hp hdi hlam (by rw [hx3, two_mul, sub_sub]) hy3]
    rfl
  · obtain ⟨R, hR⟩ := exists_pdbl_of_prime (rdpoint s.p1 s.p.toNat) s.a.toNat hprime
    exact ⟨wrpoint R, exec_pdbl_of_operand hp rfl hR⟩

/-! ## SMUL (42_point_group.md R127, R128) -/

theorem addIfOdd_of_odd {n : Nat} (h : n % 2 = 1) (R Q : Point) (a p : Nat) : addIfOdd n R Q a p = padd R Q a p := if_pos h

theorem addIfOdd_of_even {n : Nat} (h : n % 2 = 0) (R Q : Point) (a p : Nat) : addIfOdd n R Q a p = .ok R :=
  if_neg (by omega)

/-- One turn of the loop, after its addition, when bits are left (42_point_group.md R127). -/
theorem smulLoop_next {a p fuel n : Nat} {R Q R' : Point} (hadd : addIfOdd n R Q a p = .ok R') (hn : n / 2 ≠ 0) :
    smulLoop a p (fuel + 1) n R Q = pdbl Q a p >>= smulLoop a p fuel (n / 2) R' := by
  simp only [smulLoop, hadd, bind, Except.bind, hn, if_false]

/-- The last turn of the loop (42_point_group.md R127). -/
theorem smulLoop_last {a p fuel n : Nat} {R Q : Point} (hn : n / 2 = 0) :
    smulLoop a p (fuel + 1) n R Q = addIfOdd n R Q a p := by
  simp only [smulLoop, hn, if_true]
  exact bind_pure _

/-- The error of a turn's addition ends the loop (42_point_group.md R127). -/
theorem smulLoop_addFails {a p fuel n : Nat} {R Q : Point} {e : ErrKind} (hadd : addIfOdd n R Q a p = .error e) :
    smulLoop a p (fuel + 1) n R Q = .error e := by
  rw [smulLoop, hadd]
  rfl

/-- The loop on a positive scalar, with a bound that it cannot exceed, is a trace of the rule (42_point_group.md R127). -/
theorem smulTrace_smulLoop (a p : Nat) {fuel n : Nat} (R Q : Point) (hn : n ≠ 0) (hf : n ≤ fuel) :
    SmulTrace a p n R Q (smulLoop a p fuel n R Q) := by
  induction fuel generalizing n R Q with
  | zero => omega
  | succ fuel ih =>
    rcases Nat.mod_two_eq_zero_or_one n with heven | hodd
    · have hadd := addIfOdd_of_even heven R Q a p
      have hrest : n / 2 ≠ 0 := by omega
      rw [smulLoop_next hadd hrest]
      cases hdbl : pdbl Q a p with
      | error e => exact .evenDoubleFails heven hrest hdbl
      | ok Q' => exact .evenNext heven hrest hdbl (ih R Q' hrest (by omega))
    · have hadd := addIfOdd_of_odd hodd R Q a p
      cases hsum : padd R Q a p with
      | error e =>
        rw [smulLoop_addFails (hadd.trans hsum)]
        exact .addFails hodd hsum
      | ok R' =>
        by_cases hrest : n / 2 = 0
        · rw [smulLoop_last hrest, hadd, hsum]
          exact .lastOdd hodd hsum hrest
        · rw [smulLoop_next (hadd.trans hsum) hrest]
          cases hdbl : pdbl Q a p with
          | error e => exact .oddDoubleFails hodd hsum hrest hdbl
          | ok Q' => exact .oddNext hodd hsum hrest hdbl (ih R' Q' hrest (by omega))

/-- Settles O36: `smul` on a positive scalar and an affine operand is the loop, whose only error is `NotInvertible`. -/
theorem smulRunsDoubleAndAdd : Obligations.SmulRunsDoubleAndAdd := by
  intro s x y hp hx hy
  refine ⟨fun h => ?_, fun hk ht => ?_⟩
  · rcases h with hk | ht
    · exact exec_smul_of_operand hp rfl (congrArg BitVec.toNat hk) (smul_zero ..)
    · exact exec_smul_of_operand hp (rdpoint_of_tag ht _) rfl (smul_inf ..)
  · have hk0 : s.k1.toNat ≠ 0 := fun h => hk (BitVec.eq_of_toNat_eq h)
    have hloop : smul (.aff x y) s.k1.toNat s.a.toNat s.p.toNat =
        smulLoop s.a.toNat s.p.toNat s.k1.toNat s.k1.toNat .inf (.aff x y) := if_neg (by simp [hk0])
    refine ⟨_, hloop ▸ smulTrace_smulLoop _ _ .inf (.aff x y) hk0 le_rfl, ?_⟩
    rw [exec_smul_of_operand hp (hx ▸ hy ▸ rdpoint_of_affine ht _) rfl rfl]
    rcases smul_spec (.aff x y) s.k1.toNat s.a.toNat hp with ⟨S, hS, -⟩ | herr
    · rw [hS]
      rfl
    · rw [herr]
      rfl

theorem smul_two (P : Point) (a p : Nat) : smul P 2 a p = pdbl P a p := by
  cases P with
  | inf => rfl
  | aff x y =>
    have hlast (Q : Point) : smulLoop a p 1 (2 / 2) .inf Q = .ok Q := by
      rw [smulLoop_last rfl, addIfOdd_of_odd rfl, padd_inf_left]
    rw [smul, if_neg (by simp), smulLoop_next (addIfOdd_of_even rfl ..) (by decide), funext hlast]
    exact bind_pure _

/-- Settles O35: by 1 the loop adds the operand to the identity, and by 2 it doubles first. -/
theorem smulByOneAndTwo : Obligations.SmulByOneAndTwo := by
  intro s hp
  refine ⟨fun hk ht => ?_, fun hk => ⟨_, exec_pdbl_eq hp, ?_⟩⟩
  · exact exec_smul_of_operand hp (rdpoint_of_affine ht _) (congrArg BitVec.toNat hk) (smul_one ..)
  · rw [exec_smul_of_operand hp rfl (congrArg BitVec.toNat hk) (smul_two ..)]
    cases pdbl (rdpoint s.p1 s.p.toNat) s.a.toNat s.p.toNat <;> rfl

/-! ## On the contract of 42_point_group.md R130 -/

/-- Settles O37: `smul` and repeated addition both stand for the multiple in the group of the curve. -/
theorem smulIsRepeatedAddition : Obligations.SmulIsRepeatedAddition := by
  intro s hc hP
  have := Fact.mk hc.1
  obtain ⟨V, hV⟩ := exists_standsFor hc hP
  obtain ⟨S, hmul, hS⟩ := hV.smul s.k1.toNat
  obtain ⟨T, htimes, hT⟩ := hV.timesPoint s.k1.toNat
  obtain rfl := hS.inj hT
  exact ⟨S, htimes, hS.onCurve, exec_smul_of_operand hc.1.two_le rfl rfl hmul⟩

/-- On-contract SMUL succeeds with a point that stands for the multiple in the group of the curve
(42_point_group.md R131). -/
theorem exec_smul_standsFor {s : State} [hp : Fact s.p.toNat.Prime]
    {V : (blockCurve s.a.toNat s.b.toNat s.p.toNat).Point} (hV : StandsFor (rdpoint s.p1 s.p.toNat) V) (k : Word) :
    ∃ S, StandsFor S (k.toNat • V) ∧
      exec .smul { s with k1 := k } = .next (State.succeeded 0x00000005#32 { r1 := wrpoint S } { s with k1 := k }) := by
  obtain ⟨S, hmul, hS⟩ := hV.smul k.toNat
  exact ⟨S, hS, exec_smul_of_operand (s := { s with k1 := k }) hp.out.two_le rfl rfl hmul⟩

/-- Settles O38: the three results stand for multiples by `j`, by `k` and by `j + k` in the group of the curve. -/
theorem smulDistributesOverAddition : Obligations.SmulDistributesOverAddition := by
  intro s tj tk j k hc hP hjk hj hk
  have := Fact.mk hc.1
  obtain ⟨V, hV⟩ := exists_standsFor hc hP
  obtain ⟨Sj, hSj, hexj⟩ := exec_smul_standsFor hV j
  obtain ⟨Sk, hSk, hexk⟩ := exec_smul_standsFor hV k
  obtain ⟨S, hS, hex⟩ := exec_smul_standsFor hV (j + k)
  obtain rfl := Host.Outcome.next.inj (hj.symm.trans hexj)
  obtain rfl := Host.Outcome.next.inj (hk.symm.trans hexk)
  obtain ⟨R, hadd, hR⟩ := hSj.padd hSk
  rw [BitVec.toNat_add_of_lt hjk, add_nsmul] at hS
  obtain rfl := hR.inj hS
  have hp := s.p.isLt.le
  exact ⟨_, _, hex, exec_padd_of_operands (s := { s with p1 := wrpoint Sj, p2 := wrpoint Sk }) hc.1.two_le
    (rdpoint_wrpoint hp hSj.reduced) (rdpoint_wrpoint hp hSk.reduced) hadd, rfl, rfl, rfl⟩

end Sys2Proof.Machine

namespace Sys2Proof.Machine

/-! ## The capacity bound (43_message_codec.md R150) -/

/-- Settles O39: 0 by computation, and every message by the invariant of the doubling loop. -/
theorem capacityIsTheLeastPowerOfTwo : Obligations.CapacityIsTheLeastPowerOfTwo :=
  ⟨rfl, npo2_spec⟩

theorem npo2_of_le_one {m : Nat} (h : m ≤ 1) : npo2 m = 1 := by
  interval_cases m <;> rfl

/-! ## ENCODE and EGENC, by what the encoding answers (43_message_codec.md R154, 44_key_agreement_cipher.md R168) -/

theorem exec_encode_of_ok {s t : State} {en : Encoded} (hp : 2 ≤ s.p.toNat) (h : encodeMessage s = (t, .ok en)) :
    exec .encode s = .next (t.succeeded 0x00000006#32 (encodeResults en)) := by
  rw [exec_large .encode hp, bodyOf_encode_eq, h]
  rfl

/-- An encoding that fails ends both commands, EGENC before it looks at its base point (60_exceptions.md R193). -/
theorem exec_of_encodeMessage_error {s t : State} {e : ErrKind} (hp : 2 ≤ s.p.toNat)
    (h : encodeMessage s = (t, .error e)) :
    exec .encode s = .next (t.failed 0x00000006#32 e.code) ∧ exec .egenc s = .next (t.failed 0x00000008#32 e.code) := by
  rw [exec_large .encode hp, exec_large .egenc hp, bodyOf_encode_eq, bodyOf_egenc_eq, h]
  exact ⟨rfl, rfl⟩

/-! ## The size test (43_message_codec.md R152) -/

theorem encodeMessage_of_tooLarge {s : State} (h : s.p.toNat < npo2 s.msg.toNat) :
    encodeMessage s = (s, .error .messageTooLarge) := by
  rw [encodeMessage_eq, if_pos h]

/-- Past the size test no part of the encoding raises MessageTooLarge (60_exceptions.md R200). -/
theorem encodeMessage_ne_messageTooLarge {s : State} (h : npo2 s.msg.toNat ≤ s.p.toNat) :
    (encodeMessage s).2 ≠ .error .messageTooLarge := by
  intro herr
  rw [encodeMessage_eq, if_neg (Nat.not_lt.2 h)] at herr
  rcases bind_eq_error herr with herr | ⟨_, -, herr⟩
  · exact absurd (raises_ensurePS s _ herr) (by simp)
  · exact absurd (raises_encodeOnSet _ _ herr) (by simp)

theorem bodyOf_encode_ne_messageTooLarge {s : State} (h : npo2 s.msg.toNat ≤ s.p.toNat) :
    (bodyOf .encode s).2 ≠ .error .messageTooLarge := by
  intro herr
  rw [bodyOf_encode_answer] at herr
  rcases bind_eq_error herr with herr | ⟨_, -, herr⟩
  · exact encodeMessage_ne_messageTooLarge h herr
  · cases herr

theorem bodyOf_egenc_ne_messageTooLarge {s : State} (hp : 2 ≤ s.p.toNat) (h : npo2 s.msg.toNat ≤ s.p.toNat) :
    (bodyOf .egenc s).2 ≠ .error .messageTooLarge := by
  intro herr
  rw [bodyOf_egenc_answer] at herr
  rcases bind_eq_error herr with herr | ⟨en, -, herr⟩
  · exact encodeMessage_ne_messageTooLarge h herr
  · exact absurd (raises_egencOnSet en ((sameButMemo_encodeMessage s).p_eq ▸ hp) _ herr) (by simp)

/-- Every error has its own code in ERRCODE, and none has code 0 (60_exceptions.md R185). -/
theorem ErrKind.errCode_injective {e e' : ErrKind} (h : BitVec.ofNat 4 e.code = BitVec.ofNat 4 e'.code) : e = e' := by
  revert h
  cases e <;> cases e' <;> decide

theorem ErrKind.errCode_ne_zero (e : ErrKind) : BitVec.ofNat 4 e.code ≠ 0#4 := by
  cases e <;> decide

/-- ERRCODE tells the error that a body raised (60_exceptions.md R185, R192). -/
theorem error_of_commandEnd_errCode {i : Instr} {q : State × Except ErrKind Results} {e : ErrKind}
    (h : (commandEnd i q).status.errCode = BitVec.ofNat 4 e.code) : q.2 = .error e := by
  obtain ⟨t, r⟩ := q
  cases r with
  | ok r => exact absurd h.symm e.errCode_ne_zero
  | error e' => exact congrArg _ (ErrKind.errCode_injective h)

/-- A command whose body does not raise MessageTooLarge does not end with its code. -/
theorem exec_errCode_ne_four {i : Instr} {s t : State} (hp : 2 ≤ s.p.toNat)
    (hbody : (bodyOf i s).2 ≠ .error .messageTooLarge) (h : exec i s = .next t) : t.status.errCode ≠ 4#4 := by
  rw [exec_large i hp] at h
  obtain rfl := Host.Outcome.next.inj h
  exact fun hcode => hbody (error_of_commandEnd_errCode (e := .messageTooLarge) hcode)

/-- Settles O41: the size test comes first and raises on the state as it is; nothing after it raises MessageTooLarge. -/
theorem messageTooLargeExactlyAboveP : Obligations.MessageTooLargeExactlyAboveP := by
  intro s cap hp hcap
  obtain rfl := hcap.eq_npo2
  refine ⟨fun hlt => exec_of_encodeMessage_error hp (encodeMessage_of_tooLarge hlt), fun hle t h => ?_⟩
  rcases h with h | h
  · exact exec_errCode_ne_four hp (bodyOf_encode_ne_messageTooLarge hle) h
  · exact exec_errCode_ne_four hp (bodyOf_egenc_ne_messageTooLarge hp hle) h

/-! ## The search (43_message_codec.md R151, R153) -/

/-- The number `h` of candidates (43_message_codec.md R151). -/
def State.candidates (s : State) : Nat := s.p.toNat / npo2 s.msg.toNat

/-- The abscissa tried at offset `j` (43_message_codec.md R153). -/
def State.candidate (s : State) (j : Nat) : Nat := (s.msg.toNat * s.candidates + j) % s.p.toNat

/-- `(x, y)` is on the state's own curve (41_point_enumerator.md R110). -/
def State.Carries (s : State) (x y : Nat) : Prop := OnCurve s.a.toNat s.b.toNat s.p.toNat x y

/-- The search ends at offset `j`, with the point `(x, y)` (43_message_codec.md R153). -/
structure FirstCandidate (s : State) (j x y : Nat) : Prop where
  offset_lt : j < s.candidates
  abscissa : x = s.candidate j
  carries : s.Carries x y
  least : ∀ y', y' < y → ¬ s.Carries x y'
  first : ∀ j' y', j' < j → ¬ s.Carries (s.candidate j') y'

/-- What is encoded when the search ends at offset `j` with `(x, y)` (43_message_codec.md R154). -/
def State.encodedAt (s : State) (j x y : Nat) : Encoded :=
  { qm := .aff x y, cap := npo2 s.msg.toNat, h := s.candidates, j := j }

/-- The search ends in one way only. -/
theorem FirstCandidate.unique {s : State} {j x y j' x' y' : Nat} (h : FirstCandidate s j x y)
    (h' : FirstCandidate s j' x' y') : j = j' ∧ x = x' ∧ y = y' := by
  have hx := h.carries
  have hx' := h'.carries
  rw [h.abscissa] at hx
  rw [h'.abscissa] at hx'
  obtain rfl : j = j' := by
    rcases Nat.lt_trichotomy j j' with hlt | heq | hlt
    · exact absurd hx (h'.first j y hlt)
    · exact heq
    · exact absurd hx' (h.first j' y' hlt)
  obtain rfl : x = x' := h.abscissa.trans h'.abscissa.symm
  refine ⟨rfl, rfl, ?_⟩
  rcases Nat.lt_trichotomy y y' with hlt | heq | hlt
  · exact absurd h.carries (h'.least y hlt)
  · exact heq
  · exact absurd h'.carries (h.least y' hlt)

theorem memoEnsured_ensurePS {s : State} (hs : MemoInv s) (ha : PointSetAvailable s) :
    MemoEnsured s (ensurePS s).1 := by
  obtain ⟨t, ht, hens⟩ := ensurePS_of_available hs ha
  rw [ht]
  exact hens

section
variable {s : State} (hw : s.cfg.wf = true) (hs : MemoInv s) (ha : PointSetAvailable s)
  (hm : npo2 s.msg.toNat ≤ s.p.toNat)
include hw hs ha hm

/-- With a point set and past the size test the encoding is the outcome of the search (43_message_codec.md R153, R154). -/
theorem encodeMessage_of_available :
    (∀ j y, j < s.candidates → ¬ s.Carries (s.candidate j) y) ∧
        encodeMessage s = ((ensurePS s).1, .error .messageNotEncodable) ∨
      ∃ j x y, FirstCandidate s j x y ∧ encodeMessage s = ((ensurePS s).1, .ok (s.encodedAt j x y)) := by
  have hb := ha.bounds hs
  rcases encodeMessage_spec hw hs with ⟨hlt, -⟩ | ⟨-, -, hover, -⟩ | ⟨-, -, hempty, -⟩ | ⟨-, -, -, hsearch⟩
  · omega
  · omega
  · omega
  · rcases hsearch with hnone | ⟨j, x, y, hj, hx, hy, hleast, hfirst, hen⟩
    · exact .inl hnone
    · exact .inr ⟨j, x, y, ⟨hj, hx, hy, hleast, hfirst⟩, hen⟩

theorem encodeMessage_of_firstCandidate {j x y : Nat} (h : FirstCandidate s j x y) :
    encodeMessage s = ((ensurePS s).1, .ok (s.encodedAt j x y)) := by
  rcases encodeMessage_of_available hw hs ha hm with ⟨hnone, -⟩ | ⟨j', x', y', h', hen⟩
  · exact absurd (h.abscissa ▸ h.carries) (hnone j y h.offset_lt)
  · obtain ⟨rfl, rfl, rfl⟩ := h.unique h'
    exact hen

theorem encodeMessage_of_no_candidate (h : ∀ j y, j < s.candidates → ¬ s.Carries (s.candidate j) y) :
    encodeMessage s = ((ensurePS s).1, .error .messageNotEncodable) := by
  rcases encodeMessage_of_available hw hs ha hm with ⟨-, hen⟩ | ⟨j, x, y, hfound, -⟩
  · exact hen
  · exact absurd (hfound.abscissa ▸ hfound.carries) (h j y hfound.offset_lt)

end

/-- Settles O40: the premises name the one way in which the search can end. -/
theorem encodeFindsTheFirstOffset : Obligations.EncodeFindsTheFirstOffset := by
  intro s cap h j x y hw hs ha hp hcap hle hh hj hx hy hleast hfirst
  obtain rfl := hcap.eq_npo2
  subst hh
  have hfound : FirstCandidate s j x y := ⟨hj, hx, hy, hleast, hfirst⟩
  exact ⟨_, memoEnsured_ensurePS hs ha, exec_encode_of_ok hp (encodeMessage_of_firstCandidate hw hs ha hle hfound)⟩

/-- Settles O42: the search ends without a point, and its error is that of both commands. -/
theorem messageNotEncodableAfterTheSearch : Obligations.MessageNotEncodableAfterTheSearch := by
  intro s cap h hw hs ha hp hcap hle hh hnone
  obtain rfl := hcap.eq_npo2
  subst hh
  exact ⟨_, memoEnsured_ensurePS hs ha,
    exec_of_encodeMessage_error hp (encodeMessage_of_no_candidate hw hs ha hle hnone)⟩

/-! ## Messages 0 and 1 (43_message_codec.md R155) -/

/-- `enumerate` does not look at the message. -/
theorem enumerate_msg (s : State) (w : Word) :
    enumerate { s with msg := w } = ({ (enumerate s).1 with msg := w }, (enumerate s).2) := by
  unfold enumerate
  simp only
  split
  · rfl
  · split <;> rfl

/-- `ensurePS` does not look at the message. -/
theorem ensurePS_msg (s : State) (w : Word) :
    ensurePS { s with msg := w } = ({ (ensurePS s).1 with msg := w }, (ensurePS s).2) := by
  cases hv : s.status.psValid with
  | true => rw [ensurePS_of_valid hv, ensurePS_of_valid (s := { s with msg := w }) hv]
  | false => rw [ensurePS_of_invalid hv, ensurePS_of_invalid (s := { s with msg := w }) hv, enumerate_msg]

section
variable {s : State} (hm : s.msg.toNat ≤ 1)
include hm

/-- Every residue is a candidate of messages 0 and 1. -/
theorem candidates_of_le_one : s.candidates = s.p.toNat := by
  rw [State.candidates, npo2_of_le_one hm, Nat.div_one]

/-- The candidates of messages 0 and 1 are the residues in order: `m · h` is a multiple of the modulus. -/
theorem candidate_of_le_one (j : Nat) : s.candidate j = j % s.p.toNat := by
  rw [State.candidate, candidates_of_le_one hm, Nat.mul_add_mod_self_right]

/-- Messages 0 and 1 always find a point: the abscissa of any point is a candidate. -/
theorem exists_firstCandidate_of_le_one (hw : s.cfg.wf = true) (hs : MemoInv s) (ha : PointSetAvailable s)
    (hp : 2 ≤ s.p.toNat) : ∃ j x y, FirstCandidate s j x y := by
  have hcap : npo2 s.msg.toNat ≤ s.p.toNat := by rw [npo2_of_le_one hm]; omega
  rcases encodeMessage_of_available hw hs ha hcap with ⟨hnone, -⟩ | ⟨j, x, y, hfound, -⟩
  · obtain ⟨⟨x, y⟩, hmem⟩ := List.exists_mem_of_length_pos (ha.bounds hs).1
    have hon : s.Carries x y := mem_enumPoints.1 hmem
    have hx : x < s.p.toNat := hon.1
    have hnot := hnone x y (by rwa [candidates_of_le_one hm])
    rw [candidate_of_le_one hm, Nat.mod_eq_of_lt hx] at hnot
    exact absurd hon hnot
  · exact ⟨j, x, y, hfound⟩

theorem encodedAt_of_le_one (j x y : Nat) :
    s.encodedAt j x y = { qm := .aff x y, cap := 1, h := s.p.toNat, j := j } := by
  rw [State.encodedAt, npo2_of_le_one hm, candidates_of_le_one hm]

end

section
variable {s : State} {w : Word} (hm : w.toNat ≤ 1) {j x y : Nat}
include hm

/-- The searches for messages 0 and 1 end alike. -/
theorem FirstCandidate.of_le_one {v : Word} (hv : v.toNat ≤ 1) (h : FirstCandidate { s with msg := v } j x y) :
    FirstCandidate { s with msg := w } j x y := by
  have hcandidates : State.candidates { s with msg := w } = State.candidates { s with msg := v } :=
    (candidates_of_le_one (s := { s with msg := w }) hm).trans
      (candidates_of_le_one (s := { s with msg := v }) hv).symm
  have hcandidate : State.candidate { s with msg := w } = State.candidate { s with msg := v } :=
    funext fun i => (candidate_of_le_one (s := { s with msg := w }) hm i).trans
      (candidate_of_le_one (s := { s with msg := v }) hv i).symm
  exact ⟨hcandidates ▸ h.offset_lt, hcandidate ▸ h.abscissa, h.carries, h.least, hcandidate ▸ h.first⟩

/-- ENCODE of message 0 or 1, from where its search ends: of the message only MSG itself is left to see. -/
theorem exec_encode_of_le_one (hw : s.cfg.wf = true) (hs : MemoInv s) (ha : PointSetAvailable s) (hp : 2 ≤ s.p.toNat)
    (h : FirstCandidate { s with msg := w } j x y) :
    exec .encode { s with msg := w } = .next { (ensurePS s).1.succeeded 0x00000006#32
      (encodeResults { qm := .aff x y, cap := 1, h := s.p.toNat, j := j }) with msg := w } := by
  have hcap : npo2 w.toNat ≤ s.p.toNat := by rw [npo2_of_le_one hm]; omega
  have hen := encodeMessage_of_firstCandidate (s := { s with msg := w }) hw hs ha hcap h
  rw [ensurePS_msg, encodedAt_of_le_one (s := { s with msg := w }) hm] at hen
  exact exec_encode_of_ok (s := { s with msg := w }) hp hen

end

/-- Settles O43: both messages try the residues in order, and a point set that is available is not empty. -/
theorem encodeOfZeroAndOne : Obligations.EncodeOfZeroAndOne := by
  intro s hw hs ha hp
  have h0 : (0#32).toNat ≤ 1 := by decide
  have h1 : (1#32).toNat ≤ 1 := by decide
  obtain ⟨j, x, y, h⟩ := exists_firstCandidate_of_le_one (s := { s with msg := 0#32 }) h0 hw hs ha hp
  exact ⟨_, rfl, exec_encode_of_le_one h0 hw hs ha hp h, exec_encode_of_le_one h1 hw hs ha hp (h.of_le_one h1 h0)⟩

end Sys2Proof.Machine

namespace Sys2Proof.Machine

/-! ## Computations that raise one error alone (60_exceptions.md R200) -/

theorem Raises.eq_of_error {α : Type} {r : Except ErrKind α} {e e' : ErrKind} (hr : Raises [e] r)
    (h : r = .error e') : e' = e :=
  List.mem_singleton.1 (hr e' h)

theorem Raises.eq_error {α : Type} {r : Except ErrKind α} {e : ErrKind} (hr : Raises [e] r) (h : ∀ x, r ≠ .ok x) :
    r = .error e := by
  cases r with
  | ok x => exact absurd rfl (h x)
  | error e' => exact congrArg _ (hr.eq_of_error rfl)

/-! ## What the answers of the group operations stand for, on the contract of 42_point_group.md R130 -/

section
variable {a b p k : Nat} [Fact p.Prime] {P Q S : Point} {V W : (blockCurve a b p).Point} (hP : StandsFor P V)
include hP

theorem StandsFor.of_padd_eq_ok (hQ : StandsFor Q W) (h : Machine.padd P Q a p = .ok S) : StandsFor S (V + W) := by
  obtain ⟨R, hR, hVR⟩ := hP.padd hQ
  exact Except.ok.inj (hR.symm.trans h) ▸ hVR

theorem StandsFor.of_smul_eq_ok (h : Machine.smul P k a p = .ok S) : StandsFor S (k • V) := by
  obtain ⟨R, hR, hVR⟩ := hP.smul k
  exact Except.ok.inj (hR.symm.trans h) ▸ hVR

/-- Repeated addition ends in the point that stands for the multiple. -/
theorem StandsFor.timesPoint_eq_ok (hS : StandsFor S (k • V)) : Machine.timesPoint a p P k = .ok S := by
  obtain ⟨R, hR, hVR⟩ := hP.timesPoint k
  rw [hR, hVR.inj hS]

end

/-! ## A command that succeeded (30_encoding.md R90, R95) -/

/-- A command that ended with DONE = 1 had P ≥ 2, and ended with the results of its body (30_encoding.md R90, R93). -/
theorem bodyOf_ok_of_done {i : Instr} {s t : State} (h : exec i s = .next t) (hd : t.status.done = true) :
    2 ≤ s.p.toNat ∧ ∃ r, (bodyOf i s).2 = .ok r ∧ t = (bodyOf i s).1.succeeded (encodeCommand i) r := by
  have hp := (exec_done h hd).1
  rw [exec_large i hp] at h
  obtain rfl := Host.Outcome.next.inj h
  refine ⟨hp, ?_⟩
  revert hd
  obtain ⟨u, r⟩ := bodyOf i s
  cases r with
  | error e => exact fun hd => by cases hd
  | ok r => exact fun _ => ⟨r, rfl, rfl⟩

/-! ## The base point (44_key_agreement_cipher.md R167) -/

/-- On a point set that was ensured exactly the affine points of the curve pass `checkBase`. -/
theorem checkBase_eq_ok_iff {s t : State} {G : Point} (hw : s.cfg.wf = true) (hs : MemoInv s) (ha : PointSetAvailable s)
    (ht : MemoEnsured s t) : checkBase t G = .ok () ↔ ∃ x y, G = .aff x y ∧ s.Carries x y := by
  cases G with
  | inf => simp [checkBase]
  | aff x y =>
    have hin : inPS t x y = true ↔ s.Carries x y := inPS_iff (ht.1.holds hw (ha.bounds hs).2) s.p.isLt.le x y
    simp [checkBase, hin]

/-! ## DHSS (44_key_agreement_cipher.md R165, R166) -/

/-- What DHSS makes of the four multiplications (44_key_agreement_cipher.md R166). -/
def secretResults (ag : Agreement) : Except ErrKind Results :=
  if ag.s1 = ag.s2 then .ok { r1 := wrpoint ag.s1, r2 := wrpoint ag.dAG, r3 := wrpoint ag.dBG, agree := true }
  else .error .secretMismatch

/-- DHSS ends with its results, or with SecretMismatch where the two derivations differ (44_key_agreement_cipher.md R166). -/
theorem commandEnd_secretResults (t : State) (ag : Agreement) :
    commandEnd .dhss (t, secretResults ag) = if ag.s1 = ag.s2
      then t.succeeded 0x00000007#32 { r1 := wrpoint ag.s1, r2 := wrpoint ag.dAG, r3 := wrpoint ag.dBG, agree := true }
      else t.failed 0x00000007#32 10 := by
  unfold secretResults
  split <;> rfl

theorem dhssOnSet_of_base {t : State} {G : Point} (hG : rdpoint t.p1 t.p.toNat = G) (hc : checkBase t G = .ok ()) :
    dhssOnSet t = dh G t.k1.toNat t.k2.toNat t.a.toNat t.p.toNat >>= secretResults := by
  rw [dhssOnSet, hG, hc]
  rfl

/-- DHSS on a base point of the curve: the multiplications, on the state with its memo ensured. -/
theorem exec_dhss_of_base {s : State} {x y : Nat} (hw : s.cfg.wf = true) (hs : MemoInv s) (ha : PointSetAvailable s)
    (hp : 2 ≤ s.p.toNat) (hG : rdpoint s.p1 s.p.toNat = .aff x y) (hon : s.Carries x y) :
    ∃ t, MemoEnsured s t ∧ exec .dhss s = .next (commandEnd .dhss
      (t, dh (.aff x y) s.k1.toNat s.k2.toNat s.a.toNat s.p.toNat >>= secretResults)) := by
  obtain ⟨t, hens, ht⟩ := ensurePS_of_available hs ha
  obtain ⟨hpt, hat, -, hp1, hk1, hk2, -, -⟩ := ht.fields
  have hset := dhssOnSet_of_base (by rw [hp1, hpt, hG]) ((checkBase_eq_ok_iff hw hs ha ht).2 ⟨x, y, rfl, hon⟩)
  rw [hk1, hk2, hat, hpt] at hset
  refine ⟨t, ht, ?_⟩
  rw [exec_large .dhss hp, bodyOf_dhss_eq, hens, ← hset]

/-- Settles O44: the four multiplications succeed, and the two derivations are compared. -/
theorem dhssWritesTheSecret : Obligations.DhssWritesTheSecret := by
  rintro s x y S1 S2 dAG dBG hw hs ha hp htag rfl rfl hon hA hB h1 h2
  obtain ⟨t, ht, hex⟩ := exec_dhss_of_base hw hs ha hp (rdpoint_of_affine htag _) hon
  refine ⟨t, ht, hex.trans ?_⟩
  rw [dh_eq_ok hA hB h1 h2]
  exact congrArg _ (commandEnd_secretResults t _)

/-- A `dh` that succeeded had all four multiplications succeed (44_key_agreement_cipher.md R165). -/
theorem smul_of_dh_eq_ok {G : Point} {dA dB a p : Nat} {ag : Agreement} (h : dh G dA dB a p = .ok ag) :
    smul G dA a p = .ok ag.dAG ∧ smul G dB a p = .ok ag.dBG ∧ smul ag.dBG dA a p = .ok ag.s1 ∧
      smul ag.dAG dB a p = .ok ag.s2 := by
  obtain ⟨dAG, hA, h⟩ := bind_eq_ok h
  obtain ⟨dBG, hB, h⟩ := bind_eq_ok h
  obtain ⟨S1, h1, h⟩ := bind_eq_ok h
  obtain ⟨S2, h2, h⟩ := bind_eq_ok h
  obtain rfl := Except.ok.inj h
  exact ⟨hA, hB, h1, h2⟩

/-- Settles O45: had `dh` succeeded, none of its multiplications would fail; so it raises its only error. -/
theorem dhssFailsWithItsMultiplications : Obligations.DhssFailsWithItsMultiplications := by
  rintro s x y e hw hs ha hp htag rfl rfl hon hfail
  obtain ⟨t, ht, hex⟩ := exec_dhss_of_base hw hs ha hp (rdpoint_of_affine htag _) hon
  refine ⟨t, ht, hex.trans ?_⟩
  rw [(raises_dh hp).eq_error fun ag hag => ?_]
  · rfl
  obtain ⟨hA, hB, h1, h2⟩ := smul_of_dh_eq_ok hag
  rcases hfail with h | h | ⟨dBG, hB', h⟩ | ⟨dAG, hA', h⟩
  · cases hA.symm.trans h
  · cases hB.symm.trans h
  · cases hB.symm.trans hB'
    cases h1.symm.trans h
  · cases hA.symm.trans hA'
    cases h2.symm.trans h

/-- Settles O48: each point stands for its multiple of the base point in the group of the curve, and so both derivations
stand for the multiple by `K1 · K2`. -/
theorem dhssAgreesOnContract : Obligations.DhssAgreesOnContract := by
  intro s hw hs ha hc htag hon
  have := Fact.mk hc.1
  obtain ⟨V, hV⟩ := exists_standsFor hc (P := .aff _ _) hon
  obtain ⟨dAG, hA, hVA⟩ := hV.smul s.k1.toNat
  obtain ⟨dBG, hB, hVB⟩ := hV.smul s.k2.toNat
  obtain ⟨S1, h1, hV1⟩ := hVB.smul s.k1.toNat
  obtain ⟨S2, h2, hV2⟩ := hVA.smul s.k2.toNat
  rw [← mul_nsmul'] at hV1
  rw [← mul_nsmul] at hV2
  obtain rfl := hV1.inj hV2
  obtain ⟨t, ht, hex⟩ := dhssWritesTheSecret s _ _ S1 S1 dAG dBG hw hs ha hc.1.two_le htag rfl rfl hon hA hB h1 h2
  rw [if_pos rfl] at hex
  rw [rdpoint_of_affine htag]
  exact ⟨t, S1, dAG, dBG, ht, hV.timesPoint_eq_ok hV1, hV.timesPoint_eq_ok hVA, hV.timesPoint_eq_ok hVB, hex⟩

/-! ## EGENC (44_key_agreement_cipher.md R168) -/

/-- The two points of the ciphertext of `qm`: `qm` plus the shared point, and the sender's public point. -/
def encrypt (qm G : Point) (dA dB a p : Nat) : Except ErrKind (Point × Point) := do
  let dBG    ← smul G dB a p
  let shared ← smul dBG dA a p
  let c1     ← padd qm shared a p
  let dAG    ← smul G dA a p
  return (c1, dAG)

/-- The results of EGENC (44_key_agreement_cipher.md R168). -/
def cipherResults (en : Encoded) (c : Point × Point) : Results :=
  { r1 := wrpoint c.1, r2 := wrpoint c.2, r3 := wrpoint en.qm,
    rm := regWord en.cap, rh := regWord en.h, rj := regWord en.j }

section
variable {qm G c1 dAG : Point} {dA dB a p : Nat}

theorem encrypt_eq_ok {dBG shared : Point} (hB : smul G dB a p = .ok dBG) (hshared : smul dBG dA a p = .ok shared)
    (hc : padd qm shared a p = .ok c1) (hA : smul G dA a p = .ok dAG) : encrypt qm G dA dB a p = .ok (c1, dAG) := by
  simp [encrypt, hB, hshared, hc, hA, bind, Except.bind, pure, Except.pure]

/-- An `encrypt` that succeeded had its three multiplications and its addition succeed. -/
theorem steps_of_encrypt_eq_ok (h : encrypt qm G dA dB a p = .ok (c1, dAG)) :
    ∃ dBG shared, smul G dB a p = .ok dBG ∧ smul dBG dA a p = .ok shared ∧ padd qm shared a p = .ok c1 ∧
      smul G dA a p = .ok dAG := by
  obtain ⟨dBG, hB, h⟩ := bind_eq_ok h
  obtain ⟨shared, hshared, h⟩ := bind_eq_ok h
  obtain ⟨c1, hc, h⟩ := bind_eq_ok h
  obtain ⟨dAG, hA, h⟩ := bind_eq_ok h
  obtain ⟨rfl, rfl⟩ := Prod.mk.inj (Except.ok.inj h)
  exact ⟨dBG, shared, hB, hshared, hc, hA⟩

theorem raises_encrypt (hp : 2 ≤ p) : Raises [.notInvertible] (encrypt qm G dA dB a p) :=
  raises_bind (raises_smul hp) fun _ _ => raises_bind (raises_smul hp) fun _ _ =>
    raises_bind (raises_padd hp) fun _ _ => raises_bind (raises_smul hp) fun _ _ => raises_ok

end

theorem egencOnSet_of_base {t : State} {G : Point} (en : Encoded) (hG : rdpoint t.p1 t.p.toNat = G)
    (hc : checkBase t G = .ok ()) : egencOnSet t en =
      encrypt en.qm G t.k1.toNat t.k2.toNat t.a.toNat t.p.toNat >>= fun c => .ok (cipherResults en c) := by
  rw [egencOnSet, hG, hc, encrypt]
  simp only [bind_assoc, pure_bind]
  rfl

/-- EGENC of an encoded message on a base point of the curve: the encryption, on the state with its memo ensured. -/
theorem exec_egenc_of_base {s t : State} {en : Encoded} {x y : Nat} (hw : s.cfg.wf = true) (hs : MemoInv s)
    (ha : PointSetAvailable s) (hp : 2 ≤ s.p.toNat) (ht : MemoEnsured s t) (hen : encodeMessage s = (t, .ok en))
    (hG : rdpoint s.p1 s.p.toNat = .aff x y) (hon : s.Carries x y) :
    exec .egenc s = .next (commandEnd .egenc
      (t, encrypt en.qm (.aff x y) s.k1.toNat s.k2.toNat s.a.toNat s.p.toNat >>= fun c => .ok (cipherResults en c))) := by
  obtain ⟨hpt, hat, -, hp1, hk1, hk2, -, -⟩ := ht.fields
  have hset := egencOnSet_of_base en (by rw [hp1, hpt, hG]) ((checkBase_eq_ok_iff hw hs ha ht).2 ⟨x, y, rfl, hon⟩)
  rw [hk1, hk2, hat, hpt] at hset
  rw [exec_large .egenc hp, bodyOf_egenc_eq, hen, ← hset]

/-- Settles O49: the premises name the one way in which the search can end, and `encrypt` raises its only error where one of
its steps fails. -/
theorem egencWritesTheCiphertext : Obligations.EgencWritesTheCiphertext := by
  rintro s cap h j qx qy x y hw hs ha hp hcap hle rfl hj hqx hq hleast hfirst htag rfl rfl hon
  obtain rfl := hcap.eq_npo2
  have hfound : FirstCandidate s j qx qy := ⟨hj, hqx, hq, hleast, hfirst⟩
  have ht := memoEnsured_ensurePS hs ha
  have hex := exec_egenc_of_base hw hs ha hp ht (encodeMessage_of_firstCandidate hw hs ha hle hfound)
    (rdpoint_of_affine htag _) hon
  refine ⟨_, ht, fun dAG dBG shared c1 hB hshared hc hA => hex.trans ?_, fun e hfail => hex.trans ?_⟩
  · rw [State.encodedAt, encrypt_eq_ok hB hshared hc hA]
    rfl
  · rw [(raises_encrypt hp).eq_error fun c hok => ?_]
    · rfl
    obtain ⟨dBG, shared, hB, hshared, hc, hA⟩ := steps_of_encrypt_eq_ok hok
    rcases hfail with h | h | ⟨dBG', hB', h | ⟨shared', hshared', h⟩⟩
    · cases hB.symm.trans h
    · cases hA.symm.trans h
    · cases hB.symm.trans hB'
      cases hshared.symm.trans h
    · cases hB.symm.trans hB'
      cases hshared.symm.trans hshared'
      cases hc.symm.trans h

/-! ## EGDEC (44_key_agreement_cipher.md R169) -/

/-- EGDEC by its shared point and the answer of the addition. -/
theorem exec_egdec_of_shared {s : State} {shared : Point} {r : Except ErrKind Point} (hp : 2 ≤ s.p.toNat)
    (hshared : smul (rdpoint s.p2 s.p.toNat) s.k2.toNat s.a.toNat s.p.toNat = .ok shared)
    (hr : padd (rdpoint s.p1 s.p.toNat) (pneg shared s.p.toNat) s.a.toNat s.p.toNat = r) :
    exec .egdec s = .next (pointEnd 0x0000000A#32 s r) := by
  rw [exec_egdec_eq hp, hshared, ← hr]
  rfl

/-- Settles O50: the multiplication first, then the addition; each raises NotInvertible alone. -/
theorem egdecWritesTheMessagePoint : Obligations.EgdecWritesTheMessagePoint := by
  intro s
  refine ⟨exec_small, fun hp _ _ hmul hadd => exec_egdec_of_shared hp hmul hadd, fun hp e hmul => ?_,
    fun hp _ e hmul hadd => ?_⟩
  · obtain rfl := (raises_smul hp).eq_of_error hmul
    rw [exec_egdec_eq hp, hmul]
    rfl
  · obtain rfl := (raises_padd hp).eq_of_error hadd
    exact exec_egdec_of_shared hp hmul hadd

/-! ### EGDEC of what EGENC wrote (44_key_agreement_cipher.md R170) -/

/-- On-contract both points of a ciphertext are reduced, and taking the shared point away again gives the message point: in
the group of the curve it is the multiple of the base point by `dA · dB` on both sides. -/
theorem decrypt_of_encrypt {a b p dA dB : Nat} {qm G c1 dAG : Point} (hc : CurveOnContract a b p)
    (hqm : PointOnCurve a b p qm) (hG : PointOnCurve a b p G) (h : encrypt qm G dA dB a p = .ok (c1, dAG)) :
    PointReduced p c1 ∧ PointReduced p dAG ∧
      ∃ shared, smul dAG dB a p = .ok shared ∧ padd c1 (pneg shared p) a p = .ok qm := by
  have := Fact.mk hc.1
  obtain ⟨dBG, shared, hB, hshared, hadd, hA⟩ := steps_of_encrypt_eq_ok h
  obtain ⟨W, hW⟩ := exists_standsFor hc hqm
  obtain ⟨V, hV⟩ := exists_standsFor hc hG
  have hVB := hV.of_smul_eq_ok hB
  have hVS := hVB.of_smul_eq_ok hshared
  have hVA := hV.of_smul_eq_ok hA
  obtain ⟨S, hS, hVS'⟩ := hVA.smul dB
  have hVC := hW.of_padd_eq_ok hVS hadd
  obtain ⟨Q, hQ, hWQ⟩ := hVC.padd hVS'.neg
  rw [← mul_nsmul', ← mul_nsmul, add_neg_cancel_right] at hWQ
  exact ⟨hVC.reduced, hVA.reduced, S, hS, hWQ.inj hW ▸ hQ⟩

/-- A message that was encoded had a point set, and is a point of the curve (43_message_codec.md R154). -/
theorem onCurve_of_encodeMessage_eq_ok {s : State} {en : Encoded} (hw : s.cfg.wf = true) (hs : MemoInv s)
    (h : (encodeMessage s).2 = .ok en) :
    PointSetAvailable s ∧ MemoEnsured s (encodeMessage s).1 ∧ PointOnCurve s.a.toNat s.b.toNat s.p.toNat en.qm := by
  rcases encodeMessage_spec hw hs with ⟨-, hen⟩ | ⟨-, -, -, hen⟩ | ⟨-, -, -, hen⟩ | ⟨-, ha, ht, ⟨-, hen⟩ | hfound⟩
  · cases hen ▸ h
  · cases hen ▸ h
  · cases hen ▸ h
  · cases hen ▸ h
  · obtain ⟨j, x, y, -, -, hon, -, -, hen⟩ := hfound
    rw [hen] at h ⊢
    obtain rfl := Except.ok.inj h
    exact ⟨ha, ht, hon⟩

/-- EGENC that succeeded encrypted a point of the curve with a base point of the curve (44_key_agreement_cipher.md R168). -/
theorem encrypt_of_egenc_done {s t : State} (hw : s.cfg.wf = true) (hs : MemoInv s) (h : exec .egenc s = .next t)
    (hd : t.status.done = true) :
    2 ≤ s.p.toNat ∧ ∃ u en c, MemoEnsured s u ∧ PointOnCurve s.a.toNat s.b.toNat s.p.toNat en.qm ∧
      PointOnCurve s.a.toNat s.b.toNat s.p.toNat (rdpoint s.p1 s.p.toNat) ∧
      encrypt en.qm (rdpoint s.p1 s.p.toNat) s.k1.toNat s.k2.toNat s.a.toNat s.p.toNat = .ok c ∧
      t = u.succeeded 0x00000008#32 (cipherResults en c) := by
  obtain ⟨hp, r, hr, rfl⟩ := bodyOf_ok_of_done h hd
  rw [bodyOf_egenc_answer] at hr
  obtain ⟨en, hen, hr⟩ := bind_eq_ok hr
  obtain ⟨ha, ht, hqm⟩ := onCurve_of_encodeMessage_eq_ok hw hs hen
  have hstate : (bodyOf .egenc s).1 = (encodeMessage s).1 := by rw [bodyOf_egenc_eq]
  obtain ⟨hpt, hat, -, hp1, hk1, hk2, -, -⟩ := ht.fields
  have hbase : checkBase (encodeMessage s).1 (rdpoint s.p1 s.p.toNat) = .ok () := by
    obtain ⟨_, hbase, -⟩ := bind_eq_ok hr
    rwa [hp1, hpt] at hbase
  obtain ⟨x, y, hG, hon⟩ := (checkBase_eq_ok_iff hw hs ha ht).1 hbase
  rw [egencOnSet_of_base en (by rw [hp1, hpt]) hbase, hk1, hk2, hat, hpt] at hr
  obtain ⟨c, hc, hr⟩ := bind_eq_ok hr
  obtain rfl := Except.ok.inj hr
  refine ⟨hp, _, en, c, ht, hqm, ?_, hc, by rw [hstate]; rfl⟩
  rw [hG]
  exact hon

/-- Settles O51: what EGENC wrote reads back as the two points of the ciphertext. -/
theorem decryptionRecoversThePoint : Obligations.DecryptionRecoversThePoint := by
  intro s t hw hs hcurve h hd
  obtain ⟨hp, u, en, ⟨c1, dAG⟩, hu, hqm, hG, henc, rfl⟩ := encrypt_of_egenc_done hw hs h hd
  obtain ⟨hc1, hdAG, shared, hshared, hadd⟩ := decrypt_of_encrypt hcurve hqm hG henc
  obtain ⟨hpt, hat, -, -, -, hk2, -, -⟩ := hu.fields
  rw [← hpt] at hp hc1 hdAG hshared hadd
  rw [← hat] at hshared hadd
  rw [← rdpoint_wrpoint u.p.isLt.le hdAG, ← hk2] at hshared
  rw [← rdpoint_wrpoint u.p.isLt.le hc1] at hadd
  exact exec_egdec_of_shared (s := { u.succeeded 0x00000008#32 (cipherResults en (c1, dAG)) with
    p1 := wrpoint c1, p2 := wrpoint dAG }) hp hshared hadd

end Sys2Proof.Machine

namespace Sys2Proof.Machine

/-! ## The idle block (60_exceptions.md R199) -/

/-- Settles O16: a step takes the head of the inbox, and there is none. -/
theorem idleKeepsAllState : Obligations.IdleKeepsAllState :=
  fun _ => step_idle

/-! ## The errors of each command (60_exceptions.md R200) -/

/-- Settles O21: a command changes the memo alone before its end, and `mayRaise` lists the errors of each row. -/
theorem errorsByCommand : Obligations.ErrorsByCommand := by
  intro i s
  obtain ⟨m, n, v, -, hend⟩ := exec_spec i s
  refine ⟨m, n, v, _, rfl, ?_⟩
  rcases hend with hok | ⟨e, he, herr⟩
  · exact .inl hok
  · refine .inr ⟨e.code, herr, ?_⟩
    clear herr
    revert e
    cases i <;> decide

/-! ## A base point that is not in the point set (60_exceptions.md R188) -/

/-- `checkBase` raises its one error on an operand P1 that is no point of the curve. -/
theorem checkBase_of_bad_base {s t : State} (hw : s.cfg.wf = true) (hs : MemoInv s) (ha : PointSetAvailable s)
    (ht : MemoEnsured s t)
    (hbad : s.p1.t = true ∨ ¬ s.Carries (s.p1.x.toNat % s.p.toNat) (s.p1.y.toNat % s.p.toNat)) :
    checkBase t (rdpoint t.p1 t.p.toNat) = .error .pointNotOnCurve := by
  obtain ⟨hpt, -, -, hp1, -⟩ := ht.fields
  rw [hp1, hpt]
  refine (raises_checkBase t _).eq_error fun _ hok => ?_
  obtain ⟨x, y, hG, hon⟩ := (checkBase_eq_ok_iff hw hs ha ht).1 hok
  cases htag : s.p1.t with
  | true => cases (rdpoint_of_tag htag s.p.toNat).symm.trans hG
  | false =>
    cases (rdpoint_of_affine htag s.p.toNat).symm.trans hG
    exact hbad.elim (by simp [htag]) (absurd hon)

section
variable {t : State} {e : ErrKind} (h : checkBase t (rdpoint t.p1 t.p.toNat) = .error e)
include h

theorem dhssOnSet_of_checkBase_error : dhssOnSet t = .error e := by
  rw [dhssOnSet, h]
  rfl

theorem egencOnSet_of_checkBase_error (en : Encoded) : egencOnSet t en = .error e := by
  rw [egencOnSet, h]
  rfl

end

/-- Past an encoding that succeeded, the state is the one `ensurePS` answered (43_message_codec.md R154). -/
theorem ensurePS_of_encodeMessage_eq_ok {s : State} {en : Encoded} (h : (encodeMessage s).2 = .ok en) :
    (ensurePS s).2 = .ok () ∧ (encodeMessage s).1 = (ensurePS s).1 := by
  rw [encodeMessage_eq] at h ⊢
  split at h
  · cases h
  · next hle =>
    obtain ⟨_, hens, -⟩ := bind_eq_ok h
    exact ⟨hens, by rw [if_neg hle]⟩

/-- Settles O46: both commands come to `checkBase` with the point set ensured, EGENC where ENCODE would succeed. -/
theorem basePointIsValidated : Obligations.BasePointIsValidated := by
  intro s hw hs ha hp hbad
  obtain ⟨t, hens, ht⟩ := ensurePS_of_available hs ha
  have hbase := checkBase_of_bad_base hw hs ha ht hbad
  refine ⟨t, ht, ?_, fun u hu hd => ?_⟩
  · rw [exec_large .dhss hp, bodyOf_dhss_eq, hens]
    simp only [dhssOnSet_of_checkBase_error hbase]
    rfl
  · obtain ⟨-, r, hr, -⟩ := bodyOf_ok_of_done hu hd
    rw [bodyOf_encode_answer] at hr
    obtain ⟨en, hen, -⟩ := bind_eq_ok hr
    obtain ⟨-, hstate⟩ := ensurePS_of_encodeMessage_eq_ok hen
    rw [exec_large .egenc hp, bodyOf_egenc_eq, hen, hstate, hens]
    simp only [egencOnSet_of_checkBase_error hbase]
    rfl

/-! ## Where a command raised, and the memo it left (60_exceptions.md R193, R194) -/

/-- The errors of the tests behind `ensurePS` (60_exceptions.md R193). -/
def lateErrors : List ErrKind := [.notInvertible, .pointNotOnCurve, .messageNotEncodable, .secretMismatch]

theorem not_mem_lateErrors {e : ErrKind} (h : e ∈ [ErrKind.invalidCurve, .setOverflow]) : e ∉ lateErrors :=
  (by decide : ∀ e ∈ [ErrKind.invalidCurve, .setOverflow], e ∉ lateErrors) e h

/-- ERRCODE is among the codes of some errors only for one of them (60_exceptions.md R185). -/
theorem mem_of_errCode_mem {e : ErrKind} {es : List ErrKind}
    (h : BitVec.ofNat 4 e.code ∈ es.map fun e' => BitVec.ofNat 4 e'.code) : e ∈ es := by
  obtain ⟨e', he', hcode⟩ := List.mem_map.1 h
  exact ErrKind.errCode_injective hcode ▸ he'

/-- ERRCODE holds the whole code, and so names the bit of the log (60_exceptions.md R185, R192). -/
theorem ErrKind.errCode_toNat (e : ErrKind) : (BitVec.ofNat 4 e.code).toNat = e.code := by
  cases e <;> rfl

/-- An `enumerate` that raised leaves no valid memo (41_point_enumerator.md R112). -/
theorem enumerate_error_drops {s : State} {e : ErrKind} (h : (enumerate s).2 = .error e) :
    (enumerate s).1.status.psValid = false ∧ (enumerate s).1.psCount = 0#32 := by
  rcases enumerate_spec s with ⟨-, -, hok, -⟩ | ⟨-, -, hu⟩ | ⟨-, -, hu⟩
  · cases hok.symm.trans h
  · rw [hu]
    exact ⟨rfl, rfl⟩
  · rw [hu]
    exact ⟨rfl, rfl⟩

/-- An `ensurePS` that succeeded leaves a valid memo (41_point_enumerator.md R114). -/
theorem ensurePS_ok_psValid {s : State} (h : (ensurePS s).2 = .ok ()) : (ensurePS s).1.status.psValid = true := by
  cases hv : s.status.psValid with
  | true => rw [ensurePS_of_valid hv, hv]
  | false =>
    rw [ensurePS_of_invalid hv] at h ⊢
    exact enumerate_ok_psValid h

/-- The places at which a command raises, with the state it had come to and the error: the modulus test of the frame, the
arithmetic of a command without a point set, the size test of a message, `enumerate`, and a test behind `ensurePS`. -/
inductive RaisedAt (i : Instr) (s : State) : State → ErrKind → Prop
  | modulus : s.p.toNat < 2 → RaisedAt i s s .invalidCurve
  | arithmetic : usesPointSet i = false → RaisedAt i s s .notInvertible
  | sizeTest : s.p.toNat < npo2 s.msg.toNat → RaisedAt i s s .messageTooLarge
  | enumeration {e : ErrKind} : (enumerate s).2 = .error e → RaisedAt i s (enumerate s).1 e
  | afterEnsure {e : ErrKind} : (ensurePS s).2 = .ok () → e ∈ lateErrors → RaisedAt i s (ensurePS s).1 e

section
variable {i : Instr} {s : State} {e : ErrKind}

theorem raisedAt_of_ensurePS_error (h : (ensurePS s).2 = .error e) : RaisedAt i s (ensurePS s).1 e := by
  cases hv : s.status.psValid with
  | true => rw [ensurePS_of_valid hv] at h; cases h
  | false =>
    rw [ensurePS_of_invalid hv] at h ⊢
    exact .enumeration h

theorem raisedAt_of_encodeMessage_error (h : (encodeMessage s).2 = .error e) : RaisedAt i s (encodeMessage s).1 e := by
  rw [encodeMessage_eq] at h ⊢
  by_cases hlarge : s.p.toNat < npo2 s.msg.toNat
  · rw [if_pos hlarge] at h ⊢
    obtain rfl := Except.error.inj h
    exact .sizeTest hlarge
  · rw [if_neg hlarge] at h ⊢
    rcases bind_eq_error h with h | ⟨_, hens, h⟩
    · exact raisedAt_of_ensurePS_error h
    · exact .afterEnsure hens ((raises_encodeOnSet _).mono (by simp [lateErrors]) e h)

/-- Every error of a body has its place. -/
theorem raisedAt_of_bodyOf_error (hp : 2 ≤ s.p.toNat) (h : (bodyOf i s).2 = .error e) : RaisedAt i s (bodyOf i s).1 e := by
  have harith (hi : usesPointSet i = false) (hr : Raises [.notInvertible] (bodyOf i s).2) (hstate : (bodyOf i s).1 = s) :
      RaisedAt i s (bodyOf i s).1 e := by
    obtain rfl := hr.eq_of_error h
    rw [hstate]
    exact .arithmetic hi
  cases i with
  | modinv => exact harith rfl (raises_modinvBody hp) rfl
  | padd => exact harith rfl (raises_paddBody hp) rfl
  | pdbl => exact harith rfl (raises_pdblBody hp) rfl
  | smul => exact harith rfl (raises_smulBody hp) rfl
  | pneg => exact harith rfl raises_ok rfl
  | egdec => exact harith rfl (raises_egdecBody hp) rfl
  | enum =>
    rw [bodyOf_enum_answer] at h
    rw [bodyOf_enum_eq]
    rcases bind_eq_error h with h | ⟨_, -, h⟩
    · exact .enumeration h
    · cases h
  | encode =>
    rw [bodyOf_encode_answer] at h
    rw [bodyOf_encode_eq]
    rcases bind_eq_error h with h | ⟨_, -, h⟩
    · exact raisedAt_of_encodeMessage_error h
    · cases h
  | dhss =>
    rw [bodyOf_dhss_answer] at h
    rw [bodyOf_dhss_eq]
    rcases bind_eq_error h with h | ⟨_, hens, h⟩
    · exact raisedAt_of_ensurePS_error h
    · have hraises := raises_dhssOnSet ((sameButMemo_ensurePS s).p_eq ▸ hp)
      exact .afterEnsure hens (hraises.mono (by simp [lateErrors]) e h)
  | egenc =>
    rw [bodyOf_egenc_answer] at h
    rw [bodyOf_egenc_eq]
    rcases bind_eq_error h with h | ⟨en, hen, h⟩
    · exact raisedAt_of_encodeMessage_error h
    · have hraises := raises_egencOnSet en ((sameButMemo_encodeMessage s).p_eq ▸ hp)
      obtain ⟨hens, hstate⟩ := ensurePS_of_encodeMessage_eq_ok hen
      simp only [hstate]
      exact .afterEnsure hens (hraises.mono (by simp [lateErrors]) e h)

/-- A command that ended with ERR = 1 ended in the failure of the place where it raised. -/
theorem exec_raised {t : State} (h : exec i s = .next t) (herr : t.status.err = true) :
    ∃ u e, RaisedAt i s u e ∧ t = u.failed (encodeCommand i) e.code := by
  by_cases hp : s.p.toNat < 2
  · rw [exec_small hp] at h
    exact ⟨s, .invalidCurve, .modulus hp, (Host.Outcome.next.inj h).symm⟩
  · have hp : 2 ≤ s.p.toNat := by omega
    rw [exec_large i hp] at h
    obtain rfl := Host.Outcome.next.inj h
    have hplace : ∀ e, (bodyOf i s).2 = .error e → RaisedAt i s (bodyOf i s).1 e := fun _ => raisedAt_of_bodyOf_error hp
    revert herr hplace
    obtain ⟨u, r⟩ := bodyOf i s
    cases r with
    | ok r => exact fun herr => by cases herr
    | error e => exact fun _ hplace => ⟨u, e, hplace e rfl, rfl⟩

end

section
variable {i : Instr} {s u : State} {e : ErrKind} (h : RaisedAt i s u e)
include h

theorem RaisedAt.esticky_eq : u.esticky = s.esticky := by
  cases h with
  | enumeration _ => rw [enumerate_frame]
  | afterEnsure _ _ => rw [ensurePS_frame]
  | _ => rfl

theorem RaisedAt.state_eq_of_messageTooLarge (he : e = .messageTooLarge) : u = s := by
  cases h with
  | enumeration herr => exact absurd (he ▸ raises_enumerate s e herr) (by simp)
  | afterEnsure _ hlate => exact absurd (he ▸ hlate) (by decide)
  | _ => rfl

/-- A late error of a command with a point set was raised on the state that `ensurePS` answered. -/
theorem RaisedAt.ensured (hi : usesPointSet i = true) (he : e ∈ lateErrors) :
    (ensurePS s).2 = .ok () ∧ u = (ensurePS s).1 := by
  cases h with
  | modulus _ => exact absurd he (by decide)
  | arithmetic hi' => cases hi.symm.trans hi'
  | sizeTest _ => exact absurd he (by decide)
  | enumeration herr => exact absurd he (not_mem_lateErrors (raises_enumerate s e herr))
  | afterEnsure hens _ => exact ⟨hens, rfl⟩

/-- Where `enumerate` raised it left no valid memo (41_point_enumerator.md R112). -/
theorem RaisedAt.memo_dropped (hp : 2 ≤ s.p.toNat) (he : e ∈ [ErrKind.invalidCurve, .setOverflow]) :
    u.status.psValid = false ∧ u.psCount = 0#32 := by
  cases h with
  | modulus hsmall => omega
  | arithmetic _ => exact absurd he (by decide)
  | sizeTest _ => exact absurd he (by decide)
  | enumeration herr => exact enumerate_error_drops herr
  | afterEnsure _ hlate => exact absurd hlate (not_mem_lateErrors he)

end

/-- Settles O22: the frame clears before it raises, and the memo is as the place where the command raised left it. -/
theorem errorsArePrecise : Obligations.ErrorsArePrecise := by
  intro i s t hw hs h herr
  obtain ⟨u, e, hat, rfl⟩ := exec_raised h herr
  obtain ⟨⟨-, hp, ha, hb, hp1, hp2, hk1, hk2, hmsg, hopa, haddr, -, -⟩, hkeep⟩ := commandsKeepOperandsAndMemo i s _ h
  have hlog : (u.failed (encodeCommand i) e.code).esticky =
      s.esticky ||| (1#32 <<< (BitVec.ofNat 4 e.code).toNat) := by
    rw [e.errCode_toNat, ← hat.esticky_eq]
    rfl
  refine ⟨rfl, rfl, rfl, hlog, rfl, rfl, rfl, rfl, rfl, rfl, rfl,
    ⟨hp, ha, hb, hp1, hp2, hk1, hk2, hmsg, hopa, haddr⟩, ?_, fun hi hcode => ?_, fun hp hcode => ?_⟩
  · rintro (hi | hsmall | hcode)
    · exact hkeep hi
    · rw [exec_small hsmall] at h
      rw [← Host.Outcome.next.inj h]
      exact ⟨rfl, rfl, rfl⟩
    · obtain rfl := hat.state_eq_of_messageTooLarge (ErrKind.errCode_injective (e' := .messageTooLarge) hcode)
      exact ⟨rfl, rfl, rfl⟩
  · have huses : usesPointSet i = true := by
      revert hi
      cases i <;> decide
    obtain ⟨hok, rfl⟩ := hat.ensured huses (mem_of_errCode_mem (es := lateErrors) hcode)
    refine ⟨ensurePS_ok_psValid hok, ensurePS_memoInv hw hs, fun hv => ?_⟩
    rw [ensurePS_of_valid hv]
    exact ⟨rfl, rfl⟩
  · exact hat.memo_dropped hp (mem_of_errCode_mem (es := [.invalidCurve, .setOverflow]) hcode)

end Sys2Proof.Machine

namespace Sys2Proof.Machine

/-! ## The reset input (70_reset_and_hazards.md R210, R211) -/

/-- A register reads after the reset input as in the default implementation after reset: only CAPW and CAPD read the
parameters, and the content of PS is not seen without a valid memo (10_state.md R47). -/
theorem regRead_applyReset (s : State) {r : RegName} (hw : r ≠ .capw) (hd : r ≠ .capd) :
    regRead (applyReset s) r = regRead State.reset r := by
  cases r with
  | capw => exact absurd rfl hw
  | capd => exact absurd rfl hd
  | _ => rfl

/-- After the reset input every slot behind CAPD reads 0, whatever the parameters and the content of PS. -/
theorem busRead_applyReset_eq_zero (s : State) {addr : BusAddr} (h : 3 ≤ addr.toNat) :
    busRead (applyReset s) addr = 0#32 := by
  rw [← busRead_reset_eq_zero h]
  unfold busRead
  cases hr : regAt addr with
  | none => rfl
  | some r =>
    rw [← index_of_regAt hr] at h
    refine regRead_applyReset s ?_ ?_ <;> rintro rfl <;> exact absurd h (by decide)

/-- Settles O18: the step is `applyReset`, which keeps the parameters, and so the constants, and gives every register its
reset value. -/
theorem resetInputClearsTheRegisters : Obligations.ResetInputClearsTheRegisters := by
  intro s rest h
  exact ⟨_, step_reset h, rfl, rfl, rfl, rfl, rfl, fun _ => busRead_applyReset_eq_zero _, rfl, rfl, rfl⟩

end Sys2Proof.Machine
